-- ==== Sys2Proof/Word.lean ====
section
/-! DEFINITION. The word types of the core (00_scope.md R8). The core has no general word width: its
values are bytes, 16-bit frames and host words, and bit patterns of the result format F. -/

namespace Sys2Proof

/-- A byte, `u8` of R8. Bit 0 is the least significant bit. -/
abbrev Byte := BitVec 8

/-- The bit pattern of a value of the result format F (R10, R190). For binary64 it is the whole pattern;
for binary32 the pattern stands in bits 31..0 and bits 63..32 are zero (notes/assumptions/9.md). -/
abbrev FBits := BitVec 64

end Sys2Proof
end

