-- ==== Sys2Proof/Config.lean ====
section
/-! DEFINITION. What is fixed for a run (00_scope.md R7): the constants of the source, the formats and
evaluation schemes of 42_converter.md R190, and the record of parameters that R7 calls `OPEN` or gives a
default. R43 and R344: none of it is changed by any step. -/

namespace Sys2Proof

/-- The two IEEE 754 formats F may be (R46, R190). -/
inductive Fmt where
  | b32
  | b64
deriving DecidableEq, Repr

/-- `NUM_EVAL`, the evaluation scheme of the converters (R190). -/
inductive NumEval where
  | e64
  | e64To32
  | e32
deriving DecidableEq, Repr

/-- The format F of the result under each scheme (R190, column 2; R46). -/
def NumEval.fmt : NumEval → Fmt
  | .e64 => .b64
  | .e64To32 => .b32
  | .e32 => .b32

/-- The parameter `CMD_CODE`: one 8-bit code per command (R7, R102). -/
structure CmdCodes where
  tHold : Byte
  rhHold : Byte
  tNohold : Byte
  rhNohold : Byte
  writeUreg : Byte
  readUreg : Byte
  softReset : Byte
deriving DecidableEq, Repr

/-- The seven codes, in the source's listing order. -/
def CmdCodes.toList (k : CmdCodes) : List Byte :=
  [k.tHold, k.rhHold, k.tNohold, k.rhNohold, k.writeUreg, k.readUreg, k.softReset]

/-- The parameters of R7 that are `OPEN` or defaulted. A threshold of `none` is the deployment's own value, of
which nothing is known (`Config.tempThreshold`, `Config.humThreshold`). -/
structure Params where
  cmdCode : CmdCodes
  numEval : NumEval
  tempThreshold : Option FBits
  humThreshold : Option FBits
  cleanupOnAbort : Bool
  cleanupErrorReported : Bool
deriving DecidableEq, Repr

/-- The result format F of a parameter record. -/
def Params.fmt (p : Params) : Fmt := p.numEval.fmt

/-! The fixed parameters of R7. -/

/-- `DEV_ADDR`. -/
def Config.devAddr : BitVec 7 := 0x40#7
/-- `T_SETTLE_MS`. -/
def Config.tSettleMs : Nat := 90
/-- `RH_SETTLE_MS`. -/
def Config.rhSettleMs : Nat := 40
/-- `ST_SETTLE_MS`. -/
def Config.stSettleMs : Nat := 10000
/-- `MEAS_RX_BYTES`. -/
def Config.measRxBytes : Nat := 3
/-- `UREG_RX_BYTES`. -/
def Config.uregRxBytes : Nat := 1
/-- `CRC_POLY`, x^8 + x^5 + x^4 + 1. -/
def Config.crcPoly : BitVec 9 := 0x131#9
/-- `CRC_INIT`. -/
def Config.crcInit : Byte := 0x00#8

/-- The default table of `CMD_CODE` (R102). PRESUMED: the codes are general knowledge of the sensor family,
which the spec names as this parameter's default (notes/assumptions/1.md). -/
def Config.cmdCodes : CmdCodes where
  tHold := 0xE3#8
  rhHold := 0xE5#8
  tNohold := 0xF3#8
  rhNohold := 0xF5#8
  writeUreg := 0xE6#8
  readUreg := 0xE7#8
  softReset := 0xFE#8

/-- `TEMP_THRESHOLD`, `OPEN` in R7: no value is given and none may be assumed (91 N27), so it has no body
(notes/assumptions/3.md). -/
opaque Config.tempThreshold : FBits

/-- `HUM_THRESHOLD`, `OPEN` in R7: no value is given and none may be assumed (91 N27). -/
opaque Config.humThreshold : FBits

/-- `TEMP_THRESHOLD` as the judge reads it (R266). -/
def Params.tempThr (p : Params) : FBits := p.tempThreshold.getD Config.tempThreshold

/-- `HUM_THRESHOLD` as the judge reads it (R266). -/
def Params.humThr (p : Params) : FBits := p.humThreshold.getD Config.humThreshold

/-- The parameters a run has unless another record is given: every default of R7, and the two thresholds
that have none at the deployment's own unknown values. -/
def Config.params : Params where
  cmdCode := Config.cmdCodes
  numEval := .e64
  tempThreshold := none
  humThreshold := none
  cleanupOnAbort := false
  cleanupErrorReported := true

end Sys2Proof
end

