-- ==== Sys2Proof/Syntax.lean ====
section
/-! DEFINITION. The abstract syntax: the seven sensor commands, the six host operations and the twelve
datapath functions (00_scope.md R3), one constructor of `Instr` per row of spec/opcode_table.json, and the
formats a bit string may arrive in (30_encoding.md R100, R118). -/

namespace Sys2Proof

/-- The closed Command set, in the source's listing order (R102, R105). -/
inductive Command where
  | tHold
  | rhHold
  | tNohold
  | rhNohold
  | writeUreg
  | readUreg
  | softReset
deriving DecidableEq, Repr

/-- The two kinds of measurement (R226, `cv_kind` of R59). -/
inductive MeasKind where
  | temp
  | hum
deriving DecidableEq, Repr

/-- The six host operations (R116). -/
inductive HostOp where
  | readT
  | readRh
  | readUreg
  | writeUreg
  | softReset
  | selfTest
deriving DecidableEq, Repr

/-- A decoded UserRegister: the whole byte and the five fields (R150). Bits 5 to 3 have no field. -/
structure UserRegister where
  raw : Byte
  res : BitVec 2
  eob : BitVec 1
  heater : BitVec 1
  otpd : BitVec 1
deriving DecidableEq, Repr

/-- One constructor per row of the opcode table. -/
inductive Instr where
  -- sensor commands, each named by its request frame (R142 to R148)
  | cmdTHold
  | cmdRhHold
  | cmdTNohold
  | cmdRhNohold
  | cmdWriteUreg
  | cmdReadUreg
  | cmdSoftReset
  -- host operations (R230 to R238, R260); `writeUreg` carries IMM8
  | readT
  | readRh
  | readUreg
  | writeUreg (imm8 : Byte)
  | softReset
  | selfTest
  -- datapath functions (R141, R150 to R155, R171, R172, R193, R196, R266)
  | buildRequest (cmdsel : BitVec 3)
  | parseUserRegister (u : Byte)
  | serializeUserRegister (r : UserRegister)
  | setHeater (u : Byte)
  | clearHeater (u : Byte)
  | setResolution (u : Byte) (r : BitVec 2)
  | writeKeepsInvariant (read written changed : Byte)
  | crc8 (data : List Byte)
  | checkCrc (data : List Byte) (check : Byte)
  | toTemperature (b0 b1 b2 : Byte)
  | toHumidity (b0 b1 b2 : Byte)
  | judge (t0 h0 t1 h1 : FBits)
deriving DecidableEq, Repr

/-- The instructions that are pure functions of the datapath: the sensor commands, which only encode a frame, and the
twelve datapath functions (R3, R59). The others are the host operations. -/
abbrev Instr.combinational : Instr → Prop
  | .cmdTHold => True
  | .cmdRhHold => True
  | .cmdTNohold => True
  | .cmdRhNohold => True
  | .cmdWriteUreg => True
  | .cmdReadUreg => True
  | .cmdSoftReset => True
  | .readT => False
  | .readRh => False
  | .readUreg => False
  | .writeUreg _ => False
  | .softReset => False
  | .selfTest => False
  | .buildRequest _ => True
  | .parseUserRegister _ => True
  | .serializeUserRegister _ => True
  | .setHeater _ => True
  | .clearHeater _ => True
  | .setResolution _ _ => True
  | .writeKeepsInvariant _ _ _ => True
  | .crc8 _ => True
  | .checkCrc _ _ => True
  | .toTemperature _ _ _ => True
  | .toHumidity _ _ _ => True
  | .judge _ _ _ _ => True

/-- Where a bit string arrives. R118: a decoder tells the format from the port the word arrives on, not from
the word's bits. `frame` and the portless datapath functions have no port of R59; notes/assumptions/6.md says
why each has a place here. -/
inductive Port where
  | frame
  | opWord
  | bldCmdsel
  | purByte
  | serialize
  | setHeater
  | clearHeater
  | setResolution
  | writeKeepsInvariant
  | crcValue
  | crcOk
  | cvTemp
  | cvHum
  | judge
deriving DecidableEq, Repr

/-- `nbits` bits at a port, as the number `bits` whose bit 0 is the least significant. -/
structure PortWord where
  port : Port
  nbits : Nat
  bits : Nat
deriving DecidableEq, Repr

/-- Why a bit string at a port is no instruction. -/
inductive Reject where
  /-- A host word outside R117. -/
  | illegalOp
  /-- `CMDSEL = 7` (R105). -/
  | badCmdsel
  /-- A 16-bit word that is not a frame of this core (R109 item 2). -/
  | notAFrame
  /-- A bit string whose width is not the port's. -/
  | badWidth
deriving DecidableEq, Repr

/-- What the decoder answers: an instruction, or a rejection by name. -/
inductive Decoded where
  | instr (i : Instr)
  | reject (r : Reject)
deriving DecidableEq, Repr

end Sys2Proof
end

