-- ==== Sys2Proof/Machine/Operands.lean ====
section
/-! DEFINITION. The operand forms of the core: the request frame and its fields (30_encoding.md R101 to R105,
40_frame_codec.md R141), the user-register byte and its fields (R106, R150 to R155), the raw reading and its
fields (R107), and the host word's operation codes (R116). Pure functions of bits: nothing here reads State. -/

namespace Sys2Proof

/-- `CMD_CODE(c)` (R102). -/
def CmdCodes.code (k : CmdCodes) : Command → Byte
  | .tHold => k.tHold
  | .rhHold => k.rhHold
  | .tNohold => k.tNohold
  | .rhNohold => k.rhNohold
  | .writeUreg => k.writeUreg
  | .readUreg => k.readUreg
  | .softReset => k.softReset

/-- The command of a 3-bit `CMDSEL` (R105); 7 names no command. -/
def Command.ofSel (c : BitVec 3) : Option Command :=
  match c.toNat with
  | 0 => some .tHold
  | 1 => some .rhHold
  | 2 => some .tNohold
  | 3 => some .rhNohold
  | 4 => some .writeUreg
  | 5 => some .readUreg
  | 6 => some .softReset
  | _ => none

/-- The `CMDSEL` of a command (R105). -/
def Command.sel : Command → BitVec 3
  | .tHold => 0#3
  | .rhHold => 1#3
  | .tNohold => 2#3
  | .rhNohold => 3#3
  | .writeUreg => 4#3
  | .readUreg => 5#3
  | .softReset => 6#3

/-- `OPC`, the operation code of R116; `OP` holds it while the operation runs (R31). -/
def HostOp.code : HostOp → BitVec 4
  | .readT => 1#4
  | .readRh => 2#4
  | .readUreg => 3#4
  | .writeUreg => 4#4
  | .softReset => 5#4
  | .selfTest => 6#4

/-- The 3-bit value of the register `OP`, `NONE` being 0 (R31). -/
def opRegCode : Option HostOp → BitVec 3
  | none => 0#3
  | some o => o.code.truncate 3

/-! Request frames. -/

/-- `DIR(c)`: 0 (write) for write-user-register, 1 (read) for every other command (R103; 90_conflicts.md C1). -/
def dirBit : Command → BitVec 1
  | .tHold => 1#1
  | .rhHold => 1#1
  | .tNohold => 1#1
  | .rhNohold => 1#1
  | .writeUreg => 0#1
  | .readUreg => 1#1
  | .softReset => 1#1

/-- The RequestFrame layout, `ADDR` in 15:9, `DIR` in 8, `CMD` in 7:0 (R101). -/
def frameWord (addr : BitVec 7) (dir : BitVec 1) (code : Byte) : BitVec 16 := addr ++ dir ++ code

/-- `buildRequest(c)` (R141). -/
def buildRequest (p : Params) (c : Command) : BitVec 16 :=
  frameWord Config.devAddr (dirBit c) (p.cmdCode.code c)

/-- `ADDR = frame[15:9]`. -/
def frameAddr (f : BitVec 16) : BitVec 7 := f.extractLsb' 9 7
/-- `DIR = frame[8]`. -/
def frameDir (f : BitVec 16) : BitVec 1 := f.extractLsb' 8 1
/-- `CMD = frame[7:0]`. -/
def frameCode (f : BitVec 16) : Byte := f.extractLsb' 0 8

/-- A frame written out as two bytes, big-endian (R76). -/
def frameBytes (f : BitVec 16) : List Byte := [f.extractLsb' 8 8, f.extractLsb' 0 8]

/-- The `bytes` argument of `transmit` for a frame and its payload (R73). -/
def wireBytes (f : BitVec 16) (payload : List Byte) : List Byte := frameCode f :: payload

/-- The command a recorded 16-bit word is the frame of, if it is a frame of this core at all (R109 item 2). -/
def commandOfFrame (p : Params) (w : BitVec 16) : Option Command :=
  [Command.tHold, .rhHold, .tNohold, .rhNohold, .writeUreg, .readUreg, .softReset].find?
    fun c => buildRequest p c == w

/-! The user-register byte. -/

/-- `parseUserRegister(u)` (R150): the whole byte, `RES = {u[7], u[0]}`, `EOB`, `HEATER`, `OTPD`. -/
def parseUserRegister (u : Byte) : UserRegister where
  raw := u
  res := u.extractLsb' 7 1 ++ u.extractLsb' 0 1
  eob := u.extractLsb' 6 1
  heater := u.extractLsb' 2 1
  otpd := u.extractLsb' 1 1

/-- `RSVD = u[5:3]`, never interpreted (R106). -/
def reservedField (u : Byte) : BitVec 3 := u.extractLsb' 3 3

/-- `serializeUserRegister(r)`: the raw byte, never a rebuilt one (R151; 90_conflicts.md C5). -/
def serializeUserRegister (r : UserRegister) : Byte := r.raw

/-- `setHeater(u)` (R152). -/
def setHeater (u : Byte) : Byte := u ||| 0x04#8

/-- `clearHeater(u)` (R153). -/
def clearHeater (u : Byte) : Byte := u &&& 0xFB#8

/-- `setResolution(u, r)` (R154): r[1] goes to bit 7 and r[0] to bit 0. -/
def setResolution (u : Byte) (r : BitVec 2) : Byte :=
  (u &&& 0x7E#8) ||| ((r.extractLsb' 1 1).setWidth 8 <<< 7) ||| (r.extractLsb' 0 1).setWidth 8

/-- `writeKeepsInvariant(read, written, changed)` (R155). -/
def writeKeepsInvariant (read written changed : Byte) : Bool :=
  ((read ^^^ written) &&& ~~~changed) == 0x00#8

/-! The raw reading. -/

/-- `raw16 = {b0, b1}`, big-endian (R75, R107). -/
def raw16 (b0 b1 : Byte) : BitVec 16 := b0 ++ b1

/-- `STATUS = raw16[1:0]`; the core never reads it (R107). -/
def statusField (b0 b1 : Byte) : BitVec 2 := (raw16 b0 b1).extractLsb' 0 2

/-- `DATA14 = raw16[15:2]` (R107). -/
def data14 (b0 b1 : Byte) : BitVec 14 := (raw16 b0 b1).extractLsb' 2 14

/-- `masked = raw16 & 0xFFFC`, the converter's operand (R107, R108, R191). -/
def masked (b0 b1 : Byte) : BitVec 16 := raw16 b0 b1 &&& 0xFFFC#16

end Sys2Proof
end

