-- ==== Sys2Proof/Machine/Flags.lean ====
section
/-! DEFINITION. The computed flag of the core: `crc_ok`, the output of checkCrc, and the CRC-8 it rests on
(41_checksum.md R170 to R172; 10_state.md R45). `BUSY`, `DONE`, `RES_ERR` and `VERDICT` are registers of State,
written by start, finish and the verdict (Machine/Ops.lean, Machine/SelfTest.lean). -/

namespace Sys2Proof

/-- One of the eight bit positions of R171: test bit 7 before the shift, shift left, and XOR the polynomial's
low byte if the bit was set. -/
def crcBit (acc : Byte) : Byte :=
  if acc.getLsbD 7 then (acc <<< 1) ^^^ Config.crcPoly.setWidth 8 else acc <<< 1

/-- `n` bit positions. -/
def crcBits : Nat → Byte → Byte
  | 0, acc => acc
  | n + 1, acc => crcBits n (crcBit acc)

/-- One byte: XOR it in, then eight bit positions. -/
def crcByte (acc b : Byte) : Byte := crcBits 8 (acc ^^^ b)

/-- The accumulator carried over a list of bytes; it is not reset per byte. -/
def crcFrom (acc : Byte) (bytes : List Byte) : Byte := bytes.foldl crcByte acc

/-- `crc8(bytes)` (R171). -/
def crc8 (bytes : List Byte) : Byte := crcFrom Config.crcInit bytes

/-- `checkCrc(bytes, checksumByte)` (R172). -/
def checkCrc (bytes : List Byte) (checksumByte : Byte) : Bool := crc8 bytes == checksumByte

end Sys2Proof
end

