-- ==== Sys2Proof/Machine/Float.lean ====
section
/-! DEFINITION. IEEE 754 arithmetic with rounding to nearest, ties to even, in binary32 and binary64
(00_scope.md R10; 42_converter.md R190). Every operation computes the exact result as a ratio of natural
numbers times a power of two, and rounds once. -/

namespace Sys2Proof

/-- Width of the fraction field. -/
def Fmt.fracBits : Fmt → Nat
  | .b32 => 23
  | .b64 => 52

/-- Width of the exponent field. -/
def Fmt.expBits : Fmt → Nat
  | .b32 => 8
  | .b64 => 11

/-- Width of the whole pattern. -/
def Fmt.width : Fmt → Nat
  | .b32 => 32
  | .b64 => 64

/-- The exponent of the smallest positive value: every finite value is a multiple of 2^minExp. -/
def Fmt.minExp : Fmt → Int
  | .b32 => -149
  | .b64 => -1074

/-- The pattern of +infinity: the exponent field all ones. -/
def Fmt.infPat (f : Fmt) : Nat := (2 ^ f.expBits - 1) * 2 ^ f.fracBits

/-- The weight of the sign bit. -/
def Fmt.signPat (f : Fmt) : Nat := 2 ^ (f.width - 1)

/-- A value of a format. `fin neg m e` is (-1)^neg · m · 2^e exactly. -/
inductive FNum where
  | nan
  | inf (neg : Bool)
  | fin (neg : Bool) (m : Nat) (e : Int)
deriving DecidableEq, Repr

/-- The value of a pattern; in binary32, of its bits 31..0. -/
def unpack (f : Fmt) (x : FBits) : FNum :=
  let n := x.toNat % 2 ^ f.width
  let neg := n / f.signPat == 1
  let mag := n % f.signPat
  let ex := mag / 2 ^ f.fracBits
  let fr := mag % 2 ^ f.fracBits
  if ex = 2 ^ f.expBits - 1 then (if fr = 0 then .inf neg else .nan)
  else if ex = 0 then .fin neg fr f.minExp
  else .fin neg (2 ^ f.fracBits + fr) (f.minExp + (ex - 1))

/-- The natural number nearest to a/b, ties to even. -/
def divNearestEven (a b : Nat) : Nat :=
  let k := a / b
  let r := a % b
  if 2 * r < b then k else if b < 2 * r then k + 1 else k + k % 2

/-- Floor of log2 (n/d), for n and d not 0. -/
def floorLog2 (n d : Nat) : Int :=
  let l : Int := (Nat.log2 n : Int) - Nat.log2 d
  if d * 2 ^ l.toNat ≤ n * 2 ^ (-l).toNat then l else l - 1

/-- The magnitude pattern nearest to (n/d)·2^e, ties to even; infinity past the largest finite value. The
quantum is 2^q; adding `m` to the scaled exponent carries into the exponent field by itself. -/
def roundMag (f : Fmt) (n d : Nat) (e : Int) : Nat :=
  if n = 0 then 0
  else
    let q := max (floorLog2 n d + e - f.fracBits) f.minExp
    let m := divNearestEven (n * 2 ^ (e - q).toNat) (d * 2 ^ (q - e).toNat)
    min ((q - f.minExp).toNat * 2 ^ f.fracBits + m) f.infPat

/-- A pattern from its sign and magnitude. -/
def signed (f : Fmt) (neg : Bool) (mag : Nat) : FBits :=
  BitVec.ofNat 64 (if neg then f.signPat + mag else mag)

/-- `RN_F` of (-1)^neg · (n/d)·2^e (R10). -/
def roundTo (f : Fmt) (neg : Bool) (n d : Nat) (e : Int) : FBits := signed f neg (roundMag f n d e)

/-- The pattern used for a NaN result: the quiet NaN with an empty payload. DESIGN CHOICE: R10 gives NaN no
payload; a NaN is only ever compared, and compares false (notes/assumptions/10.md). -/
def nanPat (f : Fmt) : FBits := BitVec.ofNat 64 (f.infPat + 2 ^ (f.fracBits - 1))

/-- The signed integer (-1)^neg · m · 2^(e - base), for base ≤ e. -/
def scaled (neg : Bool) (m : Nat) (e base : Int) : Int :=
  let k : Int := (m * 2 ^ (e - base).toNat : Nat)
  if neg then -k else k

/-- `x +_F y` (R10). An exact zero sum is +0 unless both operands are negative. -/
def fadd (f : Fmt) (x y : FBits) : FBits :=
  match unpack f x, unpack f y with
  | .nan, _ => nanPat f
  | _, .nan => nanPat f
  | .inf a, .inf b => if a = b then signed f a f.infPat else nanPat f
  | .inf a, .fin _ _ _ => signed f a f.infPat
  | .fin _ _ _, .inf b => signed f b f.infPat
  | .fin a m e, .fin b n k =>
    let base := min e k
    let sum := scaled a m e base + scaled b n k base
    if sum = 0 then signed f (a && b) 0 else roundTo f (decide (sum < 0)) sum.natAbs 1 base

/-- The operand with its sign bit flipped, for subtraction. -/
def fneg (f : Fmt) (x : FBits) : FBits := x ^^^ BitVec.ofNat 64 f.signPat

/-- `x -_F y` (R10). -/
def fsub (f : Fmt) (x y : FBits) : FBits := fadd f x (fneg f y)

/-- `x *_F y` (R10). -/
def fmul (f : Fmt) (x y : FBits) : FBits :=
  match unpack f x, unpack f y with
  | .nan, _ => nanPat f
  | _, .nan => nanPat f
  | .inf a, .inf b => signed f (a != b) f.infPat
  | .inf a, .fin b n _ => if n = 0 then nanPat f else signed f (a != b) f.infPat
  | .fin a m _, .inf b => if m = 0 then nanPat f else signed f (a != b) f.infPat
  | .fin a m e, .fin b n k => roundTo f (a != b) (m * n) 1 (e + k)

/-- `x /_F y` (R10). -/
def fdiv (f : Fmt) (x y : FBits) : FBits :=
  match unpack f x, unpack f y with
  | .nan, _ => nanPat f
  | _, .nan => nanPat f
  | .inf _, .inf _ => nanPat f
  | .inf a, .fin b _ _ => signed f (a != b) f.infPat
  | .fin a _ _, .inf b => signed f (a != b) 0
  | .fin a m e, .fin b n k =>
    if n = 0 then (if m = 0 then nanPat f else signed f (a != b) f.infPat)
    else roundTo f (a != b) m n (e - k)

/-- `x >_F y`, ordered: false when either operand is NaN (R10). -/
def fgt (f : Fmt) (x y : FBits) : Bool :=
  match unpack f x, unpack f y with
  | .nan, _ => false
  | _, .nan => false
  | .inf a, .inf b => !a && b
  | .inf a, .fin _ _ _ => !a
  | .fin _ _ _, .inf b => b
  | .fin a m e, .fin b n k =>
    let base := min e k
    decide (scaled b n k base < scaled a m e base)

/-- `RN_32` of a binary64 value (R190, scheme `E64_TO_32`). -/
def toB32 (x : FBits) : FBits :=
  match unpack .b64 x with
  | .nan => nanPat .b32
  | .inf a => signed .b32 a (Fmt.infPat .b32)
  | .fin a m e => roundTo .b32 a m 1 e

/-- `fl_F` of a natural number (R10). -/
def ofNatF (f : Fmt) (n : Nat) : FBits := roundTo f false n 1 0

/-- A pattern is of a finite value: neither an infinity nor a NaN (R46). -/
def isFinite (f : Fmt) (x : FBits) : Bool :=
  match unpack f x with
  | .fin _ _ _ => true
  | .inf _ => false
  | .nan => false

/-- A pattern lies within the format's width (R46; notes/assumptions/9.md). -/
def fitsF (f : Fmt) (x : FBits) : Bool := decide (x.toNat < 2 ^ f.width)

end Sys2Proof
end

