-- ==== Sys2Proof/Machine/Convert.lean ====
section
/-! DEFINITION. The measurement converter (42_converter.md R190 to R196) and the self-test's judge function
(44_self_test.md R266). Pure functions: they read no register (R192). -/

namespace Sys2Proof

/-- A decimal literal of the source, (-1)^neg · num / 100. -/
structure Literal where
  neg : Bool
  hundredths : Nat
deriving DecidableEq, Repr

/-- `T_C0 = -46.85` (R7). -/
def Config.tC0 : Literal := ⟨true, 4685⟩
/-- `T_C1 = 175.72` (R7). -/
def Config.tC1 : Literal := ⟨false, 17572⟩
/-- `RH_C0 = -6.0` (R7). -/
def Config.rhC0 : Literal := ⟨true, 600⟩
/-- `RH_C1 = 125.0` (R7). -/
def Config.rhC1 : Literal := ⟨false, 12500⟩

/-- `fl_F(lit)` (R10). -/
def Literal.fl (f : Fmt) (c : Literal) : FBits := roundTo f c.neg c.hundredths 100 0

/-- The three steps of R190 in one format: divide, multiply, add, each rounded; none fused. -/
def evalIn (f : Fmt) (c0 c1 : Literal) (m : BitVec 16) : FBits :=
  let q := fdiv f (ofNatF f m.toNat) (ofNatF f 65536)
  let p := fmul f (c1.fl f) q
  fadd f (c0.fl f) p

/-- `eval_NUM_EVAL(C0, C1, masked)` (R190). -/
def evalScheme (ne : NumEval) (c0 c1 : Literal) (m : BitVec 16) : FBits :=
  match ne with
  | .e64 => evalIn .b64 c0 c1 m
  | .e64To32 => toB32 (evalIn .b64 c0 c1 m)
  | .e32 => evalIn .b32 c0 c1 m

/-- The temperature of a masked reading, once its checksum is accepted (R193). -/
def temperatureOf (ne : NumEval) (m : BitVec 16) : FBits := evalScheme ne Config.tC0 Config.tC1 m

/-- The humidity of a masked reading, once its checksum is accepted (R196). -/
def humidityOf (ne : NumEval) (m : BitVec 16) : FBits := evalScheme ne Config.rhC0 Config.rhC1 m

/-- `toTemperature([b0, b1, b2])` (R193): `none` is `Err(CHECKSUM_MISMATCH)`. The CRC covers the bytes as
received; the value comes from `masked`. -/
def toTemperature (ne : NumEval) (b0 b1 b2 : Byte) : Option FBits :=
  if checkCrc [b0, b1] b2 then some (temperatureOf ne (masked b0 b1)) else none

/-- `toHumidity([b0, b1, b2])` (R196): `none` is `Err(CHECKSUM_MISMATCH)`. -/
def toHumidity (ne : NumEval) (b0 b1 b2 : Byte) : Option FBits :=
  if checkCrc [b0, b1] b2 then some (humidityOf ne (masked b0 b1)) else none

/-- The converter of a kind (R226). -/
def convert (k : MeasKind) (ne : NumEval) (b0 b1 b2 : Byte) : Option FBits :=
  match k with
  | .temp => toTemperature ne b0 b1 b2
  | .hum => toHumidity ne b0 b1 b2

/-- `judge(t0, h0, t1, h1)` (R266): temperature must rise by more than its threshold and humidity must fall by
more than its threshold, both strictly, in format F. -/
def judge (p : Params) (t0 h0 t1 h1 : FBits) : Bool :=
  fgt p.fmt (fsub p.fmt t1 t0) p.tempThr && fgt p.fmt (fsub p.fmt h0 h1) p.humThr

end Sys2Proof
end

