-- ==== Sys2Proof/WellFormed.lean ====
section
/-! DEFINITION. Which instructions and parameter records are well formed. -/

namespace Sys2Proof

/-- The seven command codes are distinct (R102, 92 D5). -/
abbrev CmdCodes.wf (k : CmdCodes) : Prop := k.toList.Nodup

/-- A parameter record the model may be instantiated with: distinct command codes (R102), and thresholds that
are patterns of the format F (R46). A NaN or infinite threshold is allowed (R266, 93 I25). -/
abbrev Params.wf (p : Params) : Prop :=
  p.cmdCode.wf ∧ p.tempThreshold.all (fitsF p.fmt) = true ∧ p.humThreshold.all (fitsF p.fmt) = true

/-- An instruction whose operands the spec gives a meaning, under a parameter record.
* `buildRequest`: the selector is not 7 (R105).
* `serializeUserRegister`: the fields are those of the raw byte, so that the byte alone says the operand (R151).
* `judge`: each operand is a pattern of the format F (R266).
Every other operand is legal at every value of its width. -/
abbrev Instr.wf (p : Params) : Instr → Prop
  | .cmdTHold => True
  | .cmdRhHold => True
  | .cmdTNohold => True
  | .cmdRhNohold => True
  | .cmdWriteUreg => True
  | .cmdReadUreg => True
  | .cmdSoftReset => True
  | .readT => True
  | .readRh => True
  | .readUreg => True
  | .writeUreg _ => True
  | .softReset => True
  | .selfTest => True
  | .buildRequest c => c ≠ 7#3
  | .parseUserRegister _ => True
  | .serializeUserRegister r => r = Sys2Proof.parseUserRegister r.raw
  | .setHeater _ => True
  | .clearHeater _ => True
  | .setResolution _ _ => True
  | .writeKeepsInvariant _ _ _ => True
  | .crc8 _ => True
  | .checkCrc _ _ => True
  | .toTemperature _ _ _ => True
  | .toHumidity _ _ _ => True
  | .judge t0 h0 t1 h1 =>
    fitsF p.fmt t0 = true ∧ fitsF p.fmt h0 = true ∧ fitsF p.fmt t1 = true ∧ fitsF p.fmt h1 = true

end Sys2Proof
end

