-- ==== Sys2Proof/Decode.lean ====
section
/-! DEFINITION. Decoding and encoding: from the bits at a port to an instruction, and back
(30_encoding.md R100 to R118; spec/opcode_table.json). Decoding is total; what is no instruction is rejected by
name. A bit string of several fields is written as the table writes it, its first field most significant. -/

namespace Sys2Proof

/-! Bytes of a bit string. -/

/-- The `n` bytes of a number, most significant first. -/
def bytesBE : Nat → Nat → List Byte
  | 0, _ => []
  | n + 1, v => BitVec.ofNat 8 (v / 256 ^ n) :: bytesBE n v

/-- The number of a list of bytes, the first most significant. -/
def numBE (l : List Byte) : Nat := l.foldl (fun acc b => acc * 256 + b.toNat) 0

/-! The host operation word (R115 to R117). -/

/-- `OPC = w[15:12]`. -/
def wordOpc (w : BitVec 16) : BitVec 4 := w.extractLsb' 12 4
/-- `Z = w[11:8]`. -/
def wordZ (w : BitVec 16) : BitVec 4 := w.extractLsb' 8 4
/-- `IMM8 = w[7:0]`. -/
def wordImm8 (w : BitVec 16) : Byte := w.extractLsb' 0 8

/-- The word of `OPC` and `IMM8`, with `Z = 0` (R115). -/
def opWordOf (o : HostOp) (imm8 : Byte) : BitVec 16 := o.code ++ 0#4 ++ imm8

/-- The instruction of a legal host word, `none` for an illegal one (R116, R117). -/
def instrOfOpWord (w : BitVec 16) : Option Instr :=
  if wordZ w ≠ 0#4 then none
  else if wordOpc w = 4#4 then some (.writeUreg (wordImm8 w))
  else if wordImm8 w ≠ 0#8 then none
  else match (wordOpc w).toNat with
    | 1 => some .readT
    | 2 => some .readRh
    | 3 => some .readUreg
    | 5 => some .softReset
    | 6 => some .selfTest
    | _ => none

/-- `legal(w)` of R223 (R117). -/
def legalOpWord (w : BitVec 16) : Bool := (instrOfOpWord w).isSome

/-- The instruction of a command, its row of the table (R142 to R148). -/
def instrOfCommand : Command → Instr
  | .tHold => .cmdTHold
  | .rhHold => .cmdRhHold
  | .tNohold => .cmdTNohold
  | .rhNohold => .cmdRhNohold
  | .writeUreg => .cmdWriteUreg
  | .readUreg => .cmdReadUreg
  | .softReset => .cmdSoftReset

/-- The host operation's instruction, from `OP` and `WPAYLOAD` (R31, R38). -/
def instrOfHostOp (o : HostOp) (payload : Byte) : Instr :=
  match o with
  | .readT => .readT
  | .readRh => .readRh
  | .readUreg => .readUreg
  | .writeUreg => .writeUreg payload
  | .softReset => .softReset
  | .selfTest => .selfTest

/-! Ports. -/

/-- The width of a port in bits; `none` where the port takes a list of bytes of any length (R59, R100). -/
def portWidth (p : Params) : Port → Option Nat
  | .frame => some 16
  | .opWord => some 16
  | .bldCmdsel => some 3
  | .purByte => some 8
  | .serialize => some 8
  | .setHeater => some 8
  | .clearHeater => some 8
  | .setResolution => some 10
  | .writeKeepsInvariant => some 24
  | .crcValue => none
  | .crcOk => none
  | .cvTemp => some 24
  | .cvHum => some 24
  | .judge => some (4 * p.fmt.width)

/-- A bit string fits its port: the port's width, or whole bytes (at least the checksum byte at `crcOk`), and no
bit beyond it. -/
def widthOk (p : Params) (w : PortWord) : Bool :=
  decide (w.bits < 2 ^ w.nbits) &&
    match portWidth p w.port with
    | some n => decide (w.nbits = n)
    | none => decide (w.nbits % 8 = 0) && (decide (w.port = .crcValue) || decide (8 ≤ w.nbits))

/-- The field of `n` bits whose least significant bit is bit `lo`. -/
def bitsAt (v lo n : Nat) : Nat := v / 2 ^ lo % 2 ^ n

/-- The instruction at a port whose width is right. -/
def decodeBits (p : Params) (w : PortWord) : Decoded :=
  let v := w.bits
  match w.port with
  | .frame =>
    match commandOfFrame p (BitVec.ofNat 16 v) with
    | some c => .instr (instrOfCommand c)
    | none => .reject .notAFrame
  | .opWord =>
    match instrOfOpWord (BitVec.ofNat 16 v) with
    | some i => .instr i
    | none => .reject .illegalOp
  | .bldCmdsel => if v = 7 then .reject .badCmdsel else .instr (.buildRequest (BitVec.ofNat 3 v))
  | .purByte => .instr (.parseUserRegister (BitVec.ofNat 8 v))
  | .serialize => .instr (.serializeUserRegister (parseUserRegister (BitVec.ofNat 8 v)))
  | .setHeater => .instr (.setHeater (BitVec.ofNat 8 v))
  | .clearHeater => .instr (.clearHeater (BitVec.ofNat 8 v))
  | .setResolution => .instr (.setResolution (BitVec.ofNat 8 (bitsAt v 2 8)) (BitVec.ofNat 2 (bitsAt v 0 2)))
  | .writeKeepsInvariant =>
    .instr (.writeKeepsInvariant (BitVec.ofNat 8 (bitsAt v 16 8)) (BitVec.ofNat 8 (bitsAt v 8 8))
      (BitVec.ofNat 8 (bitsAt v 0 8)))
  | .crcValue => .instr (.crc8 (bytesBE (w.nbits / 8) v))
  | .crcOk => .instr (.checkCrc (bytesBE (w.nbits / 8 - 1) (v / 256)) (BitVec.ofNat 8 v))
  | .cvTemp =>
    .instr (.toTemperature (BitVec.ofNat 8 (bitsAt v 16 8)) (BitVec.ofNat 8 (bitsAt v 8 8))
      (BitVec.ofNat 8 (bitsAt v 0 8)))
  | .cvHum =>
    .instr (.toHumidity (BitVec.ofNat 8 (bitsAt v 16 8)) (BitVec.ofNat 8 (bitsAt v 8 8))
      (BitVec.ofNat 8 (bitsAt v 0 8)))
  | .judge =>
    let n := p.fmt.width
    .instr (.judge (BitVec.ofNat 64 (bitsAt v (3 * n) n)) (BitVec.ofNat 64 (bitsAt v (2 * n) n))
      (BitVec.ofNat 64 (bitsAt v n n)) (BitVec.ofNat 64 (bitsAt v 0 n)))

/-- The decoder: total, rejecting by name. -/
def decode (p : Params) (w : PortWord) : Decoded :=
  if widthOk p w then decodeBits p w else .reject .badWidth

/-! Encoding. -/

/-- A 16-bit word at a port. -/
def word16 (port : Port) (w : BitVec 16) : PortWord := ⟨port, 16, w.toNat⟩
/-- A byte at a port. -/
def word8 (port : Port) (b : Byte) : PortWord := ⟨port, 8, b.toNat⟩
/-- Three bytes at a port, the first most significant. -/
def word24 (port : Port) (a b c : Byte) : PortWord := ⟨port, 24, (a.toNat * 256 + b.toNat) * 256 + c.toNat⟩

/-- The bits of an instruction at its port. -/
def encode (p : Params) : Instr → PortWord
  | .cmdTHold => word16 .frame (buildRequest p .tHold)
  | .cmdRhHold => word16 .frame (buildRequest p .rhHold)
  | .cmdTNohold => word16 .frame (buildRequest p .tNohold)
  | .cmdRhNohold => word16 .frame (buildRequest p .rhNohold)
  | .cmdWriteUreg => word16 .frame (buildRequest p .writeUreg)
  | .cmdReadUreg => word16 .frame (buildRequest p .readUreg)
  | .cmdSoftReset => word16 .frame (buildRequest p .softReset)
  | .readT => word16 .opWord (opWordOf .readT 0#8)
  | .readRh => word16 .opWord (opWordOf .readRh 0#8)
  | .readUreg => word16 .opWord (opWordOf .readUreg 0#8)
  | .writeUreg b => word16 .opWord (opWordOf .writeUreg b)
  | .softReset => word16 .opWord (opWordOf .softReset 0#8)
  | .selfTest => word16 .opWord (opWordOf .selfTest 0#8)
  | .buildRequest c => ⟨.bldCmdsel, 3, c.toNat⟩
  | .parseUserRegister u => word8 .purByte u
  | .serializeUserRegister r => word8 .serialize r.raw
  | .setHeater u => word8 .setHeater u
  | .clearHeater u => word8 .clearHeater u
  | .setResolution u r => ⟨.setResolution, 10, u.toNat * 4 + r.toNat⟩
  | .writeKeepsInvariant a b c => word24 .writeKeepsInvariant a b c
  | .crc8 l => ⟨.crcValue, 8 * l.length, numBE l⟩
  | .checkCrc l k => ⟨.crcOk, 8 * l.length + 8, numBE l * 256 + k.toNat⟩
  | .toTemperature b0 b1 b2 => word24 .cvTemp b0 b1 b2
  | .toHumidity b0 b1 b2 => word24 .cvHum b0 b1 b2
  | .judge a b c d =>
    ⟨.judge, 4 * p.fmt.width,
      ((a.toNat * 2 ^ p.fmt.width + b.toNat) * 2 ^ p.fmt.width + c.toNat) * 2 ^ p.fmt.width + d.toNat⟩

/-! The opcode table's numbering. -/

/-- Where a word of the opcode table arrives, given how many bits the table gives its row. A 16-bit word is a
request frame if it is one, else a host operation word; a word of 3, 8, 10 or 24 bits goes to the first row of the
table that has that width. Nothing in a word tells the rows of one width apart (R118; notes/assumptions/6.md). -/
def tablePortWord (p : Params) (nbits w : Nat) : Option PortWord :=
  match nbits with
  | 3 => some ⟨.bldCmdsel, 3, w⟩
  | 8 => some ⟨.purByte, 8, w⟩
  | 10 => some ⟨.setResolution, 10, w⟩
  | 24 => some ⟨.writeKeepsInvariant, 24, w⟩
  | 16 =>
    if (commandOfFrame p (BitVec.ofNat 16 w)).isSome then some ⟨.frame, 16, w⟩ else some ⟨.opWord, 16, w⟩
  | _ => none

/-- The instruction the decoder reads from a word numbered as the opcode table numbers it, under the default
parameters. -/
def decodeTableWord (nbits w : Nat) : Option Instr :=
  match tablePortWord Config.params nbits w with
  | none => none
  | some pw =>
    match decode Config.params pw with
    | .instr i => some i
    | .reject _ => none

end Sys2Proof
end

