-- ==== Sys2Proof/Machine/State.lean ====
section
/-! DEFINITION. The state of the machine (10_state.md R30 to R44), the transport history (43_orchestrator.md
R221), the inputs of the two outside agents (R29), the reasons a step can stop, and the state after reset
(70_reset_and_hazards.md R340). Everything is plain data. -/

namespace Sys2Proof.Machine

/-- ErrorKind (60_exceptions.md R300). -/
inductive ErrorKind where
  | noneErr
  | timeout
  | checksumMismatch
  | transportAckFailure
  | selfTestFailed
deriving DecidableEq, Repr

/-- The error value of a failed transport call. `other` is any error value outside R301; XPORT breaks its
contract by answering it. -/
inductive TransportError where
  | timeout
  | ackFailure
  | other (n : Nat)
deriving DecidableEq, Repr

/-- What XPORT answers to a call (R12, R320): `ok` to a Transmit, `bytes` to a Receive, `delayed` when a Delay
returns, `err` to a Transmit or a Receive that failed. -/
inductive Answer where
  | ok
  | bytes (l : List Byte)
  | delayed
  | err (e : TransportError)
deriving DecidableEq, Repr

/-- An event of the transport history (R221, R340). The answer stands as XPORT gave it. -/
inductive Event where
  | tx (frame : BitVec 16) (payload : List Byte) (result : Answer)
  | rx (addr : BitVec 7) (n : Nat) (result : Answer)
  | dly (ms : Nat)
  | rst
deriving DecidableEq, Repr

/-- The reason kept with the mark `FAULT` (R310). -/
inductive FaultReason where
  | readUnwritten
  | startWhileBusy
  | shortRx
  | xportContract
deriving DecidableEq, Repr

/-- The reason kept with the mark `REFUSED` (R311). -/
inductive RefuseReason where
  | illegalOp
  | badCmdsel
deriving DecidableEq, Repr

/-- The host's output ports of the core's registers (R59). -/
inductive OutPort where
  | busy
  | done
  | resErr
  | resVal
  | resUreg
deriving DecidableEq, Repr

/-- The pseudo-instructions of the host's syntax (R119). -/
inductive Pseudo where
  | heaterOn
  | heaterOff
  | setRes (r : BitVec 2)
deriving DecidableEq, Repr

/-- What a port shows when the host uses it (R59). `cv none` is `cv_ok = 0`, where no value is returned. -/
inductive PortOut where
  | bldFrame (f : BitVec 16)
  | pur (r : UserRegister)
  | byte (b : Byte)
  | flag (b : Bool)
  | crcValue (v : Byte)
  | crcOk (ok : Bool)
  | cv (v : Option FBits)
  | busy (b : Bool)
  | done (b : Bool)
  | resErr (code : BitVec 3)
  | resVal (v : FBits)
  | resUreg (u : Byte)
deriving DecidableEq, Repr

/-- One act of an outside agent. The order of the list that holds them is the order in which HOST and XPORT act
(notes/assumptions/5.md). -/
inductive Input where
  /-- HOST puts bits on a port; at `op_word` together with `start` (R223). -/
  | drive (w : PortWord)
  /-- HOST reads an output port (R241). -/
  | read (p : OutPort)
  /-- The `rst` event (R340). -/
  | rst
  /-- HOST goes on with a pseudo-instruction whose READ_UREG has finished (R119). -/
  | pseudoWrite (p : Pseudo)
  /-- XPORT answers the call of the running micro-step (R320). -/
  | answer (a : Answer)
deriving DecidableEq, Repr

/-- Why the machine makes no further step. -/
inductive Fault where
  /-- `FAULT` is set: CORE has no step and no start is allowed (R44, R223). Raised by a start, a CORE step and by
  an empty input list while the mark stands. Safe. -/
  | halted (r : FaultReason)
  /-- XPORT never answers the call of the running micro-step (R312). Raised when an operation runs and the input
  list is empty. Safe. -/
  | stuck
  /-- `STEP` names no micro-step of `PROG(OP)`. No state that a step reaches from reset has it (R32). Safe. -/
  | noMicroStep
deriving DecidableEq, Repr

/-- What the model has no meaning for. -/
inductive Refusal where
  /-- An arm of exec without a meaning. No arm is. Safe. -/
  | notModelled (mnemonic : String)
  /-- A 16-bit word that is not a frame of this core; R109 item 2 forbids giving it a meaning. Raised by step.
  Safe. -/
  | notAFrame
  /-- A bit string whose width is not its port's. Raised by step. Safe. -/
  | badWidth
deriving DecidableEq, Repr

end Sys2Proof.Machine

namespace Sys2Proof.Machine

/-- The machine's state. `none` in a register of R30 is `⊥`, the spec's own "unwritten" (R11). -/
structure State where
  /-- `OP`; `none` is `NONE` (R31). -/
  op : Option HostOp
  /-- `STEP`, the micro-step index (R32). -/
  stepIx : BitVec 5
  /-- `BUSY` (R33). -/
  busy : Bool
  /-- `DONE` (R34). -/
  done : Bool
  /-- `RES_ERR` (R35). -/
  resErr : Option ErrorKind
  /-- `RES_VAL` (R36). -/
  resVal : Option FBits
  /-- `RES_UREG` (R37). -/
  resUreg : Option Byte
  /-- `WPAYLOAD` (R38). -/
  wpayload : Option Byte
  /-- `T_START` (R39). -/
  tStart : Option FBits
  /-- `H_START` (R39). -/
  hStart : Option FBits
  /-- `T_AFTER` (R39). -/
  tAfter : Option FBits
  /-- `H_AFTER` (R39). -/
  hAfter : Option FBits
  /-- `UREG_BASE` (R40). -/
  uregBase : Option Byte
  /-- `VERDICT`; true is Pass (R41). -/
  verdict : Option Bool
  /-- `PEND_ERR` (R42). -/
  pendErr : Option ErrorKind
  /-- `FAULT` with its reason; `none` is 0 (R44). -/
  faultMark : Option FaultReason
  /-- `REFUSED` with its reason; `none` is 0 (R44). -/
  refusedMark : Option RefuseReason
  /-- `HIST`, oldest event first (R221). -/
  hist : List Event
  /-- The parameters of the run, changed by no step (R43, R344). -/
  params : Params
  /-- The model's own: the acts of HOST and XPORT still to come, in order. -/
  inputs : List Input
  /-- The model's own: XPORT's answer on the transport port in this step; `none` in a step of the host. -/
  xans : Option Answer
  /-- The model's own: what the host's last port access showed. -/
  portOut : Option PortOut
deriving DecidableEq, Repr

/-- The machine right after power-on reset (R340): every register at the reset column of R30, `HIST` empty, the
parameters at their defaults and no input given yet. -/
def State.reset : State where
  op := none
  stepIx := 0#5
  busy := false
  done := false
  resErr := none
  resVal := none
  resUreg := none
  wpayload := none
  tStart := none
  hStart := none
  tAfter := none
  hAfter := none
  uregBase := none
  verdict := none
  pendErr := none
  faultMark := none
  refusedMark := none
  hist := []
  params := Config.params
  inputs := []
  xans := none
  portOut := none

end Sys2Proof.Machine
end

