-- ==== Sys2Proof/Machine/Ops.lean ====
section
/-! DEFINITION. The shared operations of the machine: the model's marks (60_exceptions.md R310, R311), start and
finish (43_orchestrator.md R223, R224), the three transport calls with their history events (R221, R225; R12), the
measurement and user-register sequences (R226), reset (70_reset_and_hazards.md R340), the host's port reads (R241),
and the run of a micro-program (R221). `finish` is error entry, which takes the place of trap entry, and the return
to the host (R306, R307). -/

namespace Sys2Proof.Machine

abbrev Outcome := Host.Outcome State Fault Refusal

/-! ## Codes -/

/-- The 3-bit code of an ErrorKind on `res_err` (R300). -/
def ErrorKind.code : ErrorKind → BitVec 3
  | .noneErr => 0#3
  | .timeout => 1#3
  | .checksumMismatch => 2#3
  | .transportAckFailure => 3#3
  | .selfTestFailed => 4#3

/-- The ErrorKind a transport error is passed on as; `none` for a value outside R301. -/
def TransportError.kind : TransportError → Option ErrorKind
  | .timeout => some .timeout
  | .ackFailure => some .transportAckFailure
  | .other _ => none

/-! ## Marks (R310, R311) -/

/-- `FAULT <- 1` with a reason; nothing else is written (R310). -/
def State.setFault (r : FaultReason) (s : State) : State := { s with faultMark := some r }

/-- `REFUSED <- 1` with a reason; nothing else is written (R311). -/
def State.refuse (r : RefuseReason) (s : State) : State := { s with refusedMark := some r }

/-- What a port shows the host (R59). -/
def State.present (v : PortOut) (s : State) : State := { s with portOut := some v }

/-- A rule's read of a register: `READ_UNWRITTEN` if it is `⊥` (R11, R310). -/
def readReg {α : Type} (r : Option α) (k : α → State) (s : State) : State :=
  match r with
  | some v => k v
  | none => s.setFault .readUnwritten

/-! ## Start and finish -/

/-- `STEP <- n` (R13). -/
def State.goto (n : BitVec 5) (s : State) : State := { s with stepIx := n }

/-- `finish(err)` (R224): the result code, and the core idle and done. -/
def State.finish (e : ErrorKind) (s : State) : State :=
  { s with resErr := some e, busy := false, done := true, op := none, stepIx := 0#5 }

/-- The writes of an allowed start (R223): `OP`, `STEP`, `BUSY`, `DONE`, the result registers and `WPAYLOAD`. -/
def State.begin (o : HostOp) (payload : Option Byte) (s : State) : State :=
  { s with
    op := some o, stepIx := 0#5, busy := true, done := false
    resErr := none, resVal := none, resUreg := none, wpayload := payload }

/-- The writes a start of SELF_TEST adds (R223): its scratch registers to `⊥`. -/
def State.clearScratch (s : State) : State :=
  { s with
    tStart := none, hStart := none, tAfter := none, hAfter := none
    uregBase := none, verdict := none, pendErr := none }

/-- `start(w)` for a legal word of operation `o` (R223): allowed only when `FAULT == 0`; `START_WHILE_BUSY` when
`BUSY == 1`; else the writes `wr`. -/
def startOp (wr : State → State) (s : State) : Outcome :=
  match s.faultMark with
  | some r => .fault (.halted r)
  | none => if s.busy then .next (s.setFault .startWhileBusy) else .next (wr s)

/-- `start(w)` for an illegal word (R223, R117): `START_WHILE_BUSY` is tested first, then the word is refused. -/
def startIllegal (s : State) : Outcome :=
  match s.faultMark with
  | some r => .fault (.halted r)
  | none => if s.busy then .next (s.setFault .startWhileBusy) else .next (s.refuse .illegalOp)

/-! ## Transport calls -/

/-- A call and its answer join the history (R221 item 3). -/
def State.record (e : Event) (s : State) : State := { s with hist := s.hist ++ [e] }

/-- What a failed call does next: the rule for `Err(e)`, or `XPORT_CONTRACT` for an error outside R301. -/
def onTransportErr (e : TransportError) (kErr : ErrorKind → State → State) (s : State) : State :=
  match e.kind with
  | some k => kErr k s
  | none => s.setFault .xportContract

/-- `Transmit(frame16, payload)` and the rule for its answer (R12, R221). An answer of another shape breaks the
contract (R310). -/
def transmit (frame : BitVec 16) (payload : List Byte) (a : Answer) (kOk : State → State)
    (kErr : ErrorKind → State → State) (s : State) : State :=
  let s1 := s.record (.tx frame payload a)
  match a with
  | .ok => kOk s1
  | .err e => onTransportErr e kErr s1
  | .bytes _ => s1.setFault .xportContract
  | .delayed => s1.setFault .xportContract

/-- `Receive(DEV_ADDR, n)` and the rule for its answer (R74, R221). `Ok` with another count of bytes faults
`SHORT_RX` (R78, R314). -/
def receive (n : Nat) (a : Answer) (kOk : List Byte → State → State) (kErr : ErrorKind → State → State)
    (s : State) : State :=
  let s1 := s.record (.rx Config.devAddr n a)
  match a with
  | .bytes l => if l.length = n then kOk l s1 else s1.setFault .shortRx
  | .err e => onTransportErr e kErr s1
  | .ok => s1.setFault .xportContract
  | .delayed => s1.setFault .xportContract

/-- `Delay(ms)`, which cannot fail (R12, R301). -/
def delay (ms : Nat) (a : Answer) (kOk : State → State) (s : State) : State :=
  let s1 := s.record (.dly ms)
  match a with
  | .delayed => kOk s1
  | .ok => s1.setFault .xportContract
  | .bytes _ => s1.setFault .xportContract
  | .err _ => s1.setFault .xportContract

/-! ## Sequences (R226) -/

/-- The command of a measurement (R226). -/
def measCommand : MeasKind → Command
  | .temp => .tHold
  | .hum => .rhHold

/-- The settling delay of a measurement (R227). -/
def settleMs : MeasKind → Nat
  | .temp => Config.tSettleMs
  | .hum => Config.rhSettleMs

/-- The transmit of a command without payload. -/
def txCommand (c : Command) (a : Answer) (kOk : State → State) (kErr : ErrorKind → State → State) (s : State) :
    State :=
  transmit (buildRequest s.params c) [] a kOk kErr s

/-- `MEAS(kind, s)`, micro-step s. -/
def measTx (k : MeasKind) (a : Answer) (next : BitVec 5) (kErr : ErrorKind → State → State) (s : State) : State :=
  txCommand (measCommand k) a (State.goto next) kErr s

/-- `MEAS(kind, s)`, micro-step s+1. -/
def measDelay (k : MeasKind) (a : Answer) (next : BitVec 5) (s : State) : State :=
  delay (settleMs k) a (State.goto next) s

/-- The converter on the three bytes of a reading; a checksum mismatch is the rule for `Err`. The last case is a
list whose length the receive has already refused. -/
def onReading (k : MeasKind) (kVal : FBits → State → State) (kErr : ErrorKind → State → State) (l : List Byte)
    (s : State) : State :=
  match l with
  | [b0, b1, b2] =>
    match convert k s.params.numEval b0 b1 b2 with
    | some v => kVal v s
    | none => kErr .checksumMismatch s
  | _ => s.setFault .shortRx

/-- `MEAS(kind, s)`, micro-step s+2: the receive and the converter. -/
def measRx (k : MeasKind) (a : Answer) (kVal : FBits → State → State) (kErr : ErrorKind → State → State)
    (s : State) : State :=
  receive Config.measRxBytes a (onReading k kVal kErr) kErr s

/-- The rule for the one byte of a user-register read. The last case is a list whose length the receive has
already refused. -/
def onUregByte (kByte : Byte → State → State) (l : List Byte) (s : State) : State :=
  match l with
  | [u] => kByte u s
  | _ => s.setFault .shortRx

/-- `UREAD(s)`, micro-step s. -/
def ureadTx (a : Answer) (next : BitVec 5) (kErr : ErrorKind → State → State) (s : State) : State :=
  txCommand .readUreg a (State.goto next) kErr s

/-- `UREAD(s)`, micro-step s+1. -/
def ureadRx (a : Answer) (kByte : Byte → State → State) (kErr : ErrorKind → State → State) (s : State) : State :=
  receive Config.uregRxBytes a (onUregByte kByte) kErr s

/-- `UWRITE(s, p)`. -/
def uwrite (p : Byte) (a : Answer) (kOk : State → State) (kErr : ErrorKind → State → State) (s : State) : State :=
  transmit (buildRequest s.params .writeUreg) [p] a kOk kErr s

/-! ## Micro-programs -/

/-- The rule of one micro-step, applied to XPORT's answer. -/
abbrev Micro := Answer → State → State

/-- The answer port is free again. -/
def State.clearAnswer (s : State) : State := { s with xans := none }

/-- One CORE step of operation `o` (R221): not while `FAULT == 1`; its micro-step's rule while `o` runs. An answer
while `o` does not run is an answer to a call not made (R310). -/
def runMicro (o : HostOp) (prog : Nat → Option Micro) (a : Answer) (s : State) : Outcome :=
  match s.faultMark with
  | some r => .fault (.halted r)
  | none =>
    if s.busy = true ∧ s.op = some o then
      match prog s.stepIx.toNat with
      | some rule => .next (rule a s.clearAnswer)
      | none => .fault .noMicroStep
    else .next (s.clearAnswer.setFault .xportContract)

/-- A host operation: `start` in a step of the host, one micro-step in a step in which XPORT answers. -/
def hostOperation (o : HostOp) (wr : State → State) (prog : Nat → Option Micro) (s : State) : Outcome :=
  match s.xans with
  | none => startOp wr s
  | some a => runMicro o prog a s

/-! ## Reset -/

/-- The `rst` event (R340): every register to its reset value, `RST` joins the history, the parameters and the
inputs still to come stay (R344). -/
def State.rstEvent (s : State) : State :=
  { State.reset with hist := s.hist ++ [.rst], params := s.params, inputs := s.inputs }

/-! ## The host's ports -/

/-- A result register as its port shows it: `⊥` while `BUSY == 1` (R241). -/
def State.visible {α : Type} (s : State) (r : Option α) : Option α := if s.busy then none else r

/-- The host reads an output port (R59, R241): `READ_UNWRITTEN` if a result register shows `⊥`. -/
def readPort (p : OutPort) (s : State) : State :=
  match p with
  | .busy => s.present (.busy s.busy)
  | .done => s.present (.done s.done)
  | .resErr => readReg (s.visible s.resErr) (fun e => s.present (.resErr e.code)) s
  | .resVal => readReg (s.visible s.resVal) (fun v => s.present (.resVal v)) s
  | .resUreg => readReg (s.visible s.resUreg) (fun u => s.present (.resUreg u)) s

/-- The payload a pseudo-instruction writes, from the byte read (R119). -/
def Pseudo.payload (p : Pseudo) (u : Byte) : Byte :=
  match p with
  | .heaterOn => u ||| 0x04#8
  | .heaterOff => u &&& 0xFB#8
  | .setRes r => setResolution u r

/-- The fields a pseudo-instruction changes intentionally (R119, R155). -/
def Pseudo.changed : Pseudo → Byte
  | .heaterOn => 0x04#8
  | .heaterOff => 0x04#8
  | .setRes _ => 0x81#8

/-- The second half of a pseudo-instruction (R119): the host computes the payload from `RES_UREG` and will start
WRITE_UREG next; if the read finished with an error (`RES_UREG` is `⊥`), the write is not issued. -/
def pseudoWrite (p : Pseudo) (s : State) : State :=
  match s.visible s.resUreg with
  | some u => { s with inputs := .drive (word16 .opWord (opWordOf .writeUreg (p.payload u))) :: s.inputs }
  | none => s

/-! ## Fetch -/

/-- The step in which no input is left: CORE waits for XPORT (stuck, R312), has no step (R44), or is idle and
nothing changes (R325). -/
def quiesce (s : State) : Outcome :=
  match s.faultMark with
  | some r => .fault (.halted r)
  | none => if s.busy then .fault .stuck else .next s

/-- The state in which a step of the host runs: its input is taken. -/
def State.takeHost (rest : List Input) (s : State) : State := { s with inputs := rest, xans := none }

/-- The state in which a step of CORE runs: XPORT's answer is taken to the transport port. -/
def State.takeAnswer (a : Answer) (rest : List Input) (s : State) : State := { s with inputs := rest, xans := some a }

/-- The instruction that runs, from `OP` and `WPAYLOAD` (R31, R38); none when the core is idle. -/
def runningInstr (s : State) : Option Instr :=
  match s.op with
  | some o => some (instrOfHostOp o (s.wpayload.getD 0#8))
  | none => none

/-- XPORT answers although no operation runs: an answer to a call not made (R310). -/
def unaskedAnswer (s : State) : Outcome :=
  match s.faultMark with
  | some r => .fault (.halted r)
  | none => .next (s.clearAnswer.setFault .xportContract)

/-- A bit string that is no instruction (R311, R109 item 2). -/
def rejectWord (r : Reject) (s : State) : Outcome :=
  match r with
  | .illegalOp => startIllegal s
  | .badCmdsel => .next (s.refuse .badCmdsel)
  | .notAFrame => .refused .notAFrame
  | .badWidth => .refused .badWidth

end Sys2Proof.Machine
end

