-- ==== Sys2Proof/Machine/Commands.lean ====
section
/-! DEFINITION. The seven sensor commands (40_frame_codec.md R142 to R148) and buildRequest on a selector (R141):
each shows a request frame on `bld_frame` and writes no register. -/

namespace Sys2Proof.Machine

/-- The frame of a command on `bld_frame` (R141). -/
def showFrame (c : Command) (s : State) : Outcome := .next (s.present (.bldFrame (buildRequest s.params c)))

/-- CMD_T_HOLD (R142). -/
def execCmdTHold (s : State) : Outcome := showFrame .tHold s
/-- CMD_RH_HOLD (R143). -/
def execCmdRhHold (s : State) : Outcome := showFrame .rhHold s
/-- CMD_T_NOHOLD (R144). -/
def execCmdTNohold (s : State) : Outcome := showFrame .tNohold s
/-- CMD_RH_NOHOLD (R145). -/
def execCmdRhNohold (s : State) : Outcome := showFrame .rhNohold s
/-- CMD_WRITE_UREG (R146). -/
def execCmdWriteUreg (s : State) : Outcome := showFrame .writeUreg s
/-- CMD_READ_UREG (R147). -/
def execCmdReadUreg (s : State) : Outcome := showFrame .readUreg s
/-- CMD_SOFT_RESET (R148). -/
def execCmdSoftReset (s : State) : Outcome := showFrame .softReset s

/-- buildRequest on the `bld_cmdsel` port (R141); a selector of 7 is refused `BAD_CMDSEL` (R105). -/
def execBuildRequest (c : BitVec 3) (s : State) : Outcome :=
  match Command.ofSel c with
  | some cmd => showFrame cmd s
  | none => .next (s.refuse .badCmdsel)

end Sys2Proof.Machine
end

