-- ==== Sys2Proof/Machine/Datapath.lean ====
section
/-! DEFINITION. The datapath functions other than buildRequest: user register (40_frame_codec.md R150 to R155),
checksum (41_checksum.md R171, R172), converters (42_converter.md R193, R196) and judge (44_self_test.md R266).
Each is combinational: it shows its result and writes no register (R59, R321 liberty 3). -/

namespace Sys2Proof.Machine

/-- parseUserRegister on the `pur_*` port (R150). -/
def execParseUserRegister (u : Byte) (s : State) : Outcome := .next (s.present (.pur (parseUserRegister u)))

/-- serializeUserRegister (R151). -/
def execSerializeUserRegister (r : UserRegister) (s : State) : Outcome :=
  .next (s.present (.byte (serializeUserRegister r)))

/-- setHeater (R152). -/
def execSetHeater (u : Byte) (s : State) : Outcome := .next (s.present (.byte (setHeater u)))

/-- clearHeater (R153). -/
def execClearHeater (u : Byte) (s : State) : Outcome := .next (s.present (.byte (clearHeater u)))

/-- setResolution (R154). -/
def execSetResolution (u : Byte) (r : BitVec 2) (s : State) : Outcome :=
  .next (s.present (.byte (setResolution u r)))

/-- writeKeepsInvariant (R155). -/
def execWriteKeepsInvariant (read written changed : Byte) (s : State) : Outcome :=
  .next (s.present (.flag (writeKeepsInvariant read written changed)))

/-- crc8 on the `crc_*` port, output `crc_value` (R171). -/
def execCrc8 (data : List Byte) (s : State) : Outcome := .next (s.present (.crcValue (crc8 data)))

/-- checkCrc on the `crc_*` port, output `crc_ok` (R172). -/
def execCheckCrc (data : List Byte) (check : Byte) (s : State) : Outcome :=
  .next (s.present (.crcOk (checkCrc data check)))

/-- toTemperature on the `cv_*` port, kind T (R193). -/
def execToTemperature (b0 b1 b2 : Byte) (s : State) : Outcome :=
  .next (s.present (.cv (toTemperature s.params.numEval b0 b1 b2)))

/-- toHumidity on the `cv_*` port, kind RH (R196). -/
def execToHumidity (b0 b1 b2 : Byte) (s : State) : Outcome :=
  .next (s.present (.cv (toHumidity s.params.numEval b0 b1 b2)))

/-- judge (R266). -/
def execJudge (t0 h0 t1 h1 : FBits) (s : State) : Outcome := .next (s.present (.flag (judge s.params t0 h0 t1 h1)))

end Sys2Proof.Machine
end

