-- ==== Sys2Proof/Machine/Orchestrator.lean ====
section
/-! DEFINITION. The transaction orchestrator: the micro-programs and the meanings of READ_T, READ_RH, READ_UREG,
WRITE_UREG and SOFT_RESET (43_orchestrator.md R220 to R238). Every `Err(e)` ends the operation with `finish(e)`
(R222). -/

namespace Sys2Proof.Machine

/-- The rule for a converted value: `RES_VAL <- v; finish(NONE_ERR)` (R230, R231). -/
def storeValue (v : FBits) (s : State) : State := { s with resVal := some v }.finish .noneErr

/-- The rule for a user-register byte: `RES_UREG <- u; finish(NONE_ERR)` (R233). -/
def storeUreg (u : Byte) (s : State) : State := { s with resUreg := some u }.finish .noneErr

/-- `PROG(READ_T)` (R225). -/
def progReadT (n : Nat) : Option Micro :=
  match n with
  | 0 => some fun a => measTx .temp a 1#5 State.finish
  | 1 => some fun a => measDelay .temp a 2#5
  | 2 => some fun a => measRx .temp a storeValue State.finish
  | _ => none

/-- `PROG(READ_RH)` (R225). -/
def progReadRh (n : Nat) : Option Micro :=
  match n with
  | 0 => some fun a => measTx .hum a 1#5 State.finish
  | 1 => some fun a => measDelay .hum a 2#5
  | 2 => some fun a => measRx .hum a storeValue State.finish
  | _ => none

/-- `PROG(READ_UREG)` (R225). -/
def progReadUreg (n : Nat) : Option Micro :=
  match n with
  | 0 => some fun a => ureadTx a 1#5 State.finish
  | 1 => some fun a => ureadRx a storeUreg State.finish
  | _ => none

/-- `PROG(WRITE_UREG)` (R225): the payload is `WPAYLOAD`, as given (R38, R236). -/
def progWriteUreg (n : Nat) : Option Micro :=
  match n with
  | 0 => some fun a s => readReg s.wpayload (fun p => uwrite p a (State.finish .noneErr) State.finish s) s
  | _ => none

/-- `PROG(SOFT_RESET)` (R225): transmit only, no receive and no wait (R238). -/
def progSoftReset (n : Nat) : Option Micro :=
  match n with
  | 0 => some fun a => txCommand .softReset a (State.finish .noneErr) State.finish
  | _ => none

/-- READ_T (R230). -/
def execReadT (s : State) : Outcome := hostOperation .readT (State.begin .readT none) progReadT s

/-- READ_RH (R231). -/
def execReadRh (s : State) : Outcome := hostOperation .readRh (State.begin .readRh none) progReadRh s

/-- READ_UREG (R233). -/
def execReadUreg (s : State) : Outcome := hostOperation .readUreg (State.begin .readUreg none) progReadUreg s

/-- WRITE_UREG p (R236): `start` latches the operand; the micro-step sends the latched byte. -/
def execWriteUreg (imm8 : Byte) (s : State) : Outcome :=
  hostOperation .writeUreg (State.begin .writeUreg (some imm8)) progWriteUreg s

/-- SOFT_RESET (R238): it resets the sensor, not the core (R343). -/
def execSoftReset (s : State) : Outcome := hostOperation .softReset (State.begin .softReset none) progSoftReset s

end Sys2Proof.Machine
end

