-- ==== Sys2Proof/Machine/SelfTest.lean ====
section
/-! DEFINITION. The self-test controller: the micro-program of SELF_TEST, its verdict, its abort and its cleanup
(44_self_test.md R260 to R274). -/

namespace Sys2Proof.Machine

/-- `abort(e)`, for an error at micro-steps 0 to 15 (R270). -/
def abort (e : ErrorKind) (s : State) : State :=
  if s.params.cleanupOnAbort = true ∧ 8 ≤ s.stepIx.toNat then { s with pendErr := some e }.goto 16#5
  else s.finish e

/-- `cleanup-err(e)`, for an error at micro-steps 16 to 18 (R271). -/
def cleanupErr (e : ErrorKind) (s : State) : State :=
  readReg s.pendErr
    (fun p => if s.params.cleanupErrorReported = true ∧ p = .noneErr then s.finish e else s.finish p) s

/-- `T_START <- t`, on to micro-step 3. -/
def storeTStart (v : FBits) (s : State) : State := { s with tStart := some v }.goto 3#5
/-- `H_START <- h`, on to micro-step 6. -/
def storeHStart (v : FBits) (s : State) : State := { s with hStart := some v }.goto 6#5
/-- `T_AFTER <- t`, on to micro-step 13. -/
def storeTAfter (v : FBits) (s : State) : State := { s with tAfter := some v }.goto 13#5
/-- `UREG_BASE <- u`, on to the next micro-step (R263, R268). -/
def storeBase (next : BitVec 5) (u : Byte) (s : State) : State := { s with uregBase := some u }.goto next

/-- `VERDICT` and `PEND_ERR` from the judge, on to cleanup (R267). -/
def takeVerdict (pass : Bool) (s : State) : State :=
  { s with verdict := some pass, pendErr := some (if pass then .noneErr else .selfTestFailed) }.goto 16#5

/-- `H_AFTER <- h`, then `judge(T_START, H_START, T_AFTER, H_AFTER)` and the verdict (R266, R267). -/
def storeHAfter (v : FBits) (s : State) : State :=
  let s1 := { s with hAfter := some v }
  readReg s1.tStart (fun t0 => readReg s1.hStart (fun h0 => readReg s1.tAfter
    (fun t1 => takeVerdict (judge s1.params t0 h0 t1 v) s1) s1) s1) s1

/-- `PROG(SELF_TEST)`, the 19 micro-steps of R261. -/
def progSelfTest (n : Nat) : Option Micro :=
  match n with
  -- Baseline (R262)
  | 0 => some fun a => measTx .temp a 1#5 abort
  | 1 => some fun a => measDelay .temp a 2#5
  | 2 => some fun a => measRx .temp a storeTStart abort
  | 3 => some fun a => measTx .hum a 4#5 abort
  | 4 => some fun a => measDelay .hum a 5#5
  | 5 => some fun a => measRx .hum a storeHStart abort
  -- HeaterOn (R263, R264)
  | 6 => some fun a => ureadTx a 7#5 abort
  | 7 => some fun a => ureadRx a (storeBase 8#5) abort
  | 8 => some fun a s => readReg s.uregBase (fun u => uwrite (setHeater u) a (State.goto 9#5) abort s) s
  -- Settling (R265)
  | 9 => some fun a => delay Config.stSettleMs a (State.goto 10#5)
  -- Recheck (R266)
  | 10 => some fun a => measTx .temp a 11#5 abort
  | 11 => some fun a => measDelay .temp a 12#5
  | 12 => some fun a => measRx .temp a storeTAfter abort
  | 13 => some fun a => measTx .hum a 14#5 abort
  | 14 => some fun a => measDelay .hum a 15#5
  | 15 => some fun a => measRx .hum a storeHAfter abort
  -- Cleanup (R268, R269)
  | 16 => some fun a => ureadTx a 17#5 cleanupErr
  | 17 => some fun a => ureadRx a (storeBase 18#5) cleanupErr
  | 18 => some fun a s => readReg s.uregBase (fun u => uwrite (clearHeater u) a
      (fun s1 => readReg s1.pendErr (fun e => s1.finish e) s1) cleanupErr s) s
  | _ => none

/-- SELF_TEST (R260): a start clears its scratch registers as well (R223). -/
def execSelfTest (s : State) : Outcome :=
  hostOperation .selfTest (fun s1 => (s1.begin .selfTest none).clearScratch) progSelfTest s

/-- `PROG(OP)[n]` (R221), over all six operations. -/
def prog (o : HostOp) (n : Nat) : Option Micro :=
  match o with
  | .readT => progReadT n
  | .readRh => progReadRh n
  | .readUreg => progReadUreg n
  | .writeUreg => progWriteUreg n
  | .softReset => progSoftReset n
  | .selfTest => progSelfTest n

/-- The source's named states (R272). -/
inductive Phase where
  | baseline
  | heaterOn
  | settling
  | recheck
  | cleanup
deriving DecidableEq, Repr

/-- The state of the source a micro-step of SELF_TEST belongs to (R272). -/
def phaseOf (n : Nat) : Option Phase :=
  if n ≤ 5 then some .baseline
  else if n ≤ 8 then some .heaterOn
  else if n = 9 then some .settling
  else if n ≤ 15 then some .recheck
  else if n ≤ 18 then some .cleanup
  else none

end Sys2Proof.Machine
end

