-- ==== Sys2Proof/Machine/Dispatch.lean ====
section
/-! DEFINITION. The dispatch: one arm per constructor of Instr, each a direct call of its meaning. -/

namespace Sys2Proof.Machine

def exec (i : Instr) (s : State) : Host.Outcome State Fault Refusal :=
  match i with
  | .cmdTHold => Sys2Proof.Machine.execCmdTHold s
  | .cmdRhHold => Sys2Proof.Machine.execCmdRhHold s
  | .cmdTNohold => Sys2Proof.Machine.execCmdTNohold s
  | .cmdRhNohold => Sys2Proof.Machine.execCmdRhNohold s
  | .cmdWriteUreg => Sys2Proof.Machine.execCmdWriteUreg s
  | .cmdReadUreg => Sys2Proof.Machine.execCmdReadUreg s
  | .cmdSoftReset => Sys2Proof.Machine.execCmdSoftReset s
  | .readT => Sys2Proof.Machine.execReadT s
  | .readRh => Sys2Proof.Machine.execReadRh s
  | .readUreg => Sys2Proof.Machine.execReadUreg s
  | .writeUreg imm8 => Sys2Proof.Machine.execWriteUreg imm8 s
  | .softReset => Sys2Proof.Machine.execSoftReset s
  | .selfTest => Sys2Proof.Machine.execSelfTest s
  | .buildRequest c => Sys2Proof.Machine.execBuildRequest c s
  | .parseUserRegister u => Sys2Proof.Machine.execParseUserRegister u s
  | .serializeUserRegister r => Sys2Proof.Machine.execSerializeUserRegister r s
  | .setHeater u => Sys2Proof.Machine.execSetHeater u s
  | .clearHeater u => Sys2Proof.Machine.execClearHeater u s
  | .setResolution u r => Sys2Proof.Machine.execSetResolution u r s
  | .writeKeepsInvariant a b c => Sys2Proof.Machine.execWriteKeepsInvariant a b c s
  | .crc8 data => Sys2Proof.Machine.execCrc8 data s
  | .checkCrc data check => Sys2Proof.Machine.execCheckCrc data check s
  | .toTemperature b0 b1 b2 => Sys2Proof.Machine.execToTemperature b0 b1 b2 s
  | .toHumidity b0 b1 b2 => Sys2Proof.Machine.execToHumidity b0 b1 b2 s
  | .judge t0 h0 t1 h1 => Sys2Proof.Machine.execJudge t0 h0 t1 h1 s

end Sys2Proof.Machine
end

