-- ==== Sys2Proof/Machine/Step.lean ====
section
/-! DEFINITION. One step of the machine: the next act of HOST or XPORT is taken from the inputs, and the core
reacts to it (10_state.md R29; 43_orchestrator.md R221, R223). -/

namespace Sys2Proof.Machine

/-- Run what the decoder reads from a bit string: an instruction, or its rejection by name. -/
def runDecoded (d : Decoded) (s : State) : Host.Outcome State Fault Refusal :=
  match d with
  | .instr i => exec i s
  | .reject r => rejectWord r s

/-- One step. A bit string at a port is decoded and executed; an answer of XPORT goes to the micro-step of the
running operation; the host's reads and `rst` act at once. -/
def step (s : State) : Host.Outcome State Fault Refusal :=
  match s.inputs with
  | [] => quiesce s
  | .drive w :: rest => runDecoded (decode s.params w) (s.takeHost rest)
  | .read p :: rest => .next (readPort p (s.takeHost rest))
  | .rst :: rest => .next (s.takeHost rest).rstEvent
  | .pseudoWrite p :: rest => .next (pseudoWrite p (s.takeHost rest))
  | .answer a :: rest =>
    match runningInstr s with
    | some i => exec i (s.takeAnswer a rest)
    | none => unaskedAnswer (s.takeHost rest)

/-- The state whose next step runs the word `w` of the opcode table: the host drives it on the port it belongs to,
before anything else. -/
def State.withFetchWord (s : State) (nbits w : Nat) : State :=
  match tablePortWord s.params nbits w with
  | some pw => { s with inputs := .drive pw :: s.inputs }
  | none => s

end Sys2Proof.Machine
end

