-- ==== Sys2Proof/Machine/Asm.lean ====
section
/-! DEFINITION. The host's syntax (30_encoding.md R119): one operation or pseudo-instruction a line, and the acts of
the host a line stands for. -/

namespace Sys2Proof.Machine

/-- A line of the host's syntax; `imm8` is 0 for every operation but WRITE_UREG. -/
inductive AsmLine where
  | host (o : HostOp) (imm8 : Byte)
  | pseudo (p : Pseudo)
deriving DecidableEq, Repr

/-- Split at spaces, dropping empty words. `acc` holds the word being read, last letter first. -/
def asmWords : List Char → List Char → List (List Char)
  | acc, [] => if acc = [] then [] else [acc.reverse]
  | acc, c :: cs => if c = ' ' then (if acc = [] then asmWords [] cs else acc.reverse :: asmWords [] cs)
    else asmWords (c :: acc) cs

/-- The value of a digit, if it is one of base `b`. -/
def digitOf (b : Nat) (c : Char) : Option Nat :=
  let n := c.toNat
  let v := if 48 ≤ n ∧ n ≤ 57 then n - 48 else if 65 ≤ n ∧ n ≤ 70 then n - 55
    else if 97 ≤ n ∧ n ≤ 102 then n - 87 else b
  if v < b then some v else none

/-- The number of a string of digits of base `b`. -/
def digitsOf (b : Nat) : Nat → List Char → Option Nat
  | acc, [] => some acc
  | acc, c :: cs =>
    match digitOf b c with
    | some d => digitsOf b (acc * b + d) cs
    | none => none

/-- `imm8`: `0xNN` or `0bNNNNNNNN`. -/
def asmImm8 (w : List Char) : Option Byte :=
  match w with
  | ['0', 'x', c, d] => (digitsOf 16 0 [c, d]).map (BitVec.ofNat 8)
  | ['0', 'b', c7, c6, c5, c4, c3, c2, c1, c0] =>
    (digitsOf 2 0 [c7, c6, c5, c4, c3, c2, c1, c0]).map (BitVec.ofNat 8)
  | _ => none

/-- The operand of `SET_RES`: r in 0..3. -/
def asmRes (w : List Char) : Option (BitVec 2) :=
  match w with
  | ['0'] => some 0#2
  | ['1'] => some 1#2
  | ['2'] => some 2#2
  | ['3'] => some 3#2
  | _ => none

/-- A line read from its letters. DESIGN CHOICE: R119 gives the words of a line and no more; a line with anything after
them, a trailing `-- ...` remark among it, is none here, words are parted by spaces, and the digits of `0xNN` may be of
either case (notes/assumptions/25.md). -/
def parseAsm (line : List Char) : Option AsmLine :=
  match asmWords [] line with
  | [['R', 'E', 'A', 'D', '_', 'T']] => some (.host .readT 0#8)
  | [['R', 'E', 'A', 'D', '_', 'R', 'H']] => some (.host .readRh 0#8)
  | [['R', 'E', 'A', 'D', '_', 'U', 'R', 'E', 'G']] => some (.host .readUreg 0#8)
  | [['W', 'R', 'I', 'T', 'E', '_', 'U', 'R', 'E', 'G'], w] => (asmImm8 w).map (.host .writeUreg)
  | [['S', 'O', 'F', 'T', '_', 'R', 'E', 'S', 'E', 'T']] => some (.host .softReset 0#8)
  | [['S', 'E', 'L', 'F', '_', 'T', 'E', 'S', 'T']] => some (.host .selfTest 0#8)
  | [['H', 'E', 'A', 'T', 'E', 'R', '_', 'O', 'N']] => some (.pseudo .heaterOn)
  | [['H', 'E', 'A', 'T', 'E', 'R', '_', 'O', 'F', 'F']] => some (.pseudo .heaterOff)
  | [['S', 'E', 'T', '_', 'R', 'E', 'S'], w] => (asmRes w).map fun r => .pseudo (.setRes r)
  | _ => none

/-- The host's start of a word. -/
def startInput (w : BitVec 16) : Input := .drive (word16 .opWord w)

/-- The acts of the host for a line, in order. A pseudo-instruction is READ_UREG, then, once it has finished, the
WRITE_UREG of the byte computed from `RES_UREG`. -/
def AsmLine.inputs : AsmLine → List Input
  | .host o imm8 => [startInput (opWordOf o imm8)]
  | .pseudo p => [startInput (opWordOf .readUreg 0#8), .pseudoWrite p]

end Sys2Proof.Machine
end

