-- ==== Sys2Proof/Safety.lean ====
section
/-! DEFINITION. The terms claims use: the end of a run (60_exceptions.md R326), the host's duties (R321,
70_reset_and_hazards.md R352), the heater observation (44_self_test.md R274), the calls the core may make
(20_memory.md R79) and the call of each micro-step, answers outside the contract (60_exceptions.md R310), exact values
and rounding (00_scope.md R10), and the invariant of the control registers. -/

namespace Sys2Proof.Machine

/-! ## Runs -/

/-- A successful end (R326): every input has been taken, the last operation has finished, and no mark is set. DESIGN
CHOICE: it looks at the final state alone, so a run in which an `rst` event cleared a mark or abandoned a running word
may still end so; R310, R44 and R326 do not say how `rst` counts (notes/assumptions/26.md). -/
abbrev SuccessfulEnd (s : State) : Prop :=
  s.inputs = [] ∧ s.busy = false ∧ s.done = true ∧ s.faultMark = none ∧ s.refusedMark = none

/-- The inputs of a host program (R326): each word is started once the one before has finished, and XPORT's answers
to its calls follow it. -/
def programInputs (prog : List (BitVec 16 × List Answer)) : List Input :=
  prog.flatMap fun wa => .drive (word16 .opWord wa.1) :: wa.2.map .answer

/-- The host's first duty: start only while `BUSY == 0` (R321, R33). -/
abbrev StartDuty (s : State) : Prop := s.busy = false

/-- The host's duty for a WRITE_UREG payload `p` that means to change the fields `changed` (R352). -/
abbrev PayloadDuty (s : State) (p changed : Byte) : Prop :=
  s.resUreg.any (fun u => writeKeepsInvariant u p changed) = true

/-! ## Where an operation stands -/

/-- The host acts: no answer of XPORT is on the transport port, no fault stands and the core is idle. -/
abbrev IdleForHost (s : State) : Prop := s.xans = none ∧ s.faultMark = none ∧ s.busy = false

/-- Operation `o` is at micro-step `n`, no fault stands, and XPORT answers `a` (R221). -/
abbrev AtMicroStep (o : HostOp) (n : BitVec 5) (a : Answer) (s : State) : Prop :=
  s.faultMark = none ∧ s.busy = true ∧ s.op = some o ∧ s.stepIx = n ∧ s.xans = some a

/-- The state after a call and its answer have joined the history and the answer port is free again. -/
abbrev AfterCall (e : Event) (s : State) : State := { s with xans := none, hist := s.hist ++ [e] }

/-! ## The transport history -/

/-- What one event says of the sensor's heater, given what was known (R274). A write of the user register that
answered an error leaves it unknown (DEDUCED, notes/assumptions/17.md); an event of another kind says nothing. DESIGN
CHOICE: a write answered with a wrong shape, or one without exactly one payload byte (the core makes none), leaves it
unknown as well, where R274 speaks of `Ok` and `Err` alone (notes/assumptions/17.md). -/
def heaterAfter (p : Params) (known : Option Bool) (e : Event) : Option Bool :=
  match e with
  | .tx frame payload result =>
    if frame = buildRequest p .writeUreg then
      match payload, result with
      | [b], .ok => some (b.getLsbD 2)
      | _, _ => none
    else known
  | .rx _ _ _ => known
  | .dly _ => known
  | .rst => known

/-- The heater state a claim may speak of: bit 2 of the last user-register write that answered `Ok`, unknown if
there is none (R274). -/
def heaterObserved (p : Params) (hist : List Event) : Option Bool := hist.foldl (heaterAfter p) none

/-- The calls the core makes, one by one as R79 lists them, and the `RST` event of R340. -/
def listedEvent (p : Params) (e : Event) : Bool :=
  match e with
  | .tx frame payload _ =>
    (decide (frame = buildRequest p .writeUreg) && decide (payload.length = 1)) ||
      (decide (payload = []) &&
        (decide (frame = buildRequest p .tHold) || decide (frame = buildRequest p .rhHold) ||
          decide (frame = buildRequest p .readUreg) || decide (frame = buildRequest p .softReset)))
  | .rx addr n _ => decide (addr = 0x40#7) && (decide (n = 3) || decide (n = 1))
  | .dly ms => decide (ms = 90) || decide (ms = 40) || decide (ms = 10000)
  | .rst => true

/-- The call of micro-step `n` of operation `o`, with XPORT's answer, as the tables of R225 and R261 list it; `none`
where there is no such micro-step or its payload is not written. -/
def microEvent (o : HostOp) (n : Nat) (a : Answer) (s : State) : Option Event :=
  let tx (c : Command) (payload : List Byte) : Event := .tx (buildRequest s.params c) payload a
  let rx (k : Nat) : Event := .rx Config.devAddr k a
  match o, n with
  | .readT, 0 => some (tx .tHold [])
  | .readT, 1 => some (.dly 90)
  | .readT, 2 => some (rx 3)
  | .readRh, 0 => some (tx .rhHold [])
  | .readRh, 1 => some (.dly 40)
  | .readRh, 2 => some (rx 3)
  | .readUreg, 0 => some (tx .readUreg [])
  | .readUreg, 1 => some (rx 1)
  | .writeUreg, 0 => s.wpayload.map fun p => tx .writeUreg [p]
  | .softReset, 0 => some (tx .softReset [])
  | .selfTest, 0 => some (tx .tHold [])
  | .selfTest, 1 => some (.dly 90)
  | .selfTest, 2 => some (rx 3)
  | .selfTest, 3 => some (tx .rhHold [])
  | .selfTest, 4 => some (.dly 40)
  | .selfTest, 5 => some (rx 3)
  | .selfTest, 6 => some (tx .readUreg [])
  | .selfTest, 7 => some (rx 1)
  | .selfTest, 8 => s.uregBase.map fun u => tx .writeUreg [setHeater u]
  | .selfTest, 9 => some (.dly 10000)
  | .selfTest, 10 => some (tx .tHold [])
  | .selfTest, 11 => some (.dly 90)
  | .selfTest, 12 => some (rx 3)
  | .selfTest, 13 => some (tx .rhHold [])
  | .selfTest, 14 => some (.dly 40)
  | .selfTest, 15 => some (rx 3)
  | .selfTest, 16 => some (tx .readUreg [])
  | .selfTest, 17 => some (rx 1)
  | .selfTest, 18 => s.uregBase.map fun u => tx .writeUreg [clearHeater u]
  | _, _ => none

/-- XPORT's answer `a` to the call of event `ev` breaks the contract: an error value outside R301, or an answer of the
wrong shape, an error to a Delay among them (R301, R310, R320; notes/assumptions/22.md). -/
def outsideContract (ev : Event) (a : Answer) : Prop :=
  (∃ n, a = .err (.other n)) ∨
    match ev with
    | .tx _ _ _ => a = .delayed ∨ ∃ l, a = .bytes l
    | .rx _ _ _ => a = .ok ∨ a = .delayed
    | .dly _ => a ≠ .delayed
    | .rst => False

/-! ## Exact values (R10) -/

/-- `real(v)` of a finite value; `none` for an infinity and a NaN (R10). -/
def realOf (f : Fmt) (x : FBits) : Option ℚ :=
  match unpack f x with
  | .nan => none
  | .inf _ => none
  | .fin neg m e => some ((if neg then -(m : ℚ) else (m : ℚ)) * (2 : ℚ) ^ e)

/-- The least magnitude that rounds to infinity: the largest finite value and half of its last place, 2^fracBits being
the weight of the hidden bit (PRESUMED, IEEE 754: notes/assumptions/23.md). -/
def overflowAt (f : Fmt) : ℚ := (2 ^ (f.fracBits + 2) - 1) * (2 : ℚ) ^ (f.minExp + 2 ^ f.expBits - 4)

/-- The pattern `r` is `RN_F(z)` (R10): no finite value is nearer to z, and where another is as near, `r` is even. From
`overflowAt` on, and only there, it is the infinity of z's sign. -/
def IsRounded (f : Fmt) (r : FBits) (z : ℚ) : Prop :=
  (unpack f r = .inf (decide (z < 0)) ∧ overflowAt f ≤ |z|) ∨
  ∃ v, realOf f r = some v ∧ |z| < overflowAt f ∧
    ∀ w u, realOf f w = some u → |v - z| ≤ |u - z| ∧ (u ≠ v → |v - z| = |u - z| → r.toNat % 2 = 0)

/-! ## The invariant of the control registers -/

/-- The number of micro-steps of `PROG(OP)` (R225, R261); 1 when no operation runs, so that `STEP` is 0 then (R32). -/
def progLen : Option HostOp → Nat
  | none => 1
  | some .readT => 3
  | some .readRh => 3
  | some .readUreg => 2
  | some .writeUreg => 1
  | some .softReset => 1
  | some .selfTest => 19

/-- `OP != NONE` exactly when `BUSY == 1` (R31). -/
abbrev InvOp (s : State) : Prop := s.busy = s.op.isSome

/-- `STEP` names a micro-step of `PROG(OP)`, and is 0 when no operation runs (R32). -/
abbrev InvStep (s : State) : Prop := s.stepIx.toNat < progLen s.op

/-- The result registers: `⊥` until `DONE`, `RES_ERR` a value from then on, a value only beside `NONE_ERR`
(R34 to R37). -/
abbrev InvResults (s : State) : Prop :=
  (s.busy = true → s.done = false) ∧
  (s.done = false → s.resErr = none ∧ s.resVal = none ∧ s.resUreg = none) ∧
  (s.done = true → s.resErr.isSome = true) ∧
  (s.resVal.isSome = true → s.resErr = some .noneErr) ∧
  (s.resUreg.isSome = true → s.resErr = some .noneErr)

/-- `WPAYLOAD` holds the operand while WRITE_UREG runs (R38). -/
abbrev InvPayload (s : State) : Prop := s.op = some .writeUreg → s.wpayload.isSome = true

/-- While SELF_TEST runs, each scratch register holds a value from its micro-step on, as long as a later micro-step
reads it (R261, R39, R40). -/
abbrev InvScratch (s : State) : Prop :=
  s.op = some .selfTest →
    (3 ≤ s.stepIx.toNat → s.stepIx.toNat ≤ 15 → s.tStart.isSome = true) ∧
    (6 ≤ s.stepIx.toNat → s.stepIx.toNat ≤ 15 → s.hStart.isSome = true) ∧
    (8 ≤ s.stepIx.toNat → s.stepIx.toNat ≤ 15 → s.uregBase.isSome = true) ∧
    (13 ≤ s.stepIx.toNat → s.stepIx.toNat ≤ 15 → s.tAfter.isSome = true) ∧
    (s.stepIx.toNat = 18 → s.uregBase.isSome = true)

/-- While SELF_TEST runs, `VERDICT` and `PEND_ERR` are `⊥` before cleanup; in cleanup `PEND_ERR` is the verdict's
error, or, only with `CLEANUP_ON_ABORT`, the error of an abort (R41, R42, R267, R270). -/
abbrev InvVerdict (s : State) : Prop :=
  s.op = some .selfTest →
    (s.stepIx.toNat < 16 → s.verdict = none ∧ s.pendErr = none) ∧
    (16 ≤ s.stepIx.toNat →
      (s.verdict = some true ∧ s.pendErr = some .noneErr) ∨
      (s.verdict = some false ∧ s.pendErr = some .selfTestFailed) ∨
      (s.verdict = none ∧ s.params.cleanupOnAbort = true ∧
        (s.pendErr = some .timeout ∨ s.pendErr = some .transportAckFailure ∨ s.pendErr = some .checksumMismatch)))

/-- The invariant of the control registers; the answer port is free between steps. -/
structure Inv (s : State) : Prop where
  op : InvOp s
  stepIx : InvStep s
  results : InvResults s
  payload : InvPayload s
  scratch : InvScratch s
  verdict : InvVerdict s
  port : s.xans = none

/-- Every float register that holds a value holds a finite value of the format F (R46). -/
abbrev InvFloats (s : State) : Prop :=
  s.resVal.all (fun v => isFinite s.params.fmt v && fitsF s.params.fmt v) = true ∧
  s.tStart.all (fun v => isFinite s.params.fmt v && fitsF s.params.fmt v) = true ∧
  s.hStart.all (fun v => isFinite s.params.fmt v && fitsF s.params.fmt v) = true ∧
  s.tAfter.all (fun v => isFinite s.params.fmt v && fitsF s.params.fmt v) = true ∧
  s.hAfter.all (fun v => isFinite s.params.fmt v && fitsF s.params.fmt v) = true

end Sys2Proof.Machine
end

