-- ==== Sys2Proof/Certificates/Slice0/Obligations.lean ====
section
/-! DEFINITION. The statements for the provers: what the spec's numbered rules say of this model. -/

open Sys2Proof Sys2Proof.Machine

/-! ## Frame codec -/

/-- R101, R103, R104: each of the seven commands shows the frame of its address, direction and code, and nothing
else changes; under the default `CMD_CODE` the frames are the seven of R104. -/
def Obligations.CommandsShowTheirFrames : Prop :=
  ∀ s : State,
    exec .cmdTHold s =
      .next { s with portOut := some (.bldFrame (0b1000000#7 ++ 1#1 ++ s.params.cmdCode.tHold)) } ∧
    exec .cmdRhHold s =
      .next { s with portOut := some (.bldFrame (0b1000000#7 ++ 1#1 ++ s.params.cmdCode.rhHold)) } ∧
    exec .cmdTNohold s =
      .next { s with portOut := some (.bldFrame (0b1000000#7 ++ 1#1 ++ s.params.cmdCode.tNohold)) } ∧
    exec .cmdRhNohold s =
      .next { s with portOut := some (.bldFrame (0b1000000#7 ++ 1#1 ++ s.params.cmdCode.rhNohold)) } ∧
    exec .cmdWriteUreg s =
      .next { s with portOut := some (.bldFrame (0b1000000#7 ++ 0#1 ++ s.params.cmdCode.writeUreg)) } ∧
    exec .cmdReadUreg s =
      .next { s with portOut := some (.bldFrame (0b1000000#7 ++ 1#1 ++ s.params.cmdCode.readUreg)) } ∧
    exec .cmdSoftReset s =
      .next { s with portOut := some (.bldFrame (0b1000000#7 ++ 1#1 ++ s.params.cmdCode.softReset)) } ∧
    (s.params.cmdCode = Config.cmdCodes →
      exec .cmdTHold s = .next { s with portOut := some (.bldFrame 0x81E3#16) } ∧
      exec .cmdRhHold s = .next { s with portOut := some (.bldFrame 0x81E5#16) } ∧
      exec .cmdTNohold s = .next { s with portOut := some (.bldFrame 0x81F3#16) } ∧
      exec .cmdRhNohold s = .next { s with portOut := some (.bldFrame 0x81F5#16) } ∧
      exec .cmdWriteUreg s = .next { s with portOut := some (.bldFrame 0x80E6#16) } ∧
      exec .cmdReadUreg s = .next { s with portOut := some (.bldFrame 0x81E7#16) } ∧
      exec .cmdSoftReset s = .next { s with portOut := some (.bldFrame 0x81FE#16) })

/-- R105, R141: buildRequest on a selector shows the frame of the command the selector names; the selector 7 names
none, shows no frame and sets `REFUSED` with `BAD_CMDSEL`. Where `REFUSED` is already set, that this reason takes the
place of the earlier one is the model's choice (DESIGN CHOICE, notes/assumptions/8.md). -/
def Obligations.BuildRequestOnASelector : Prop :=
  ∀ s : State,
    (∀ (c : BitVec 3) (code : Byte),
      s.params.cmdCode.toList[c.toNat]? = some code →
      exec (.buildRequest c) s =
        .next { s with portOut := some (.bldFrame (0x40#7 ++ (if c = 4#3 then 0#1 else 1#1) ++ code)) }) ∧
    (∀ c : BitVec 3, c ≠ 7#3 → ∃ code, s.params.cmdCode.toList[c.toNat]? = some code) ∧
    exec (.buildRequest 7#3) s = .next { s with refusedMark := some .badCmdsel }

/-- R150, R151: the fields of a user-register byte, the whole byte among them; the serializer answers the raw byte
whatever the fields are, so a parsed byte comes back whole. -/
def Obligations.UserRegisterParsesAndSerializes : Prop :=
  (∀ (u : Byte) (s : State), ∃ r : UserRegister,
    exec (.parseUserRegister u) s = .next { s with portOut := some (.pur r) } ∧
    r.raw = u ∧ r.res.getLsbD 1 = u.getLsbD 7 ∧ r.res.getLsbD 0 = u.getLsbD 0 ∧ r.eob.getLsbD 0 = u.getLsbD 6 ∧
    r.heater.getLsbD 0 = u.getLsbD 2 ∧ r.otpd.getLsbD 0 = u.getLsbD 1) ∧
  (∀ (r : UserRegister) (s : State),
    exec (.serializeUserRegister r) s = .next { s with portOut := some (.byte r.raw) }) ∧
  ∀ u : Byte, serializeUserRegister (parseUserRegister u) = u

/-- R152, R153, R154: the accessors of the user-register byte: setHeater and clearHeater change bit 2 alone, and
setResolution puts r[1] in bit 7 and r[0] in bit 0 and changes no other bit. -/
def Obligations.FieldAccessorsTouchTheirBitsAlone : Prop :=
  ∀ (u : Byte) (r : BitVec 2) (s : State),
    exec (.setHeater u) s = .next { s with portOut := some (.byte (u ||| 0x04#8)) } ∧
    exec (.clearHeater u) s = .next { s with portOut := some (.byte (u &&& 0xFB#8)) } ∧
    exec (.setResolution u r) s = .next { s with portOut := some (.byte (setResolution u r)) } ∧
    (∀ i, i ≠ 2 → (setHeater u).getLsbD i = u.getLsbD i ∧ (clearHeater u).getLsbD i = u.getLsbD i) ∧
    (setHeater u).getLsbD 2 = true ∧ (clearHeater u).getLsbD 2 = false ∧
    (u.getLsbD 2 = true → setHeater u = u) ∧ (u.getLsbD 2 = false → clearHeater u = u) ∧
    (setResolution u r).getLsbD 7 = r.getLsbD 1 ∧ (setResolution u r).getLsbD 0 = r.getLsbD 0 ∧
    ∀ i, i ≠ 7 → i ≠ 0 → (setResolution u r).getLsbD i = u.getLsbD i

/-- R155: writeKeepsInvariant answers whether every bit outside the mask is as it was read. -/
def Obligations.WriteKeepsInvariantComparesOutsideTheMask : Prop :=
  ∀ (read written changed : Byte) (s : State), ∃ b : Bool,
    exec (.writeKeepsInvariant read written changed) s = .next { s with portOut := some (.flag b) } ∧
    (b = true ↔ ∀ i, i < 8 → changed.getLsbD i = false → written.getLsbD i = read.getLsbD i)

/-! ## Checksum -/

/-- R171, R172: crc8 starts at 0, XORs each byte in and makes eight steps that test bit 7 before the shift; `crc_ok`
is the comparison of the CRC with the checksum byte, and exactly one checksum byte matches. -/
def Obligations.CrcFollowsTheBitRule : Prop :=
  (∀ (data : List Byte) (check : Byte) (s : State),
    exec (.crc8 data) s = .next { s with portOut := some (.crcValue (crc8 data)) } ∧
    exec (.checkCrc data check) s = .next { s with portOut := some (.crcOk (decide (crc8 data = check))) } ∧
    ∃! k : Byte, checkCrc data k = true) ∧
  crc8 [] = 0x00#8 ∧
  ∀ (m : List Byte) (b : Byte),
    crc8 (m ++ [b]) =
      (fun acc : Byte => if acc.getLsbD 7 = true then (acc <<< 1) ^^^ 0x31#8 else acc <<< 1)^[8] (crc8 m ^^^ b)

/-- R173 items 2 to 4: the CRC is linear over XOR, a message with its CRC appended has CRC 0, and leading zero bytes
change nothing. -/
def Obligations.CrcIsLinear : Prop :=
  (∀ m1 m2 : List Byte, m1.length = m2.length → crc8 (List.zipWith (· ^^^ ·) m1 m2) = crc8 m1 ^^^ crc8 m2) ∧
  (∀ m : List Byte, crc8 (m ++ [crc8 m]) = 0x00#8) ∧
  (∀ (n : Nat) (m : List Byte), crc8 (List.replicate n 0x00#8 ++ m) = crc8 m)

/-- R173 item 5: a change of any single bit in the three bytes of a valid reading is detected, and the converters
then answer no value. -/
def Obligations.SingleBitErrorsAreDetected : Prop :=
  ∀ (b0 b1 b2 : Byte) (i : Nat) (ne : NumEval), i < 8 → checkCrc [b0, b1] b2 = true →
    let flip (b : Byte) : Byte := b ^^^ (1#8 <<< i)
    checkCrc [flip b0, b1] b2 = false ∧ checkCrc [b0, flip b1] b2 = false ∧ checkCrc [b0, b1] (flip b2) = false ∧
    toTemperature ne (flip b0) b1 b2 = none ∧ toTemperature ne b0 (flip b1) b2 = none ∧
    toTemperature ne b0 b1 (flip b2) = none ∧
    toHumidity ne (flip b0) b1 b2 = none ∧ toHumidity ne b0 (flip b1) b2 = none ∧ toHumidity ne b0 b1 (flip b2) = none

/-- R173 item 1: crc8 is the remainder of M(x)·x^8 divided by x^8 + x^5 + x^4 + 1 over GF(2), bit 7 of the first byte
being the highest power of M. -/
def Obligations.CrcIsThePolynomialRemainder : Prop :=
  let poly (b : Byte) : Polynomial (ZMod 2) :=
    ∑ i ∈ Finset.range 8, if b.getLsbD i = true then Polynomial.X ^ i else 0
  let message (m : List Byte) : Polynomial (ZMod 2) := m.foldl (fun acc b => acc * Polynomial.X ^ 8 + poly b) 0
  ∀ m : List Byte, ∃ q : Polynomial (ZMod 2),
    message m * Polynomial.X ^ 8 =
      q * (Polynomial.X ^ 8 + Polynomial.X ^ 5 + Polynomial.X ^ 4 + 1) + poly (crc8 m)

/-! ## Converters and judge -/

/-- R193, R196: the converters show a value exactly when the CRC of the two data bytes as received is the third byte,
and the value is the formula's over the masked reading. -/
def Obligations.ConvertersCheckThenEvaluate : Prop :=
  ∀ (b0 b1 b2 : Byte) (s : State),
    exec (.toTemperature b0 b1 b2) s = .next { s with portOut := some (.cv
      (if crc8 [b0, b1] = b2
        then some (evalScheme s.params.numEval ⟨true, 4685⟩ ⟨false, 17572⟩ ((b0 ++ b1) &&& 0xFFFC#16))
        else none)) } ∧
    exec (.toHumidity b0 b1 b2) s = .next { s with portOut := some (.cv
      (if crc8 [b0, b1] = b2
        then some (evalScheme s.params.numEval ⟨true, 600⟩ ⟨false, 12500⟩ ((b0 ++ b1) &&& 0xFFFC#16))
        else none)) }

/-- R190: the three evaluation schemes and their formats: divide by 65536, multiply, add, each rounded; `E64_TO_32`
rounds the binary64 result once more; the constants' binary64 patterns are those R190 lists, `c0` the rounding of the
negative literal. -/
def Obligations.EvaluationSchemes : Prop :=
  (∀ (c0 c1 : Literal) (m : BitVec 16),
    evalScheme .e64 c0 c1 m =
      fadd .b64 (c0.fl .b64) (fmul .b64 (c1.fl .b64) (fdiv .b64 (ofNatF .b64 m.toNat) (ofNatF .b64 65536))) ∧
    evalScheme .e64To32 c0 c1 m = toB32 (evalScheme .e64 c0 c1 m) ∧
    evalScheme .e32 c0 c1 m =
      fadd .b32 (c0.fl .b32) (fmul .b32 (c1.fl .b32) (fdiv .b32 (ofNatF .b32 m.toNat) (ofNatF .b32 65536)))) ∧
  NumEval.fmt .e64 = .b64 ∧ NumEval.fmt .e64To32 = .b32 ∧ NumEval.fmt .e32 = .b32 ∧
  (Literal.mk false 4685).fl .b64 = 0x40476CCCCCCCCCCD#64 ∧ (Literal.mk false 600).fl .b64 = 0x4018000000000000#64 ∧
  Config.tC0.fl .b64 = 0xC0476CCCCCCCCCCD#64 ∧ Config.tC1.fl .b64 = 0x4065F70A3D70A3D7#64 ∧
  Config.rhC1.fl .b64 = 0x405F400000000000#64 ∧ Config.rhC0.fl .b64 = 0xC018000000000000#64

/-- R191: both converters work on `{b0, b1} & 0xFFFC`; two readings that differ only in their status bits, each with
its own valid checksum, give the same value. -/
def Obligations.StatusBitsDoNotReachTheArithmetic : Prop :=
  ∀ (k : MeasKind) (ne : NumEval) (b0 b1 b1' c c' : Byte), b1 &&& 0xFC#8 = b1' &&& 0xFC#8 →
    checkCrc [b0, b1] c = true → checkCrc [b0, b1'] c' = true →
    convert k ne b0 b1 c = convert k ne b0 b1' c' ∧
    convert k ne b0 b1 c = some (match k with
      | .temp => temperatureOf ne ((b0 ++ b1) &&& 0xFFFC#16)
      | .hum => humidityOf ne ((b0 ++ b1) &&& 0xFFFC#16))

/-- R197: humidity is exact in every scheme: for masked = 4k the result's value is (125k - 98304)/16384. -/
def Obligations.HumidityIsExact : Prop :=
  ∀ (ne : NumEval) (k : Nat), k < 16384 → ∃ (neg : Bool) (m : Nat) (e : Int),
    unpack ne.fmt (humidityOf ne (BitVec.ofNat 16 (4 * k))) = .fin neg m e ∧
    (if neg then -(m : ℚ) else (m : ℚ)) * (2 : ℚ) ^ e = (125 * (k : ℚ) - 98304) / 16384

/-- R193: the temperature rises with the masked reading: a greater masked reading gives a greater temperature, in every
scheme. That it rises at every reading, rounded as it is, is worked out from R190. -/
def Obligations.TemperatureRisesWithTheReading : Prop :=
  ∀ (ne : NumEval) (j k : Nat), j < k → k < 16384 →
    fgt ne.fmt (temperatureOf ne (BitVec.ofNat 16 (4 * k))) (temperatureOf ne (BitVec.ofNat 16 (4 * j))) = true

/-- R46: every conversion result is a finite value of the format F. -/
def Obligations.ConversionsAreFinite : Prop :=
  ∀ (k : MeasKind) (ne : NumEval) (b0 b1 b2 : Byte) (v : FBits), convert k ne b0 b1 b2 = some v →
    isFinite ne.fmt v = true ∧ fitsF ne.fmt v = true

/-- R10: rounding goes to the nearest value of the format, ties to the even pattern. The value of a magnitude pattern
is written out from its exponent and fraction fields. That a value below the normal ones rounds to a subnormal, and the
overflow to infinity that the hypothesis leaves out (ArithmeticRoundsTheExactResultOnce states it), are PRESUMED
(notes/assumptions/23.md). -/
def Obligations.RoundingIsToNearestTiesToEven : Prop :=
  let value (f : Fmt) (b : Nat) : ℚ :=
    if b / 2 ^ f.fracBits = 0 then ((b % 2 ^ f.fracBits : Nat) : ℚ) * (2 : ℚ) ^ f.minExp
    else ((2 ^ f.fracBits + b % 2 ^ f.fracBits : Nat) : ℚ) * (2 : ℚ) ^ (f.minExp + (b / 2 ^ f.fracBits : Nat) - 1)
  ∀ (f : Fmt) (n d : Nat) (e : Int), 0 < d → roundMag f n d e < f.infPat →
    let x : ℚ := (n : ℚ) / d * (2 : ℚ) ^ e
    ∀ w : Nat, w < f.infPat →
      |value f (roundMag f n d e) - x| ≤ |value f w - x| ∧
      (w ≠ roundMag f n d e → |value f (roundMag f n d e) - x| = |value f w - x| → roundMag f n d e % 2 = 0)

/-- R10, R190: each operation is the exact real result of its finite operands, rounded once: the sum, the difference, the
product, the quotient by a value other than 0, the rounding of a binary64 value to binary32, of a decimal literal and of
an integer. Subnormals and the place where a result overflows to infinity are PRESUMED (notes/assumptions/23.md). -/
def Obligations.ArithmeticRoundsTheExactResultOnce : Prop :=
  (∀ (f : Fmt) (x y : FBits) (u v : ℚ), realOf f x = some u → realOf f y = some v →
    IsRounded f (fadd f x y) (u + v) ∧ IsRounded f (fsub f x y) (u - v) ∧ IsRounded f (fmul f x y) (u * v) ∧
    (v ≠ 0 → IsRounded f (fdiv f x y) (u / v))) ∧
  (∀ (x : FBits) (u : ℚ), realOf .b64 x = some u → IsRounded .b32 (toB32 x) u) ∧
  (∀ (f : Fmt) (c : Literal), IsRounded f (c.fl f) ((if c.neg then -(c.hundredths : ℚ) else c.hundredths) / 100)) ∧
  ∀ (f : Fmt) (n : Nat), IsRounded f (ofNatF f n) n

/-- R10: `>_F` orders finite values by their real values and is false beside a NaN. -/
def Obligations.GreaterThanIsOrdered : Prop :=
  ∀ (f : Fmt) (x y : FBits),
    (unpack f x = .nan ∨ unpack f y = .nan → fgt f x y = false) ∧
    ∀ (a b : Bool) (m n : Nat) (e k : Int), unpack f x = .fin a m e → unpack f y = .fin b n k →
      (fgt f x y = true ↔
        (if b then -(n : ℚ) else (n : ℚ)) * (2 : ℚ) ^ k < (if a then -(m : ℚ) else (m : ℚ)) * (2 : ℚ) ^ e)

/-- R266: the judge's two strict comparisons in format F; a NaN threshold gives Fail. -/
def Obligations.JudgeComparesBothDeltas : Prop :=
  ∀ (t0 h0 t1 h1 : FBits) (s : State),
    exec (.judge t0 h0 t1 h1) s = .next { s with portOut := some (.flag
      (fgt s.params.fmt (fsub s.params.fmt t1 t0) s.params.tempThr &&
        fgt s.params.fmt (fsub s.params.fmt h0 h1) s.params.humThr)) } ∧
    (unpack s.params.fmt s.params.tempThr = .nan ∨ unpack s.params.fmt s.params.humThr = .nan →
      judge s.params t0 h0 t1 h1 = false)

/-! ## Start and finish -/

/-- R223: an allowed start writes exactly the registers the rule lists, for each of the six operations. -/
def Obligations.AllowedStartLatchesTheOperation : Prop :=
  ∀ (s : State) (imm8 : Byte), IdleForHost s →
    exec .readT s = .next { s with
      op := some .readT, stepIx := 0#5, busy := true, done := false,
      resErr := none, resVal := none, resUreg := none, wpayload := none } ∧
    exec .readRh s = .next { s with
      op := some .readRh, stepIx := 0#5, busy := true, done := false,
      resErr := none, resVal := none, resUreg := none, wpayload := none } ∧
    exec .readUreg s = .next { s with
      op := some .readUreg, stepIx := 0#5, busy := true, done := false,
      resErr := none, resVal := none, resUreg := none, wpayload := none } ∧
    exec (.writeUreg imm8) s = .next { s with
      op := some .writeUreg, stepIx := 0#5, busy := true, done := false,
      resErr := none, resVal := none, resUreg := none, wpayload := some imm8 } ∧
    exec .softReset s = .next { s with
      op := some .softReset, stepIx := 0#5, busy := true, done := false,
      resErr := none, resVal := none, resUreg := none, wpayload := none } ∧
    exec .selfTest s = .next { s with
      op := some .selfTest, stepIx := 0#5, busy := true, done := false,
      resErr := none, resVal := none, resUreg := none, wpayload := none,
      tStart := none, hStart := none, tAfter := none, hAfter := none,
      uregBase := none, verdict := none, pendErr := none }

/-- R313, R223: any word at `op_word` while an operation runs, legal or not, sets `FAULT` with `START_WHILE_BUSY` and
changes nothing else of the core; while `FAULT` stands no start is made. -/
def Obligations.StartWhileBusyFaults : Prop :=
  ∀ (s : State) (w : BitVec 16) (rest : List Input), s.inputs = startInput w :: rest →
    (s.faultMark = none → s.busy = true →
      step s = .next { s with inputs := rest, xans := none, faultMark := some .startWhileBusy }) ∧
    (∀ r, s.faultMark = some r → step s = .fault (.halted r))

/-- R117: a word whose operation code is unassigned, whose bits 11..8 are not zero, or which carries an operand for an
operation without one, is refused: the mark `REFUSED` is set and no register of the core changes. Every other word is
legal and starts the operation of its code. Where `REFUSED` is already set, that the reason `ILLEGAL_OP` takes the place
of the earlier one is the model's choice (DESIGN CHOICE, notes/assumptions/8.md). -/
def Obligations.IllegalWordsAreRefused : Prop :=
  ∀ (s : State) (w : BitVec 16) (rest : List Input), s.inputs = startInput w :: rest →
    s.faultMark = none → s.busy = false →
    let illegal : Prop := w.toNat / 4096 = 0 ∨ 7 ≤ w.toNat / 4096 ∨ w.toNat / 256 % 16 ≠ 0 ∨
      (w.toNat % 256 ≠ 0 ∧ w.toNat / 4096 ≠ 4)
    (illegal → step s = .next { s with inputs := rest, xans := none, refusedMark := some .illegalOp }) ∧
    (¬ illegal → ∃ t, step s = .next t ∧ t.busy = true ∧ t.refusedMark = s.refusedMark ∧
      t.op.map HostOp.code = some (w.extractLsb' 12 4))

/-- R224: finish writes the result code and makes the core idle and done; it touches no other register. -/
def Obligations.FinishWritesTheResultCode : Prop :=
  ∀ (e : ErrorKind) (s : State),
    s.finish e = { s with resErr := some e, busy := false, done := true, op := none, stepIx := 0#5 } ∧
    [ErrorKind.noneErr, .timeout, .checksumMismatch, .transportAckFailure, .selfTestFailed].map ErrorKind.code =
      [0#3, 1#3, 2#3, 3#3, 4#3]

/-! ## The micro-programs of the orchestrator -/

/-- R225, R230, R231, R227: the three micro-steps of READ_T and of READ_RH on an answer `Ok`, with the settling delay
of each, the value in `RES_VAL`, and the checksum mismatch. -/
def Obligations.MeasurementMicroPrograms : Prop :=
  ∀ (s : State) (a : Answer) (b0 b1 b2 : Byte),
    (AtMicroStep .readT 0#5 a s → a = .ok →
      exec .readT s = .next { AfterCall (.tx (buildRequest s.params .tHold) [] a) s with stepIx := 1#5 }) ∧
    (AtMicroStep .readT 1#5 a s → a = .delayed →
      exec .readT s = .next { AfterCall (.dly 90) s with stepIx := 2#5 }) ∧
    (AtMicroStep .readT 2#5 a s → a = .bytes [b0, b1, b2] →
      (crc8 [b0, b1] = b2 → exec .readT s = .next ({ AfterCall (.rx 0x40#7 3 a) s with
        resVal := some (temperatureOf s.params.numEval ((b0 ++ b1) &&& 0xFFFC#16)) }.finish .noneErr)) ∧
      (crc8 [b0, b1] ≠ b2 → exec .readT s = .next ((AfterCall (.rx 0x40#7 3 a) s).finish .checksumMismatch))) ∧
    (AtMicroStep .readRh 0#5 a s → a = .ok →
      exec .readRh s = .next { AfterCall (.tx (buildRequest s.params .rhHold) [] a) s with stepIx := 1#5 }) ∧
    (AtMicroStep .readRh 1#5 a s → a = .delayed →
      exec .readRh s = .next { AfterCall (.dly 40) s with stepIx := 2#5 }) ∧
    (AtMicroStep .readRh 2#5 a s → a = .bytes [b0, b1, b2] →
      (crc8 [b0, b1] = b2 → exec .readRh s = .next ({ AfterCall (.rx 0x40#7 3 a) s with
        resVal := some (humidityOf s.params.numEval ((b0 ++ b1) &&& 0xFFFC#16)) }.finish .noneErr)) ∧
      (crc8 [b0, b1] ≠ b2 → exec .readRh s = .next ((AfterCall (.rx 0x40#7 3 a) s).finish .checksumMismatch)))

/-- R225, R233, R236, R238: the micro-steps of READ_UREG, WRITE_UREG and SOFT_RESET on an answer `Ok`. The byte read is
kept whole; the byte written is `WPAYLOAD`, whatever it is. -/
def Obligations.RegisterAndResetMicroPrograms : Prop :=
  ∀ (s : State) (a : Answer) (b : Byte),
    (AtMicroStep .readUreg 0#5 a s → a = .ok →
      exec .readUreg s = .next { AfterCall (.tx (buildRequest s.params .readUreg) [] a) s with stepIx := 1#5 }) ∧
    (AtMicroStep .readUreg 1#5 a s → a = .bytes [b] →
      exec .readUreg s = .next ({ AfterCall (.rx 0x40#7 1 a) s with resUreg := some b }.finish .noneErr)) ∧
    (AtMicroStep .writeUreg 0#5 a s → a = .ok → s.wpayload = some b →
      ∀ imm8, exec (.writeUreg imm8) s =
        .next ((AfterCall (.tx (buildRequest s.params .writeUreg) [b] a) s).finish .noneErr)) ∧
    (AtMicroStep .softReset 0#5 a s → a = .ok →
      exec .softReset s = .next ((AfterCall (.tx (buildRequest s.params .softReset) [] a) s).finish .noneErr))

/-- R222: in the five orchestrator operations a failed Transmit or Receive ends the operation with the transport's own
error, unchanged, after the one failed call. -/
def Obligations.TransportErrorsEndTheOperationUnchanged : Prop :=
  ∀ (s : State) (e : TransportError) (k : ErrorKind) (b : Byte),
    (e = .timeout ∧ k = .timeout ∨ e = .ackFailure ∧ k = .transportAckFailure) →
    (∀ o c, (o, c) ∈ [(HostOp.readT, Command.tHold), (.readRh, .rhHold), (.readUreg, .readUreg),
        (.softReset, .softReset)] → AtMicroStep o 0#5 (.err e) s →
      exec (instrOfHostOp o b) s =
        .next ((AfterCall (.tx (buildRequest s.params c) [] (.err e)) s).finish k)) ∧
    (∀ p, AtMicroStep .writeUreg 0#5 (.err e) s → s.wpayload = some p →
      exec (.writeUreg b) s =
        .next ((AfterCall (.tx (buildRequest s.params .writeUreg) [p] (.err e)) s).finish k)) ∧
    (∀ o i n, (o, i, n) ∈ [(HostOp.readT, 2#5, 3), (.readRh, 2#5, 3), (.readUreg, 1#5, 1)] →
      AtMicroStep o i (.err e) s →
      exec (instrOfHostOp o b) s = .next ((AfterCall (.rx 0x40#7 n (.err e)) s).finish k))

/-- R230, R231, R227: from the start to the end of a measurement: the transmit, the settling delay, the receive, and
the value in `RES_VAL`. -/
def Obligations.MeasurementsRunToTheirValue : Prop :=
  ∀ (s : State) (b0 b1 b2 : Byte) (rest : List Input), s.faultMark = none → s.busy = false → crc8 [b0, b1] = b2 →
    (s.inputs = startInput 0x1000#16 :: .answer .ok :: .answer .delayed :: .answer (.bytes [b0, b1, b2]) :: rest →
      Host.Core.run core 4 s = .next { s with
        op := none, stepIx := 0#5, busy := false, done := true, resErr := some .noneErr,
        resVal := some (temperatureOf s.params.numEval ((b0 ++ b1) &&& 0xFFFC#16)),
        resUreg := none, wpayload := none, inputs := rest, xans := none,
        hist := s.hist ++ [.tx (buildRequest s.params .tHold) [] .ok, .dly 90,
          .rx 0x40#7 3 (.bytes [b0, b1, b2])] }) ∧
    (s.inputs = startInput 0x2000#16 :: .answer .ok :: .answer .delayed :: .answer (.bytes [b0, b1, b2]) :: rest →
      Host.Core.run core 4 s = .next { s with
        op := none, stepIx := 0#5, busy := false, done := true, resErr := some .noneErr,
        resVal := some (humidityOf s.params.numEval ((b0 ++ b1) &&& 0xFFFC#16)),
        resUreg := none, wpayload := none, inputs := rest, xans := none,
        hist := s.hist ++ [.tx (buildRequest s.params .rhHold) [] .ok, .dly 40,
          .rx 0x40#7 3 (.bytes [b0, b1, b2])] })

/-- R233, R236, R238: READ_UREG, WRITE_UREG and SOFT_RESET from the start to the end. -/
def Obligations.RegisterOperationsRunToTheirEnd : Prop :=
  ∀ (s : State) (b : Byte) (rest : List Input), s.faultMark = none → s.busy = false →
    (s.inputs = startInput 0x3000#16 :: .answer .ok :: .answer (.bytes [b]) :: rest →
      Host.Core.run core 3 s = .next { s with
        op := none, stepIx := 0#5, busy := false, done := true, resErr := some .noneErr, resVal := none,
        resUreg := some b, wpayload := none, inputs := rest, xans := none,
        hist := s.hist ++ [.tx (buildRequest s.params .readUreg) [] .ok, .rx 0x40#7 1 (.bytes [b])] }) ∧
    (s.inputs = startInput (0x40#8 ++ b) :: .answer .ok :: rest →
      Host.Core.run core 2 s = .next { s with
        op := none, stepIx := 0#5, busy := false, done := true, resErr := some .noneErr, resVal := none,
        resUreg := none, wpayload := some b, inputs := rest, xans := none,
        hist := s.hist ++ [.tx (buildRequest s.params .writeUreg) [b] .ok] }) ∧
    (s.inputs = startInput 0x5000#16 :: .answer .ok :: rest →
      Host.Core.run core 2 s = .next { s with
        op := none, stepIx := 0#5, busy := false, done := true, resErr := some .noneErr, resVal := none,
        resUreg := none, wpayload := none, inputs := rest, xans := none,
        hist := s.hist ++ [.tx (buildRequest s.params .softReset) [] .ok] })

/-! ## SELF_TEST -/

/-- R261 to R265: the micro-steps of Baseline, HeaterOn and Settling on an answer `Ok`. -/
def Obligations.SelfTestBaselineAndHeaterOn : Prop :=
  ∀ (s : State) (a : Answer) (b0 b1 b2 u : Byte),
    (AtMicroStep .selfTest 0#5 a s → a = .ok →
      exec .selfTest s = .next { AfterCall (.tx (buildRequest s.params .tHold) [] a) s with stepIx := 1#5 }) ∧
    (AtMicroStep .selfTest 1#5 a s → a = .delayed →
      exec .selfTest s = .next { AfterCall (.dly 90) s with stepIx := 2#5 }) ∧
    (AtMicroStep .selfTest 2#5 a s → a = .bytes [b0, b1, b2] → crc8 [b0, b1] = b2 →
      exec .selfTest s = .next { AfterCall (.rx 0x40#7 3 a) s with
        tStart := some (temperatureOf s.params.numEval ((b0 ++ b1) &&& 0xFFFC#16)), stepIx := 3#5 }) ∧
    (AtMicroStep .selfTest 3#5 a s → a = .ok →
      exec .selfTest s = .next { AfterCall (.tx (buildRequest s.params .rhHold) [] a) s with stepIx := 4#5 }) ∧
    (AtMicroStep .selfTest 4#5 a s → a = .delayed →
      exec .selfTest s = .next { AfterCall (.dly 40) s with stepIx := 5#5 }) ∧
    (AtMicroStep .selfTest 5#5 a s → a = .bytes [b0, b1, b2] → crc8 [b0, b1] = b2 →
      exec .selfTest s = .next { AfterCall (.rx 0x40#7 3 a) s with
        hStart := some (humidityOf s.params.numEval ((b0 ++ b1) &&& 0xFFFC#16)), stepIx := 6#5 }) ∧
    (AtMicroStep .selfTest 6#5 a s → a = .ok →
      exec .selfTest s = .next { AfterCall (.tx (buildRequest s.params .readUreg) [] a) s with stepIx := 7#5 }) ∧
    (AtMicroStep .selfTest 7#5 a s → a = .bytes [u] →
      exec .selfTest s = .next { AfterCall (.rx 0x40#7 1 a) s with uregBase := some u, stepIx := 8#5 }) ∧
    (AtMicroStep .selfTest 8#5 a s → a = .ok → s.uregBase = some u →
      exec .selfTest s =
        .next { AfterCall (.tx (buildRequest s.params .writeUreg) [u ||| 0x04#8] a) s with stepIx := 9#5 }) ∧
    (AtMicroStep .selfTest 9#5 a s → a = .delayed →
      exec .selfTest s = .next { AfterCall (.dly 10000) s with stepIx := 10#5 })

/-- R261, R266, R267: the micro-steps of Recheck on an answer `Ok`, the judge and the verdict. -/
def Obligations.SelfTestRecheckAndVerdict : Prop :=
  ∀ (s : State) (a : Answer) (b0 b1 b2 : Byte) (t0 h0 t1 : FBits),
    (AtMicroStep .selfTest 10#5 a s → a = .ok →
      exec .selfTest s = .next { AfterCall (.tx (buildRequest s.params .tHold) [] a) s with stepIx := 11#5 }) ∧
    (AtMicroStep .selfTest 11#5 a s → a = .delayed →
      exec .selfTest s = .next { AfterCall (.dly 90) s with stepIx := 12#5 }) ∧
    (AtMicroStep .selfTest 12#5 a s → a = .bytes [b0, b1, b2] → crc8 [b0, b1] = b2 →
      exec .selfTest s = .next { AfterCall (.rx 0x40#7 3 a) s with
        tAfter := some (temperatureOf s.params.numEval ((b0 ++ b1) &&& 0xFFFC#16)), stepIx := 13#5 }) ∧
    (AtMicroStep .selfTest 13#5 a s → a = .ok →
      exec .selfTest s = .next { AfterCall (.tx (buildRequest s.params .rhHold) [] a) s with stepIx := 14#5 }) ∧
    (AtMicroStep .selfTest 14#5 a s → a = .delayed →
      exec .selfTest s = .next { AfterCall (.dly 40) s with stepIx := 15#5 }) ∧
    (AtMicroStep .selfTest 15#5 a s → a = .bytes [b0, b1, b2] → crc8 [b0, b1] = b2 →
      s.tStart = some t0 → s.hStart = some h0 → s.tAfter = some t1 →
      exec .selfTest s =
        let h1 := humidityOf s.params.numEval ((b0 ++ b1) &&& 0xFFFC#16)
        let pass := judge s.params t0 h0 t1 h1
        .next { AfterCall (.rx 0x40#7 3 a) s with
          hAfter := some h1, verdict := some pass,
          pendErr := some (if pass = true then .noneErr else .selfTestFailed), stepIx := 16#5 })

/-- R261, R268, R269: the micro-steps of Cleanup on an answer `Ok`; the operation ends with the pending error. -/
def Obligations.SelfTestCleanup : Prop :=
  ∀ (s : State) (a : Answer) (u : Byte) (e : ErrorKind),
    (AtMicroStep .selfTest 16#5 a s → a = .ok →
      exec .selfTest s = .next { AfterCall (.tx (buildRequest s.params .readUreg) [] a) s with stepIx := 17#5 }) ∧
    (AtMicroStep .selfTest 17#5 a s → a = .bytes [u] →
      exec .selfTest s = .next { AfterCall (.rx 0x40#7 1 a) s with uregBase := some u, stepIx := 18#5 }) ∧
    (AtMicroStep .selfTest 18#5 a s → a = .ok → s.uregBase = some u → s.pendErr = some e →
      exec .selfTest s =
        .next ((AfterCall (.tx (buildRequest s.params .writeUreg) [u &&& 0xFB#8] a) s).finish e))

/-- R270: an error at micro-steps 0 to 15, from the transport or from a checksum: with `CLEANUP_ON_ABORT` and from
micro-step 8 on it becomes the pending error and cleanup runs; else it ends the operation. -/
def Obligations.SelfTestAborts : Prop :=
  ∀ (s : State) (n : BitVec 5) (a : Answer) (k : ErrorKind) (ev : Event) (u b0 b1 b2 : Byte),
    AtMicroStep .selfTest n a s →
    ((a = .err .timeout ∧ k = .timeout ∨ a = .err .ackFailure ∧ k = .transportAckFailure) ∧
        ((n, ev) ∈ [(0#5, Event.tx (buildRequest s.params .tHold) [] a),
            (2#5, .rx 0x40#7 3 a), (3#5, .tx (buildRequest s.params .rhHold) [] a), (5#5, .rx 0x40#7 3 a),
            (6#5, .tx (buildRequest s.params .readUreg) [] a), (7#5, .rx 0x40#7 1 a),
            (10#5, .tx (buildRequest s.params .tHold) [] a), (12#5, .rx 0x40#7 3 a),
            (13#5, .tx (buildRequest s.params .rhHold) [] a), (15#5, .rx 0x40#7 3 a)] ∨
          n = 8#5 ∧ s.uregBase = some u ∧ ev = .tx (buildRequest s.params .writeUreg) [u ||| 0x04#8] a) ∨
      a = .bytes [b0, b1, b2] ∧ crc8 [b0, b1] ≠ b2 ∧ k = .checksumMismatch ∧ n ∈ [2#5, 5#5, 12#5, 15#5] ∧
        ev = .rx 0x40#7 3 a) →
    exec .selfTest s =
      if s.params.cleanupOnAbort = true ∧ 8 ≤ n.toNat then
        .next { AfterCall ev s with pendErr := some k, stepIx := 16#5 }
      else .next ((AfterCall ev s).finish k)

/-- R271: an error at micro-steps 16 to 18 ends the operation; it is reported only if no earlier error is pending and
`CLEANUP_ERROR_REPORTED` holds. -/
def Obligations.SelfTestCleanupErrors : Prop :=
  ∀ (s : State) (n : BitVec 5) (e : TransportError) (k p : ErrorKind) (ev : Event) (u : Byte),
    AtMicroStep .selfTest n (.err e) s →
    (e = .timeout ∧ k = .timeout ∨ e = .ackFailure ∧ k = .transportAckFailure) → s.pendErr = some p →
    (n = 16#5 ∧ ev = .tx (buildRequest s.params .readUreg) [] (.err e) ∨
      n = 17#5 ∧ ev = .rx 0x40#7 1 (.err e) ∨
      n = 18#5 ∧ s.uregBase = some u ∧ ev = .tx (buildRequest s.params .writeUreg) [u &&& 0xFB#8] (.err e)) →
    exec .selfTest s = .next ((AfterCall ev s).finish
      (if s.params.cleanupErrorReported = true ∧ p = .noneErr then k else p))

/-- R260 to R269, R273 items 4 and 5: a whole SELF_TEST whose transport calls all succeed with valid checksums: 19
calls in order, the verdict of the judge, the error that goes with it, and no value in `RES_VAL` or `RES_UREG`. -/
def Obligations.SelfTestRunsToItsVerdict : Prop :=
  ∀ (s : State) (t00 t01 t02 h00 h01 h02 t10 t11 t12 h10 h11 h12 u v : Byte) (rest : List Input),
    s.faultMark = none → s.busy = false →
    crc8 [t00, t01] = t02 → crc8 [h00, h01] = h02 → crc8 [t10, t11] = t12 → crc8 [h10, h11] = h12 →
    s.inputs = startInput 0x6000#16 ::
      ([.ok, .delayed, .bytes [t00, t01, t02], .ok, .delayed, .bytes [h00, h01, h02], .ok, .bytes [u], .ok, .delayed,
        .ok, .delayed, .bytes [t10, t11, t12], .ok, .delayed, .bytes [h10, h11, h12], .ok, .bytes [v],
        .ok].map Input.answer ++ rest) →
    let T (b0 b1 : Byte) := temperatureOf s.params.numEval ((b0 ++ b1) &&& 0xFFFC#16)
    let H (b0 b1 : Byte) := humidityOf s.params.numEval ((b0 ++ b1) &&& 0xFFFC#16)
    let pass := judge s.params (T t00 t01) (H h00 h01) (T t10 t11) (H h10 h11)
    let req := buildRequest s.params
    Host.Core.run core 20 s = .next { s with
      op := none, stepIx := 0#5, busy := false, done := true,
      resErr := some (if pass = true then .noneErr else .selfTestFailed),
      resVal := none, resUreg := none, wpayload := none,
      tStart := some (T t00 t01), hStart := some (H h00 h01), tAfter := some (T t10 t11), hAfter := some (H h10 h11),
      uregBase := some v, verdict := some pass,
      pendErr := some (if pass = true then .noneErr else .selfTestFailed),
      inputs := rest, xans := none,
      hist := s.hist ++ [.tx (req .tHold) [] .ok, .dly 90, .rx 0x40#7 3 (.bytes [t00, t01, t02]),
        .tx (req .rhHold) [] .ok, .dly 40, .rx 0x40#7 3 (.bytes [h00, h01, h02]),
        .tx (req .readUreg) [] .ok, .rx 0x40#7 1 (.bytes [u]), .tx (req .writeUreg) [u ||| 0x04#8] .ok, .dly 10000,
        .tx (req .tHold) [] .ok, .dly 90, .rx 0x40#7 3 (.bytes [t10, t11, t12]),
        .tx (req .rhHold) [] .ok, .dly 40, .rx 0x40#7 3 (.bytes [h10, h11, h12]),
        .tx (req .readUreg) [] .ok, .rx 0x40#7 1 (.bytes [v]), .tx (req .writeUreg) [v &&& 0xFB#8] .ok] }

/-- R51, R264, R269: a user-register write SELF_TEST makes differs from the byte it rests on in bit 2 alone. -/
def Obligations.SelfTestWritesKeepTheInvariant : Prop :=
  ∀ (s s' : State) (n : BitVec 5) (a : Answer) (p : Byte) (r : Answer), AtMicroStep .selfTest n a s →
    exec .selfTest s = .next s' → s'.hist = s.hist ++ [.tx (buildRequest s.params .writeUreg) [p] r] →
    (n = 8#5 ∨ n = 18#5) ∧ r = a ∧ ∃ u, s.uregBase = some u ∧ writeKeepsInvariant u p 0x04#8 = true

/-- R274, R273 items 1 to 3: in SELF_TEST the heater observation changes at the micro-steps 8 and 18 alone. An answer
`Ok` to the heater write makes it on, one to the cleanup write makes it off, any other answer to either makes it unknown.
So an abort at the micro-steps 9 to 15 leaves it on. Which failed event makes it unknown is DEDUCED, and that an answer of
the wrong shape makes it unknown too is the model's choice (DESIGN CHOICE, both notes/assumptions/17.md). -/
def Obligations.SelfTestHeaterObservation : Prop :=
  ∀ (s s' : State) (n : BitVec 5) (a : Answer), AtMicroStep .selfTest n a s → exec .selfTest s = .next s' →
    (n ≠ 8#5 → n ≠ 18#5 → heaterObserved s.params s'.hist = heaterObserved s.params s.hist) ∧
    (n = 8#5 → a = .ok → s.uregBase.isSome = true → heaterObserved s.params s'.hist = some true) ∧
    (n = 18#5 → a = .ok → s.uregBase.isSome = true → heaterObserved s.params s'.hist = some false) ∧
    (n = 8#5 ∨ n = 18#5 → a ≠ .ok → s.uregBase.isSome = true → heaterObserved s.params s'.hist = none)

/-! ## Faults -/

/-- R78, R314: a Receive that answers `Ok` with another count of bytes sets `FAULT` with `SHORT_RX` at every receive
of every operation; the call is in the history and nothing else changes. -/
def Obligations.WrongReceiveLengthFaults : Prop :=
  ∀ (s : State) (l : List Byte) (o : HostOp) (i : BitVec 5) (n : Nat) (b : Byte),
    (o, i, n) ∈ [(HostOp.readT, 2#5, 3), (.readRh, 2#5, 3), (.readUreg, 1#5, 1), (.selfTest, 2#5, 3),
      (.selfTest, 5#5, 3), (.selfTest, 7#5, 1), (.selfTest, 12#5, 3), (.selfTest, 15#5, 3), (.selfTest, 17#5, 1)] →
    AtMicroStep o i (.bytes l) s → l.length ≠ n →
    exec (instrOfHostOp o b) s =
      .next { AfterCall (.rx 0x40#7 n (.bytes l)) s with faultMark := some .shortRx }

/-- R310: an answer of the wrong shape or an error value outside R301, at every micro-step of every operation, and an
answer to a call not made set `FAULT` with `XPORT_CONTRACT`; no register of the core changes. Which answers these are is
DEDUCED (notes/assumptions/22.md), and so is that the call made joins the history first (notes/assumptions/12.md). -/
def Obligations.AnswersOutsideTheContractFault : Prop :=
  (∀ (s : State) (a : Answer) (b : Byte) (o : HostOp) (n : BitVec 5) (ev : Event), AtMicroStep o n a s →
    microEvent o n.toNat a s = some ev → outsideContract ev a →
    exec (instrOfHostOp o b) s = .next { AfterCall ev s with faultMark := some .xportContract }) ∧
  (∀ (s : State) (a : Answer) (o : HostOp) (rest : List Input), Inv s → s.inputs = .answer a :: rest →
    s.faultMark = none → s.op = some o →
    ∃ ev, microEvent o s.stepIx.toNat a s = some ev ∧ (outsideContract ev a →
      step s = .next { s with
        inputs := rest, xans := none, hist := s.hist ++ [ev], faultMark := some .xportContract })) ∧
  (∀ (s : State) (a : Answer) (rest : List Input), s.inputs = .answer a :: rest → s.faultMark = none → s.op = none →
    step s = .next { s with inputs := rest, xans := none, faultMark := some .xportContract })

/-- R241, R59: the host's port reads: `busy` and `done` always; a result register shows its value while the core is
idle; a register that is `⊥`, and any result register while an operation runs, faults `READ_UNWRITTEN`. That the host
still reads while `FAULT` stands is DEDUCED (notes/assumptions/16.md), and that the reason of such a second fault takes
the place of the first is the model's choice (DESIGN CHOICE, notes/assumptions/8.md). -/
def Obligations.HostReadsOfResultPorts : Prop :=
  ∀ (s : State) (rest : List Input),
    let t : State := { s with inputs := rest, xans := none }
    let unwritten : Host.Outcome State Fault Refusal := .next { t with faultMark := some .readUnwritten }
    (s.inputs = .read .busy :: rest → step s = .next { t with portOut := some (.busy s.busy) }) ∧
    (s.inputs = .read .done :: rest → step s = .next { t with portOut := some (.done s.done) }) ∧
    (s.inputs = .read .resErr :: rest →
      (∀ e, s.busy = false → s.resErr = some e → step s = .next { t with portOut := some (.resErr e.code) }) ∧
      (s.busy = true ∨ s.resErr = none → step s = unwritten)) ∧
    (s.inputs = .read .resVal :: rest →
      (∀ v, s.busy = false → s.resVal = some v → step s = .next { t with portOut := some (.resVal v) }) ∧
      (s.busy = true ∨ s.resVal = none → step s = unwritten)) ∧
    (s.inputs = .read .resUreg :: rest →
      (∀ u, s.busy = false → s.resUreg = some u → step s = .next { t with portOut := some (.resUreg u) }) ∧
      (s.busy = true ∨ s.resUreg = none → step s = unwritten))

/-- R44, R312: while `FAULT` stands CORE has no step; without a fault, a running operation to which XPORT never answers
is stuck; and an idle core to which nothing happens stays as it is (the last is the model's choice,
notes/assumptions/5.md). -/
def Obligations.HaltedStuckAndIdle : Prop :=
  ∀ s : State,
    (∀ r a rest, s.faultMark = some r → s.inputs = .answer a :: rest → step s = .fault (.halted r)) ∧
    (s.faultMark = none → s.busy = true → s.inputs = [] → step s = .fault .stuck) ∧
    (s.faultMark = none → s.busy = false → s.inputs = [] → step s = .next s)

/-! ## The step and the encodings -/

/-- What a step runs: the instruction the decoder reads from the bits the host drives, at the state with that input
taken; and, when XPORT answers, the instruction of the running operation, with the answer on the transport port, rebuilt
from `OP` and `WPAYLOAD` (DEDUCED, notes/assumptions/14.md). Of the bits that decode to no instruction, the selector 7 sets
`REFUSED` (R105), in the place of an earlier reason where it is already set (DESIGN CHOICE, notes/assumptions/8.md); a
16-bit word that is no frame (R109) and a bit string of another width are refused by name (DEDUCED,
notes/assumptions/18.md). -/
def Obligations.StepRunsTheDecodedInstruction : Prop :=
  (∀ (s : State) (w : PortWord) (i : Instr) (rest : List Input), s.inputs = .drive w :: rest →
    decode s.params w = .instr i → step s = exec i { s with inputs := rest, xans := none }) ∧
  (∀ (s : State) (a : Answer) (o : HostOp) (rest : List Input), s.inputs = .answer a :: rest → s.op = some o →
    step s = exec (instrOfHostOp o (s.wpayload.getD 0#8)) { s with inputs := rest, xans := some a }) ∧
  (∀ (s : State) (w : PortWord) (rest : List Input), s.inputs = .drive w :: rest →
    (decode s.params w = .reject .badCmdsel →
      step s = .next { s with inputs := rest, xans := none, refusedMark := some .badCmdsel }) ∧
    (decode s.params w = .reject .notAFrame → step s = .refused .notAFrame) ∧
    (decode s.params w = .reject .badWidth → step s = .refused .badWidth))

/-- R104, R116, R117, R105: words of each family, written out from their fields, decode to what they stand for, and
words outside decode to a rejection by name. The ports of setResolution, of checkCrc and of the converters, and the place
of their operands in the word, are the model's choice (DESIGN CHOICE, notes/assumptions/6.md). -/
def Obligations.KnownWordsDecode : Prop :=
  decode Config.params ⟨.frame, 16, 0b1000000111100011⟩ = .instr .cmdTHold ∧
  decode Config.params ⟨.frame, 16, 0b1000000011100110⟩ = .instr .cmdWriteUreg ∧
  decode Config.params ⟨.frame, 16, 0b1000000111100110⟩ = .reject .notAFrame ∧
  decode Config.params ⟨.opWord, 16, 0b0001000000000000⟩ = .instr .readT ∧
  decode Config.params ⟨.opWord, 16, 0b0100000000111011⟩ = .instr (.writeUreg 0x3B#8) ∧
  decode Config.params ⟨.opWord, 16, 0b0110000000000000⟩ = .instr .selfTest ∧
  decode Config.params ⟨.opWord, 16, 0b0111000000000000⟩ = .reject .illegalOp ∧
  decode Config.params ⟨.opWord, 16, 0b0100000100000000⟩ = .reject .illegalOp ∧
  decode Config.params ⟨.bldCmdsel, 3, 0b101⟩ = .instr (.buildRequest 5#3) ∧
  decode Config.params ⟨.bldCmdsel, 3, 0b111⟩ = .reject .badCmdsel ∧
  decode Config.params ⟨.setResolution, 10, 0b0011101001⟩ = .instr (.setResolution 0x3A#8 0b01#2) ∧
  decode Config.params ⟨.crcOk, 24, 0x683A7C⟩ = .instr (.checkCrc [0x68#8, 0x3A#8] 0x7C#8) ∧
  decode Config.params ⟨.cvTemp, 24, 0x683A7C⟩ = .instr (.toTemperature 0x68#8 0x3A#8 0x7C#8)

/-- Decoding the encoding of a well-formed instruction gives it back, for every instruction, operand and parameter
record. -/
def Obligations.DecodeOfEncodeIsTheInstruction : Prop :=
  ∀ (p : Params) (i : Instr), p.wf → i.wf p → decode p (encode p i) = .instr i

/-- Each bit string has one meaning: what decodes to an instruction is the encoding of that instruction, and the
instruction is well formed. -/
def Obligations.EncodeOfDecodeIsTheWord : Prop :=
  ∀ (p : Params) (w : PortWord) (i : Instr), p.wf → decode p w = .instr i → i.wf p ∧ encode p i = w

/-- R119: the payloads of HEATER_ON, HEATER_OFF and SET_RES, each of which keeps the write invariant for the fields it
names; the host starts WRITE_UREG with it if the read succeeded, and issues no write if `RES_UREG` is `⊥`. The host's act
`pseudoWrite` between the two operations is the model's choice (notes/assumptions/21.md). -/
def Obligations.PseudoInstructionsKeepTheInvariant : Prop :=
  (∀ u : Byte, Pseudo.heaterOn.payload u = u ||| 0x04#8 ∧ Pseudo.heaterOff.payload u = u &&& 0xFB#8 ∧
    ∀ r : BitVec 2, (Pseudo.setRes r).payload u =
      (u &&& 0x7E#8) ||| ((r.extractLsb' 1 1).setWidth 8 <<< 7) ||| (r.extractLsb' 0 1).setWidth 8) ∧
  (Pseudo.heaterOn.changed = 0x04#8 ∧ Pseudo.heaterOff.changed = 0x04#8 ∧
    ∀ r : BitVec 2, (Pseudo.setRes r).changed = 0x81#8) ∧
  (∀ (p : Pseudo) (u : Byte), writeKeepsInvariant u (p.payload u) p.changed = true) ∧
  (∀ (s : State) (p : Pseudo) (rest : List Input), s.inputs = .pseudoWrite p :: rest → s.busy = false →
    (∀ u, s.resUreg = some u →
      step s = .next { s with inputs := startInput (0x40#8 ++ p.payload u) :: rest, xans := none }) ∧
    (s.resUreg = none → step s = .next { s with inputs := rest, xans := none }))

/-! ## Reset -/

/-- R340: the registers after power-on reset. -/
def Obligations.ResetValues : Prop :=
  let s := State.reset
  s.op = none ∧ s.stepIx = 0#5 ∧ s.busy = false ∧ s.done = false ∧ s.resErr = none ∧ s.resVal = none ∧
  s.resUreg = none ∧ s.wpayload = none ∧ s.tStart = none ∧ s.hStart = none ∧ s.tAfter = none ∧ s.hAfter = none ∧
  s.uregBase = none ∧ s.verdict = none ∧ s.pendErr = none ∧ s.faultMark = none ∧ s.refusedMark = none ∧ s.hist = []

/-- R340: reset sets every register to its reset value, at power-on with an empty history; a later `rst` event, in any
state, an operation running or not, appends `RST` to the history and keeps the earlier events. The parameters stay. -/
def Obligations.RstEventResetsTheCore : Prop :=
  let clean (t : State) : Prop :=
    t.op = none ∧ t.stepIx = 0#5 ∧ t.busy = false ∧ t.done = false ∧ t.resErr = none ∧ t.resVal = none ∧
    t.resUreg = none ∧ t.wpayload = none ∧ t.tStart = none ∧ t.hStart = none ∧ t.tAfter = none ∧ t.hAfter = none ∧
    t.uregBase = none ∧ t.verdict = none ∧ t.pendErr = none ∧ t.faultMark = none ∧ t.refusedMark = none
  (clean State.reset ∧ State.reset.hist = []) ∧
  ∀ (s : State) (rest : List Input), s.inputs = .rst :: rest → ∃ t, step s = .next t ∧ clean t ∧
    t.hist = s.hist ++ [.rst] ∧ t.params = s.params

/-! ## Every step -/

/-- The invariant of the control registers holds at reset. -/
def Obligations.ResetMeetsTheInvariant : Prop := Inv State.reset

/-- Every step keeps the invariant of the control registers: `OP` and `BUSY` agree, `STEP` names a micro-step, the
result registers hold values only beside `NONE_ERR`, and each scratch register holds a value where a later micro-step
reads it. -/
def Obligations.StepKeepsTheInvariant : Prop := ∀ s s' : State, Inv s → step s = .next s' → Inv s'

/-- Under the invariant no rule of CORE reads a register that is `⊥` and `STEP` always names a micro-step, so a CORE
step without a fault always answers a next state. -/
def Obligations.CoreStepsReadNoUnwrittenRegister : Prop :=
  ∀ (s : State) (a : Answer) (rest : List Input), Inv s → s.faultMark = none → s.inputs = .answer a :: rest →
    ∃ s', step s = .next s' ∧ s'.faultMark ≠ some .readUnwritten

/-- R46: every step keeps the float registers finite values of the format F. -/
def Obligations.StepKeepsFloatRegistersFinite : Prop :=
  ∀ s s' : State, InvFloats s → step s = .next s' → InvFloats s'

/-- R344: no step changes a parameter. -/
def Obligations.NoStepChangesAParameter : Prop :=
  ∀ s s' : State, step s = .next s' → s'.params = s.params

/-- R44: no step clears `FAULT` or `REFUSED`, except the `rst` event. -/
def Obligations.MarksAreSticky : Prop :=
  ∀ s s' : State, step s = .next s' → (∀ rest, s.inputs ≠ .rst :: rest) →
    (s.faultMark.isSome = true → s'.faultMark.isSome = true) ∧
    (s.refusedMark.isSome = true → s'.refusedMark.isSome = true)

/-- R221: the history only grows, by at most one event a step; under the invariant a CORE step adds exactly one, and a
step of the host other than `rst` adds none. -/
def Obligations.HistoryOnlyGrows : Prop :=
  ∀ s s' : State, step s = .next s' →
    (∃ ev, s'.hist = s.hist ++ ev ∧ ev.length ≤ 1) ∧
    (Inv s → s.busy = true → ∀ a rest, s.inputs = .answer a :: rest → ∃ e, s'.hist = s.hist ++ [e]) ∧
    ((∀ a rest, s.inputs ≠ .answer a :: rest) → (∀ rest, s.inputs ≠ .rst :: rest) → s'.hist = s.hist)

/-- R79, R240: every event a step adds is one of the transport calls R79 lists, with its width, or the `RST` event; so
the non-hold commands are never transmitted. -/
def Obligations.EveryCallIsListed : Prop :=
  ∀ s s' : State, step s = .next s' → s.hist.all (listedEvent s.params) = true →
    s'.hist.all (listedEvent s'.params) = true

/-- R59, R321: a combinational instruction always completes and touches no register of the core: only the port's own
output and, for the selector 7, the mark `REFUSED` change. Where `REFUSED` is already set, that the reason `BAD_CMDSEL`
takes the place of the earlier one is the model's choice (DESIGN CHOICE, notes/assumptions/8.md). -/
def Obligations.CombinationalPortsTouchNoRegister : Prop :=
  ∀ (i : Instr) (s : State), i.combinational →
    (∃ v, exec i s = .next { s with portOut := some v }) ∨
    i = .buildRequest 7#3 ∧ exec i s = .next { s with refusedMark := some .badCmdsel }

/-- R35 to R37, R39 to R42: which registers a step of CORE may write: outside SELF_TEST the scratch registers stay, in
SELF_TEST the result values stay, and `WPAYLOAD` and `REFUSED` stay always. -/
def Obligations.CoreStepsKeepTheOtherRegisters : Prop :=
  ∀ (s s' : State) (a : Answer) (rest : List Input), s.inputs = .answer a :: rest → step s = .next s' →
    s'.wpayload = s.wpayload ∧ s'.refusedMark = s.refusedMark ∧ s'.portOut = s.portOut ∧ s'.inputs = rest ∧
    (s.op ≠ some .selfTest → s'.tStart = s.tStart ∧ s'.hStart = s.hStart ∧ s'.tAfter = s.tAfter ∧
      s'.hAfter = s.hAfter ∧ s'.uregBase = s.uregBase ∧ s'.verdict = s.verdict ∧ s'.pendErr = s.pendErr) ∧
    (s.op ≠ some .readT → s.op ≠ some .readRh → s'.resVal = s.resVal) ∧
    (s.op ≠ some .readUreg → s'.resUreg = s.resUreg)

/-- R302: the errors each operation can end with. -/
def Obligations.ErrorsEachOperationCanEndWith : Prop :=
  ∀ (s s' : State) (o : HostOp) (a : Answer) (rest : List Input), Inv s → s.op = some o →
    s.inputs = .answer a :: rest → step s = .next s' → s'.done = true →
    s'.resErr ∈ (match o with
      | .readT | .readRh => [some .noneErr, some .timeout, some .transportAckFailure, some .checksumMismatch]
      | .readUreg | .writeUreg | .softReset => [some .noneErr, some .timeout, some .transportAckFailure]
      | .selfTest => [some .noneErr, some .timeout, some .transportAckFailure, some .checksumMismatch,
          some .selfTestFailed] : List (Option ErrorKind))

/-- R312: every answered micro-step either faults, ends the operation, or moves `STEP` forward. -/
def Obligations.EveryMicroStepAdvancesOrEnds : Prop :=
  ∀ (s s' : State) (a : Answer) (rest : List Input), Inv s → s.busy = true → s.inputs = .answer a :: rest →
    step s = .next s' →
    s'.faultMark.isSome = true ∨ s'.busy = false ∨ s.stepIx.toNat < s'.stepIx.toNat ∧ s'.op = s.op

/-- R312: the core cannot hang by itself: within 19 answered calls a running operation has ended or has faulted, which an
answer outside the contract or of a wrong length makes it do (R310, R314). A faulted operation has not ended. -/
def Obligations.OperationEndsOrFaultsWithinNineteenAnswers : Prop :=
  ∀ (s : State) (as : List Answer) (rest : List Input), Inv s → s.faultMark = none → s.busy = true →
    as.length = 19 → s.inputs = as.map Input.answer ++ rest →
    ∃ (n : Nat) (s' : State), n ≤ 19 ∧ Host.Core.run core n s = .next s' ∧
      (s'.busy = false ∧ s'.done = true ∨ s'.faultMark.isSome = true)
end

