-- ==== Sys2Proof/Laws/Encoding.lean ====
section
/-! SUPPORT. Facts of the encodings: bytes and numbers, frames and commands, host words. -/

namespace Sys2Proof

theorem bytesBE_length (n v : Nat) : (bytesBE n v).length = n := by
  induction n with
  | zero => rfl
  | succ n ih => simp [bytesBE, ih]

theorem numBE_append (l : List Byte) (b : Byte) : numBE (l ++ [b]) = numBE l * 256 + b.toNat := by
  simp [numBE]

/-- The bytes of a number, its last byte split off. -/
theorem bytesBE_snoc (n v : Nat) : bytesBE (n + 1) v = bytesBE n (v / 256) ++ [BitVec.ofNat 8 v] := by
  induction n with
  | zero => simp [bytesBE]
  | succ n ih =>
    rw [bytesBE, ih, bytesBE, List.cons_append, Nat.div_div_eq_div_mul, Nat.pow_succ, Nat.mul_comm]

/-- The bytes of a list's number are the list. -/
theorem bytesBE_numBE (l : List Byte) : bytesBE l.length (numBE l) = l := by
  induction l using List.reverseRecOn with
  | nil => rfl
  | append_singleton l b ih =>
    rw [List.length_append, List.length_singleton, bytesBE_snoc, numBE_append]
    have hb := b.isLt
    have h1 : (numBE l * 256 + b.toNat) / 256 = numBE l := by omega
    have h2 : BitVec.ofNat 8 (numBE l * 256 + b.toNat) = b := by
      apply BitVec.eq_of_toNat_eq
      simp only [BitVec.toNat_ofNat]
      omega
    rw [h1, ih, h2]

/-- The number of a list's bytes fits in its bits. -/
theorem numBE_lt (l : List Byte) : numBE l < 2 ^ (8 * l.length) := by
  induction l using List.reverseRecOn with
  | nil => simp [numBE]
  | append_singleton l b ih =>
    have hb := b.isLt
    rw [numBE_append, List.length_append, List.length_singleton, Nat.mul_add, Nat.pow_add]
    omega

@[simp] theorem frameCode_frameWord (a : BitVec 7) (d : BitVec 1) (k : Byte) : frameCode (frameWord a d k) = k := by
  ext i hi
  have h : (a ++ d ++ k).getLsbD i = _ := BitVec.getLsbD_append
  simp only [frameCode, frameWord, BitVec.getElem_extractLsb', Nat.zero_add]
  rw [h]
  simp [hi]

/-- Distinct codes make distinct frames. -/
theorem buildRequest_injective {p : Params} (hp : p.cmdCode.wf) {c d : Command}
    (h : buildRequest p c = buildRequest p d) : c = d := by
  have hc : p.cmdCode.code c = p.cmdCode.code d := by simpa [buildRequest] using congrArg frameCode h
  simp only [CmdCodes.wf, CmdCodes.toList] at hp
  cases c <;> cases d <;> simp_all [CmdCodes.code]

/-- A frame of the core is the frame of its command alone. -/
theorem commandOfFrame_buildRequest {p : Params} (hp : p.cmdCode.wf) (c : Command) :
    commandOfFrame p (buildRequest p c) = some c := by
  have h : ∀ d, (buildRequest p d == buildRequest p c) = decide (d = c) := fun d => by
    by_cases hd : d = c
    · simp [hd]
    · have : buildRequest p d ≠ buildRequest p c := fun e => hd (buildRequest_injective hp e)
      simp [hd, this]
  cases c <;> simp [commandOfFrame, h]

/-- The bits of a host word built from its fields. -/
theorem opWordOf_getLsbD (o : HostOp) (b : Byte) (i : Nat) : (opWordOf o b).getLsbD i =
    if i < 8 then b.getLsbD i else if i < 12 then false else o.code.getLsbD (i - 12) := by
  have h : (o.code ++ 0#4 ++ b).getLsbD i = _ := BitVec.getLsbD_append
  have h2 : (o.code ++ 0#4).getLsbD (i - 8) = _ := BitVec.getLsbD_append
  rw [opWordOf, h, h2]
  by_cases h8 : i < 8
  · simp [h8]
  · by_cases h12 : i < 12
    · simp [h8, h12]
      omega
    · have : ¬ i - 8 < 4 := by omega
      simp [h8, h12, this, show i - 8 - 4 = i - 12 by omega]

/-- The fields of a host word built from them. -/
theorem wordFields_opWordOf (o : HostOp) (b : Byte) :
    wordOpc (opWordOf o b) = o.code ∧ wordZ (opWordOf o b) = 0#4 ∧ wordImm8 (opWordOf o b) = b := by
  refine ⟨?_, ?_, ?_⟩ <;> ext i hi <;>
    simp only [wordOpc, wordZ, wordImm8, BitVec.getElem_extractLsb', opWordOf_getLsbD]
  · simp [show ¬ 12 + i < 8 by omega, BitVec.getLsbD_eq_getElem hi]
  · simp [show 8 + i < 12 by omega]
  · simp [hi]

/-- The word of an operation decodes to the operation. -/
theorem instrOfOpWord_opWordOf (o : HostOp) (b : Byte) (h : o = .writeUreg ∨ b = 0#8) :
    instrOfOpWord (opWordOf o b) = some (instrOfHostOp o b) := by
  obtain ⟨h1, h2, h3⟩ := wordFields_opWordOf o b
  simp only [instrOfOpWord, h1, h2, h3]
  cases o <;> simp_all [HostOp.code, instrOfHostOp]

end Sys2Proof
end

