-- ==== Sys2Proof/Laws/Float.lean ====
section
/-! SUPPORT. What rounding does: the value of a magnitude pattern, the nearest natural number, and the significand
`roundMag` picks (00_scope.md R10). Proofs about rounding cite these and do not unfold `roundMag`. -/

namespace Sys2Proof.Machine

/-- The value of a magnitude pattern, from its exponent and fraction fields. -/
def magVal (f : Fmt) (b : Nat) : ℚ :=
  if b / 2 ^ f.fracBits = 0 then ((b % 2 ^ f.fracBits : Nat) : ℚ) * (2 : ℚ) ^ f.minExp
  else ((2 ^ f.fracBits + b % 2 ^ f.fracBits : Nat) : ℚ) * (2 : ℚ) ^ (f.minExp + (b / 2 ^ f.fracBits : Nat) - 1)

theorem two_zpow_pos (e : ℤ) : (0 : ℚ) < 2 ^ e := zpow_pos (by norm_num) e

theorem two_zpow_add (a b : ℤ) : (2 : ℚ) ^ (a + b) = 2 ^ a * 2 ^ b := zpow_add₀ (by norm_num) a b

/-- A significand of at most fracBits + 2 bits in steps of 2^(minExp + t) is a pattern whose value it is; its carry
moves into the exponent field. -/
theorem magVal_significand (f : Fmt) {t m : Nat} (hm : m ≤ 2 ^ (f.fracBits + 1)) (ht : t = 0 ∨ 2 ^ f.fracBits ≤ m) :
    magVal f (t * 2 ^ f.fracBits + m) = m * (2 : ℚ) ^ (f.minExp + t) := by
  have hp : 0 < 2 ^ f.fracBits := by positivity
  rw [pow_succ] at hm
  unfold magVal
  obtain h | h | h : m < 2 ^ f.fracBits ∨ (2 ^ f.fracBits ≤ m ∧ m < 2 * 2 ^ f.fracBits) ∨ m = 2 * 2 ^ f.fracBits := by
    omega
  · obtain rfl : t = 0 := by omega
    simp [Nat.div_eq_of_lt h, Nat.mod_eq_of_lt h]
  · obtain ⟨r, rfl⟩ := Nat.exists_eq_add_of_le h.1
    have hr : r < 2 ^ f.fracBits := by omega
    rw [show t * 2 ^ f.fracBits + (2 ^ f.fracBits + r) = r + (t + 1) * 2 ^ f.fracBits by ring,
      Nat.add_mul_div_right _ _ hp, Nat.add_mul_mod_self_right, Nat.div_eq_of_lt hr, Nat.mod_eq_of_lt hr,
      if_neg (by omega)]
    congr 2
    push_cast
    ring
  · subst h
    rw [show t * 2 ^ f.fracBits + 2 * 2 ^ f.fracBits = 0 + (t + 2) * 2 ^ f.fracBits by ring,
      Nat.add_mul_div_right _ _ hp, Nat.add_mul_mod_self_right, Nat.zero_div, Nat.zero_mod, if_neg (by omega),
      show f.minExp + ((0 + (t + 2) : Nat) : ℤ) - 1 = f.minExp + t + 1 by push_cast; ring, two_zpow_add (f.minExp + t)]
    push_cast
    ring

/-- Every pattern is a significand and a step. -/
theorem exists_significand (f : Fmt) (b : Nat) : ∃ t m : Nat, m < 2 ^ (f.fracBits + 1) ∧ (t = 0 ∨ 2 ^ f.fracBits ≤ m) ∧
    b = t * 2 ^ f.fracBits + m := by
  have hp : 0 < 2 ^ f.fracBits := by positivity
  have hb := Nat.div_add_mod b (2 ^ f.fracBits)
  have hr := Nat.mod_lt b hp
  rw [pow_succ]
  rcases Nat.eq_zero_or_pos (b / 2 ^ f.fracBits) with h | h
  · exact ⟨0, b, by rw [h] at hb; omega, .inl rfl, by simp⟩
  · obtain ⟨t, ht⟩ := Nat.exists_eq_add_of_lt h
    rw [ht] at hb
    exact ⟨t, 2 ^ f.fracBits + b % 2 ^ f.fracBits, by omega, .inr (by omega), hb.symm.trans (by ring)⟩

/-- The nearest natural number is within one half, and is even at one half. -/
theorem divNearestEven_half (a : Nat) {b : Nat} (hb : 0 < b) :
    |(divNearestEven a b : ℚ) - a / b| ≤ 1 / 2 ∧
    (|(divNearestEven a b : ℚ) - a / b| = 1 / 2 → divNearestEven a b % 2 = 0) := by
  have hq : (0 : ℚ) < b := by exact_mod_cast hb
  have hab : (a : ℚ) / b = (a / b : Nat) + ((a % b : Nat) : ℚ) / b := by
    have : (a : ℚ) = b * (a / b : Nat) + (a % b : Nat) := by exact_mod_cast (Nat.div_add_mod a b).symm
    field_simp
    linarith
  rw [hab]
  have hr : ((a % b : Nat) : ℚ) / b < 1 := by rw [div_lt_one hq]; exact_mod_cast Nat.mod_lt a hb
  have h0 : 0 ≤ ((a % b : Nat) : ℚ) / b := by positivity
  have hlt : 2 * (a % b) < b ↔ ((a % b : Nat) : ℚ) / b < 1 / 2 := by
    rw [div_lt_iff₀ hq]
    constructor <;> intro h
    · have : (2 : ℚ) * (a % b : Nat) < b := by exact_mod_cast h
      linarith
    · have : (2 : ℚ) * (a % b : Nat) < b := by linarith
      exact_mod_cast this
  have hgt : b < 2 * (a % b) ↔ 1 / 2 < ((a % b : Nat) : ℚ) / b := by
    rw [lt_div_iff₀ hq]
    constructor <;> intro h
    · have : (b : ℚ) < 2 * (a % b : Nat) := by exact_mod_cast h
      linarith
    · have : (b : ℚ) < 2 * (a % b : Nat) := by linarith
      exact_mod_cast this
  unfold divNearestEven
  dsimp only
  generalize ((a % b : Nat) : ℚ) / b = y at *
  split_ifs with h1 h2
  · rw [hlt] at h1
    rw [show ((a / b : Nat) : ℚ) - ((a / b : Nat) + y) = -y by ring, abs_neg, abs_of_nonneg h0]
    exact ⟨h1.le, fun h => absurd h h1.ne⟩
  · rw [hgt] at h2
    rw [show ((a / b + 1 : Nat) : ℚ) - ((a / b : Nat) + y) = 1 - y by push_cast; ring, abs_of_nonneg (by linarith)]
    exact ⟨by linarith, fun h => absurd h (by linarith)⟩
  · rw [hlt, not_lt] at h1
    rw [hgt, not_lt] at h2
    obtain rfl : y = 1 / 2 := le_antisymm h2 h1
    refine ⟨?_, fun _ => by omega⟩
    obtain h | h := Nat.mod_two_eq_zero_or_one (a / b) <;> rw [h] <;> push_cast
    · rw [show ((a / b : Nat) : ℚ) + 0 - ((a / b : Nat) + 1 / 2) = -(1 / 2) by ring, abs_neg, abs_of_pos (by norm_num)]
    · rw [show ((a / b : Nat) : ℚ) + 1 - ((a / b : Nat) + 1 / 2) = 1 / 2 by ring, abs_of_pos (by norm_num)]

/-- `floorLog2` is the floor of the binary logarithm. -/
theorem floorLog2_spec {n d : Nat} (hn : 0 < n) (hd : 0 < d) :
    (2 : ℚ) ^ floorLog2 n d ≤ n / d ∧ (n : ℚ) / d < 2 ^ (floorLog2 n d + 1) := by
  have hdq : (0 : ℚ) < d := by exact_mod_cast hd
  have key (l : ℤ) : d * 2 ^ l.toNat ≤ n * 2 ^ (-l).toNat ↔ (2 : ℚ) ^ l ≤ n / d := by
    have h2 : (2 : ℚ) ^ l = 2 ^ l.toNat / 2 ^ (-l).toNat := by
      rw [eq_div_iff (by positivity), ← zpow_natCast, ← zpow_natCast, ← two_zpow_add]
      congr 1
      omega
    rw [h2, div_le_div_iff₀ (by positivity) hdq]
    constructor <;> intro h
    · have : (d : ℚ) * 2 ^ l.toNat ≤ n * 2 ^ (-l).toNat := by exact_mod_cast h
      linarith
    · have : (d : ℚ) * 2 ^ l.toNat ≤ n * 2 ^ (-l).toNat := by linarith
      exact_mod_cast this
  have hn1 : (2 : ℚ) ^ (n.log2 : ℤ) ≤ n := by
    rw [zpow_natCast]; exact_mod_cast Nat.log2_self_le (by omega)
  have hn2 : (n : ℚ) < 2 ^ ((n.log2 : ℤ) + 1) := by
    have := Nat.lt_log2_self (n := n)
    exact_mod_cast this
  have hd1 : (2 : ℚ) ^ (d.log2 : ℤ) ≤ d := by
    rw [zpow_natCast]; exact_mod_cast Nat.log2_self_le (by omega)
  have hd2 : (d : ℚ) < 2 ^ ((d.log2 : ℤ) + 1) := by
    have := Nat.lt_log2_self (n := d)
    exact_mod_cast this
  unfold floorLog2
  dsimp only
  set l : ℤ := (n.log2 : ℤ) - d.log2 with hl
  split_ifs with h
  · refine ⟨(key l).1 h, ?_⟩
    rw [div_lt_iff₀ hdq]
    calc (n : ℚ) < 2 ^ ((n.log2 : ℤ) + 1) := hn2
      _ = 2 ^ (l + 1) * 2 ^ (d.log2 : ℤ) := by rw [← two_zpow_add]; congr 1; omega
      _ ≤ 2 ^ (l + 1) * d := by gcongr
  · rw [key, not_le] at h
    refine ⟨?_, by simpa using h⟩
    rw [le_div_iff₀ hdq]
    calc (2 : ℚ) ^ (l - 1) * d ≤ 2 ^ (l - 1) * 2 ^ ((d.log2 : ℤ) + 1) := by gcongr
      _ = 2 ^ (n.log2 : ℤ) := by rw [← two_zpow_add]; congr 1; omega
      _ ≤ n := hn1

/-- Rounding to the quantum 2^(minExp + t): the significand `m` is within one half of the exact one, and even at one
half; a quantum above the smallest has a full significand. -/
theorem roundMag_significand (f : Fmt) {n d : Nat} (e : ℤ) (hn : 0 < n) (hd : 0 < d) : ∃ (t m : Nat) (y : ℚ),
    roundMag f n d e = min (t * 2 ^ f.fracBits + m) f.infPat ∧ (n : ℚ) / d * 2 ^ e = y * 2 ^ (f.minExp + t) ∧
    |(m : ℚ) - y| ≤ 1 / 2 ∧ (|(m : ℚ) - y| = 1 / 2 → m % 2 = 0) ∧
    (t = 0 ∨ (2 : ℚ) ^ f.fracBits ≤ y) ∧ 0 < y ∧ y < 2 ^ (f.fracBits + 1) := by
  obtain ⟨hl, hu⟩ := floorLog2_spec hn hd
  have hdq : (0 : ℚ) < d := by exact_mod_cast hd
  have hnq : (0 : ℚ) < n := by exact_mod_cast hn
  unfold roundMag
  rw [if_neg (by omega)]
  dsimp only
  set q : ℤ := max (floorLog2 n d + e - f.fracBits) f.minExp with hq
  obtain ⟨t, ht⟩ : ∃ t : Nat, q = f.minExp + t := ⟨(q - f.minExp).toNat, by omega⟩
  have hy : ((n * 2 ^ (e - q).toNat : Nat) : ℚ) / ((d * 2 ^ (q - e).toNat : Nat) : ℚ) = n / d * 2 ^ (e - q) := by
    have h2 : (2 : ℚ) ^ (e - q) = 2 ^ (e - q).toNat / 2 ^ (q - e).toNat := by
      rw [eq_div_iff (by positivity), ← zpow_natCast, ← zpow_natCast, ← two_zpow_add]
      congr 1
      omega
    rw [h2]
    push_cast
    field_simp
  have hm := divNearestEven_half (n * 2 ^ (e - q).toNat) (b := d * 2 ^ (q - e).toNat) (by positivity)
  rw [hy] at hm
  refine ⟨t, _, n / d * 2 ^ (e - q), ?_, ?_, hm.1, hm.2, ?_, by positivity, ?_⟩
  · rw [show (q - f.minExp).toNat = t by omega]
  · rw [mul_assoc, ← two_zpow_add]
    congr 2
    omega
  · rcases Nat.eq_zero_or_pos t with h | h
    · exact .inl h
    · right
      calc (2 : ℚ) ^ f.fracBits = 2 ^ floorLog2 n d * 2 ^ (e - q) := by
            rw [← two_zpow_add, ← zpow_natCast]; congr 1; omega
        _ ≤ n / d * 2 ^ (e - q) := by gcongr
  · calc (n : ℚ) / d * 2 ^ (e - q) < 2 ^ (floorLog2 n d + 1) * 2 ^ (e - q) := by
          have := two_zpow_pos (e - q); gcongr
      _ = 2 ^ (floorLog2 n d + 1 + (e - q)) := (two_zpow_add _ _).symm
      _ ≤ 2 ^ ((f.fracBits + 1 : Nat) : ℤ) := zpow_le_zpow_right₀ (by norm_num) (by omega)
      _ = 2 ^ (f.fracBits + 1) := zpow_natCast _ _

/-- A natural number within one half of a real is nearest to it among the natural numbers. -/
theorem nearest_of_half {m k : Nat} {y : ℚ} (h : |(m : ℚ) - y| ≤ 1 / 2) :
    |(m : ℚ) - y| ≤ |(k : ℚ) - y| ∧ (k ≠ m → |(m : ℚ) - y| = |(k : ℚ) - y| → |(m : ℚ) - y| = 1 / 2) := by
  by_cases hk : k = m
  · subst hk; simp
  have h1 : 1 ≤ |(k : ℚ) - m| := by
    have : (1 : ℤ) ≤ |(k : ℤ) - m| := Int.one_le_abs (by omega)
    exact_mod_cast this
  have h2 : |(k : ℚ) - m| ≤ |(k : ℚ) - y| + |(m : ℚ) - y| := by
    rw [abs_sub_comm (m : ℚ) y]; exact abs_sub_le _ _ _
  exact ⟨by linarith, fun _ he => by linarith⟩

/-- How the widths of the formats relate. -/
theorem fmt_widths (f : Fmt) : 2 ^ f.width = 2 * f.signPat ∧ f.signPat = 2 ^ f.expBits * 2 ^ f.fracBits ∧
    f.infPat = (2 ^ f.expBits - 1) * 2 ^ f.fracBits ∧ f.width ≤ 64 ∧ 8 ≤ f.expBits ∧ 1 ≤ f.fracBits := by
  cases f <;> decide

/-- A pattern built from its sign and magnitude is an infinity or has the value of its magnitude. -/
theorem realOf_signed (f : Fmt) (neg : Bool) {b : Nat} (hb : b ≤ f.infPat) :
    (b = f.infPat → unpack f (signed f neg b) = .inf neg) ∧
    (b < f.infPat → realOf f (signed f neg b) = some (if neg then -magVal f b else magVal f b)) ∧
    (signed f neg b).toNat % 2 = b % 2 := by
  obtain ⟨h1, h2, h3, h4, h5, h6⟩ := fmt_widths f
  have hlt : b < f.signPat := by
    have : 0 < 2 ^ f.fracBits := by positivity
    have : 0 < 2 ^ f.expBits := by positivity
    have : (2 ^ f.expBits - 1) * 2 ^ f.fracBits < 2 ^ f.expBits * 2 ^ f.fracBits := by
      apply Nat.mul_lt_mul_of_pos_right <;> omega
    omega
  have hw : 2 ^ f.width ≤ 2 ^ 64 := Nat.pow_le_pow_right (by norm_num) h4
  have hn : (signed f neg b).toNat = if neg then f.signPat + b else b := by
    unfold signed
    rw [BitVec.toNat_ofNat, Nat.mod_eq_of_lt]
    split <;> omega
  have hs : 0 < f.signPat := by omega
  have hneg : ((signed f neg b).toNat % 2 ^ f.width / f.signPat == 1) = neg := by
    rw [hn]
    cases neg
    · rw [if_neg (by simp), Nat.mod_eq_of_lt (by omega), Nat.div_eq_of_lt hlt]; rfl
    · rw [if_pos rfl, Nat.mod_eq_of_lt (by omega), Nat.add_div_left _ hs, Nat.div_eq_of_lt hlt]; rfl
  have hmag : (signed f neg b).toNat % 2 ^ f.width % f.signPat = b := by
    rw [hn]
    cases neg
    · rw [if_neg (by simp), Nat.mod_eq_of_lt (b := 2 ^ f.width) (by omega), Nat.mod_eq_of_lt hlt]
    · rw [if_pos rfl, Nat.mod_eq_of_lt (b := 2 ^ f.width) (by omega), Nat.add_mod_left, Nat.mod_eq_of_lt hlt]
  have hp : 0 < 2 ^ f.fracBits := by positivity
  refine ⟨fun h => ?_, fun h => ?_, ?_⟩
  · unfold unpack
    simp only [hneg, hmag]
    rw [h, h3, Nat.mul_div_cancel _ hp, Nat.mul_mod_left]
    simp
  · have hex : b / 2 ^ f.fracBits < 2 ^ f.expBits - 1 := by
      rw [Nat.div_lt_iff_lt_mul hp]; omega
    unfold realOf unpack magVal
    simp only [hneg, hmag, add_sub_assoc]
    rw [if_neg (by omega)]
    split_ifs <;> simp_all
    all_goals ring
  · rw [hn]
    have : f.signPat % 2 = 0 := by cases f <;> decide
    split <;> omega

/-- Every finite value is a magnitude below the infinity, with a sign. -/
theorem exists_magVal {f : Fmt} {w : FBits} {u : ℚ} (h : realOf f w = some u) :
    ∃ (neg : Bool) (b : Nat), b < f.infPat ∧ u = (if neg then -magVal f b else magVal f b) := by
  obtain ⟨h1, h2, h3, h4, h5, h6⟩ := fmt_widths f
  have hp : 0 < 2 ^ f.fracBits := by positivity
  unfold realOf at h
  unfold unpack at h
  dsimp only at h
  set b := w.toNat % 2 ^ f.width % f.signPat with hb
  have hs : 0 < f.signPat := by rw [h2]; positivity
  have hbs : b < f.signPat := Nat.mod_lt _ hs
  have hex : b / 2 ^ f.fracBits < 2 ^ f.expBits := by rw [Nat.div_lt_iff_lt_mul hp]; omega
  by_cases hc : b / 2 ^ f.fracBits = 2 ^ f.expBits - 1
  · rw [if_pos hc] at h
    split_ifs at h
  · rw [if_neg hc] at h
    refine ⟨w.toNat % 2 ^ f.width / f.signPat == 1, b, ?_, ?_⟩
    · rw [h3, ← Nat.div_lt_iff_lt_mul hp]; omega
    · unfold magVal
      rw [add_sub_assoc]
      split_ifs at h <;> simp only [Option.some.injEq] at h <;> subst h <;> split_ifs <;> simp_all
      all_goals ring

theorem magVal_nonneg (f b) : 0 ≤ magVal f b := by unfold magVal; split_ifs <;> positivity

theorem overflowAt_pos (f : Fmt) : 0 < overflowAt f := by
  have : (1 : ℚ) < 2 ^ (f.fracBits + 2) := one_lt_pow₀ (by norm_num) (by omega)
  have := two_zpow_pos (f.minExp + 2 ^ f.expBits - 4)
  unfold overflowAt
  apply mul_pos <;> linarith

/-- A magnitude stays below the infinity exactly where it is below `overflowAt`. -/
theorem roundMag_lt_infPat (f : Fmt) {n d : Nat} (e : ℤ) (hd : 0 < d) :
    roundMag f n d e < f.infPat ↔ (n : ℚ) / d * 2 ^ e < overflowAt f := by
  obtain ⟨-, -, h3, -, h5, -⟩ := fmt_widths f
  have he8 : 256 ≤ 2 ^ f.expBits := by
    calc 256 = 2 ^ 8 := by norm_num
      _ ≤ _ := Nat.pow_le_pow_right (by norm_num) h5
  have hp : 0 < 2 ^ f.fracBits := by positivity
  rcases Nat.eq_zero_or_pos n with rfl | hn
  · have : 0 < f.infPat := by rw [h3]; apply Nat.mul_pos <;> omega
    simp [roundMag, this, overflowAt_pos]
  obtain ⟨t, m, y, hr, hx, hm, htie, ht, hy0, hy⟩ := roundMag_significand f e hn hd
  obtain ⟨hab1, hab2⟩ := abs_le.1 hm
  have hmle : m ≤ 2 ^ (f.fracBits + 1) := by
    have : (m : ℚ) < (2 ^ (f.fracBits + 1) : Nat) + 1 := by push_cast; linarith
    have : m < 2 ^ (f.fracBits + 1) + 1 := by exact_mod_cast this
    omega
  have hQ := two_zpow_pos (f.minExp + t)
  rw [hr, hx]
  set E := 2 ^ f.expBits with hE
  have hov (k : Nat) (hk : t + k = E - 3) : overflowAt f = (2 ^ (f.fracBits + 1) - 1 / 2) * 2 ^ k * 2 ^ (f.minExp + t) := by
    unfold overflowAt
    rw [show f.minExp + 2 ^ f.expBits - 4 = f.minExp + t + k + (-1) by
      have : ((E : Nat) : ℤ) = 2 ^ f.expBits := by push_cast [hE]; rfl
      omega, two_zpow_add, two_zpow_add, zpow_natCast]
    rw [pow_succ, pow_succ]
    norm_num
    ring
  have hlt : min (t * 2 ^ f.fracBits + m) f.infPat < f.infPat ↔ t * 2 ^ f.fracBits + m < (E - 1) * 2 ^ f.fracBits := by rw [← h3]; omega
  rw [hlt]
  rcases Nat.lt_or_ge t (E - 2) with h | h
  · obtain ⟨k, hk⟩ : ∃ k, t + k = E - 3 := ⟨E - 3 - t, by omega⟩
    rw [hov k hk, mul_lt_mul_iff_of_pos_right hQ]
    rw [show E - 1 = t + k + 2 by omega]
    rcases k with _ | k
    · have : t * 2 ^ f.fracBits + m < (t + 0 + 2) * 2 ^ f.fracBits ↔ m < 2 ^ (f.fracBits + 1) := by
        rw [pow_succ]; constructor <;> intro h <;> nlinarith
      rw [this]
      simp only [pow_zero, mul_one]
      constructor
      · intro hmlt
        have h' : (m : ℚ) + 1 ≤ 2 ^ (f.fracBits + 1) := by exact_mod_cast hmlt
        by_contra hc
        rw [not_lt] at hc
        have : (m : ℚ) = 2 ^ (f.fracBits + 1) - 1 := by linarith
        have h2 := htie (by rw [this, abs_of_neg (by linarith)]; linarith)
        have h3 : m + 1 = 2 ^ (f.fracBits + 1) := by
          have : (m : ℚ) + 1 = 2 ^ (f.fracBits + 1) := by linarith
          exact_mod_cast this
        rw [pow_succ] at h3
        omega
      · intro hlt
        have : (m : ℚ) < (2 ^ (f.fracBits + 1) : Nat) := by push_cast; linarith
        exact_mod_cast this
    · have a1 : t * 2 ^ f.fracBits + m < (t + (k + 1) + 2) * 2 ^ f.fracBits := by
        rw [pow_succ] at hmle
        nlinarith
      have a2 : y < (2 ^ (f.fracBits + 1) - 1 / 2) * 2 ^ (k + 1) := by
        have b1 : (1 : ℚ) ≤ 2 ^ k := one_le_pow₀ (by norm_num)
        have b2 : (1 : ℚ) ≤ 2 ^ (f.fracBits + 1) := one_le_pow₀ (by norm_num)
        rw [pow_succ 2 k]
        nlinarith
      exact iff_of_true a1 a2
  · have a1 : ¬ t * 2 ^ f.fracBits + m < (E - 1) * 2 ^ f.fracBits := by
      have ht0 := ht.resolve_left (by omega)
      have : 2 ^ f.fracBits ≤ m := by
        have : ((2 ^ f.fracBits : Nat) : ℚ) < m + 1 := by push_cast; linarith
        have : 2 ^ f.fracBits < m + 1 := by exact_mod_cast this
        omega
      have : (E - 2) * 2 ^ f.fracBits ≤ t * 2 ^ f.fracBits := Nat.mul_le_mul_right _ h
      rw [show E - 1 = (E - 2) + 1 by omega, Nat.add_mul]
      omega
    have a2 : ¬ y * 2 ^ (f.minExp + t) < overflowAt f := by
      have ht0 := ht.resolve_left (by omega)
      rw [not_lt]
      calc overflowAt f ≤ 2 ^ (f.fracBits + 2) * 2 ^ (f.minExp + 2 ^ f.expBits - 4) := by
            unfold overflowAt
            have := two_zpow_pos (f.minExp + 2 ^ f.expBits - 4)
            nlinarith
        _ = 2 ^ f.fracBits * 2 ^ (f.minExp + 2 ^ f.expBits - 4 + 2) := by rw [two_zpow_add _ 2, pow_add]; norm_num; ring
        _ ≤ 2 ^ f.fracBits * 2 ^ (f.minExp + t) := by
            have := zpow_le_zpow_right₀ (a := (2 : ℚ)) (by norm_num) (show f.minExp + 2 ^ f.expBits - 4 + 2 ≤ f.minExp + t by
              have : ((E : Nat) : ℤ) = 2 ^ f.expBits := by push_cast [hE]; rfl
              omega)
            gcongr
        _ ≤ y * 2 ^ (f.minExp + t) := by gcongr
    exact iff_of_false a1 a2

end Sys2Proof.Machine
end

