-- ==== Sys2Proof/Laws/State.lean ====
section
/-! SUPPORT. What each update of State does to each field: one lemma per field per update, so that no proof unfolds
a record update. -/

namespace Sys2Proof.Machine

variable (s : State)

/-! `State.setFault` -/

@[simp] theorem State.setFault_op (r : FaultReason) : (s.setFault r).op = s.op := rfl
@[simp] theorem State.setFault_stepIx (r : FaultReason) : (s.setFault r).stepIx = s.stepIx := rfl
@[simp] theorem State.setFault_busy (r : FaultReason) : (s.setFault r).busy = s.busy := rfl
@[simp] theorem State.setFault_done (r : FaultReason) : (s.setFault r).done = s.done := rfl
@[simp] theorem State.setFault_resErr (r : FaultReason) : (s.setFault r).resErr = s.resErr := rfl
@[simp] theorem State.setFault_resVal (r : FaultReason) : (s.setFault r).resVal = s.resVal := rfl
@[simp] theorem State.setFault_resUreg (r : FaultReason) : (s.setFault r).resUreg = s.resUreg := rfl
@[simp] theorem State.setFault_wpayload (r : FaultReason) : (s.setFault r).wpayload = s.wpayload := rfl
@[simp] theorem State.setFault_tStart (r : FaultReason) : (s.setFault r).tStart = s.tStart := rfl
@[simp] theorem State.setFault_hStart (r : FaultReason) : (s.setFault r).hStart = s.hStart := rfl
@[simp] theorem State.setFault_tAfter (r : FaultReason) : (s.setFault r).tAfter = s.tAfter := rfl
@[simp] theorem State.setFault_hAfter (r : FaultReason) : (s.setFault r).hAfter = s.hAfter := rfl
@[simp] theorem State.setFault_uregBase (r : FaultReason) : (s.setFault r).uregBase = s.uregBase := rfl
@[simp] theorem State.setFault_verdict (r : FaultReason) : (s.setFault r).verdict = s.verdict := rfl
@[simp] theorem State.setFault_pendErr (r : FaultReason) : (s.setFault r).pendErr = s.pendErr := rfl
@[simp] theorem State.setFault_faultMark (r : FaultReason) : (s.setFault r).faultMark = some r := rfl
@[simp] theorem State.setFault_refusedMark (r : FaultReason) : (s.setFault r).refusedMark = s.refusedMark := rfl
@[simp] theorem State.setFault_hist (r : FaultReason) : (s.setFault r).hist = s.hist := rfl
@[simp] theorem State.setFault_params (r : FaultReason) : (s.setFault r).params = s.params := rfl
@[simp] theorem State.setFault_inputs (r : FaultReason) : (s.setFault r).inputs = s.inputs := rfl
@[simp] theorem State.setFault_xans (r : FaultReason) : (s.setFault r).xans = s.xans := rfl
@[simp] theorem State.setFault_portOut (r : FaultReason) : (s.setFault r).portOut = s.portOut := rfl

/-! `State.refuse` -/

@[simp] theorem State.refuse_op (r : RefuseReason) : (s.refuse r).op = s.op := rfl
@[simp] theorem State.refuse_stepIx (r : RefuseReason) : (s.refuse r).stepIx = s.stepIx := rfl
@[simp] theorem State.refuse_busy (r : RefuseReason) : (s.refuse r).busy = s.busy := rfl
@[simp] theorem State.refuse_done (r : RefuseReason) : (s.refuse r).done = s.done := rfl
@[simp] theorem State.refuse_resErr (r : RefuseReason) : (s.refuse r).resErr = s.resErr := rfl
@[simp] theorem State.refuse_resVal (r : RefuseReason) : (s.refuse r).resVal = s.resVal := rfl
@[simp] theorem State.refuse_resUreg (r : RefuseReason) : (s.refuse r).resUreg = s.resUreg := rfl
@[simp] theorem State.refuse_wpayload (r : RefuseReason) : (s.refuse r).wpayload = s.wpayload := rfl
@[simp] theorem State.refuse_tStart (r : RefuseReason) : (s.refuse r).tStart = s.tStart := rfl
@[simp] theorem State.refuse_hStart (r : RefuseReason) : (s.refuse r).hStart = s.hStart := rfl
@[simp] theorem State.refuse_tAfter (r : RefuseReason) : (s.refuse r).tAfter = s.tAfter := rfl
@[simp] theorem State.refuse_hAfter (r : RefuseReason) : (s.refuse r).hAfter = s.hAfter := rfl
@[simp] theorem State.refuse_uregBase (r : RefuseReason) : (s.refuse r).uregBase = s.uregBase := rfl
@[simp] theorem State.refuse_verdict (r : RefuseReason) : (s.refuse r).verdict = s.verdict := rfl
@[simp] theorem State.refuse_pendErr (r : RefuseReason) : (s.refuse r).pendErr = s.pendErr := rfl
@[simp] theorem State.refuse_faultMark (r : RefuseReason) : (s.refuse r).faultMark = s.faultMark := rfl
@[simp] theorem State.refuse_refusedMark (r : RefuseReason) : (s.refuse r).refusedMark = some r := rfl
@[simp] theorem State.refuse_hist (r : RefuseReason) : (s.refuse r).hist = s.hist := rfl
@[simp] theorem State.refuse_params (r : RefuseReason) : (s.refuse r).params = s.params := rfl
@[simp] theorem State.refuse_inputs (r : RefuseReason) : (s.refuse r).inputs = s.inputs := rfl
@[simp] theorem State.refuse_xans (r : RefuseReason) : (s.refuse r).xans = s.xans := rfl
@[simp] theorem State.refuse_portOut (r : RefuseReason) : (s.refuse r).portOut = s.portOut := rfl

/-! `State.present` -/

@[simp] theorem State.present_op (v : PortOut) : (s.present v).op = s.op := rfl
@[simp] theorem State.present_stepIx (v : PortOut) : (s.present v).stepIx = s.stepIx := rfl
@[simp] theorem State.present_busy (v : PortOut) : (s.present v).busy = s.busy := rfl
@[simp] theorem State.present_done (v : PortOut) : (s.present v).done = s.done := rfl
@[simp] theorem State.present_resErr (v : PortOut) : (s.present v).resErr = s.resErr := rfl
@[simp] theorem State.present_resVal (v : PortOut) : (s.present v).resVal = s.resVal := rfl
@[simp] theorem State.present_resUreg (v : PortOut) : (s.present v).resUreg = s.resUreg := rfl
@[simp] theorem State.present_wpayload (v : PortOut) : (s.present v).wpayload = s.wpayload := rfl
@[simp] theorem State.present_tStart (v : PortOut) : (s.present v).tStart = s.tStart := rfl
@[simp] theorem State.present_hStart (v : PortOut) : (s.present v).hStart = s.hStart := rfl
@[simp] theorem State.present_tAfter (v : PortOut) : (s.present v).tAfter = s.tAfter := rfl
@[simp] theorem State.present_hAfter (v : PortOut) : (s.present v).hAfter = s.hAfter := rfl
@[simp] theorem State.present_uregBase (v : PortOut) : (s.present v).uregBase = s.uregBase := rfl
@[simp] theorem State.present_verdict (v : PortOut) : (s.present v).verdict = s.verdict := rfl
@[simp] theorem State.present_pendErr (v : PortOut) : (s.present v).pendErr = s.pendErr := rfl
@[simp] theorem State.present_faultMark (v : PortOut) : (s.present v).faultMark = s.faultMark := rfl
@[simp] theorem State.present_refusedMark (v : PortOut) : (s.present v).refusedMark = s.refusedMark := rfl
@[simp] theorem State.present_hist (v : PortOut) : (s.present v).hist = s.hist := rfl
@[simp] theorem State.present_params (v : PortOut) : (s.present v).params = s.params := rfl
@[simp] theorem State.present_inputs (v : PortOut) : (s.present v).inputs = s.inputs := rfl
@[simp] theorem State.present_xans (v : PortOut) : (s.present v).xans = s.xans := rfl
@[simp] theorem State.present_portOut (v : PortOut) : (s.present v).portOut = some v := rfl

/-! `State.goto` -/

@[simp] theorem State.goto_op (n : BitVec 5) : (s.goto n).op = s.op := rfl
@[simp] theorem State.goto_stepIx (n : BitVec 5) : (s.goto n).stepIx = n := rfl
@[simp] theorem State.goto_busy (n : BitVec 5) : (s.goto n).busy = s.busy := rfl
@[simp] theorem State.goto_done (n : BitVec 5) : (s.goto n).done = s.done := rfl
@[simp] theorem State.goto_resErr (n : BitVec 5) : (s.goto n).resErr = s.resErr := rfl
@[simp] theorem State.goto_resVal (n : BitVec 5) : (s.goto n).resVal = s.resVal := rfl
@[simp] theorem State.goto_resUreg (n : BitVec 5) : (s.goto n).resUreg = s.resUreg := rfl
@[simp] theorem State.goto_wpayload (n : BitVec 5) : (s.goto n).wpayload = s.wpayload := rfl
@[simp] theorem State.goto_tStart (n : BitVec 5) : (s.goto n).tStart = s.tStart := rfl
@[simp] theorem State.goto_hStart (n : BitVec 5) : (s.goto n).hStart = s.hStart := rfl
@[simp] theorem State.goto_tAfter (n : BitVec 5) : (s.goto n).tAfter = s.tAfter := rfl
@[simp] theorem State.goto_hAfter (n : BitVec 5) : (s.goto n).hAfter = s.hAfter := rfl
@[simp] theorem State.goto_uregBase (n : BitVec 5) : (s.goto n).uregBase = s.uregBase := rfl
@[simp] theorem State.goto_verdict (n : BitVec 5) : (s.goto n).verdict = s.verdict := rfl
@[simp] theorem State.goto_pendErr (n : BitVec 5) : (s.goto n).pendErr = s.pendErr := rfl
@[simp] theorem State.goto_faultMark (n : BitVec 5) : (s.goto n).faultMark = s.faultMark := rfl
@[simp] theorem State.goto_refusedMark (n : BitVec 5) : (s.goto n).refusedMark = s.refusedMark := rfl
@[simp] theorem State.goto_hist (n : BitVec 5) : (s.goto n).hist = s.hist := rfl
@[simp] theorem State.goto_params (n : BitVec 5) : (s.goto n).params = s.params := rfl
@[simp] theorem State.goto_inputs (n : BitVec 5) : (s.goto n).inputs = s.inputs := rfl
@[simp] theorem State.goto_xans (n : BitVec 5) : (s.goto n).xans = s.xans := rfl
@[simp] theorem State.goto_portOut (n : BitVec 5) : (s.goto n).portOut = s.portOut := rfl

/-! `State.finish` -/

@[simp] theorem State.finish_op (e : ErrorKind) : (s.finish e).op = none := rfl
@[simp] theorem State.finish_stepIx (e : ErrorKind) : (s.finish e).stepIx = 0#5 := rfl
@[simp] theorem State.finish_busy (e : ErrorKind) : (s.finish e).busy = false := rfl
@[simp] theorem State.finish_done (e : ErrorKind) : (s.finish e).done = true := rfl
@[simp] theorem State.finish_resErr (e : ErrorKind) : (s.finish e).resErr = some e := rfl
@[simp] theorem State.finish_resVal (e : ErrorKind) : (s.finish e).resVal = s.resVal := rfl
@[simp] theorem State.finish_resUreg (e : ErrorKind) : (s.finish e).resUreg = s.resUreg := rfl
@[simp] theorem State.finish_wpayload (e : ErrorKind) : (s.finish e).wpayload = s.wpayload := rfl
@[simp] theorem State.finish_tStart (e : ErrorKind) : (s.finish e).tStart = s.tStart := rfl
@[simp] theorem State.finish_hStart (e : ErrorKind) : (s.finish e).hStart = s.hStart := rfl
@[simp] theorem State.finish_tAfter (e : ErrorKind) : (s.finish e).tAfter = s.tAfter := rfl
@[simp] theorem State.finish_hAfter (e : ErrorKind) : (s.finish e).hAfter = s.hAfter := rfl
@[simp] theorem State.finish_uregBase (e : ErrorKind) : (s.finish e).uregBase = s.uregBase := rfl
@[simp] theorem State.finish_verdict (e : ErrorKind) : (s.finish e).verdict = s.verdict := rfl
@[simp] theorem State.finish_pendErr (e : ErrorKind) : (s.finish e).pendErr = s.pendErr := rfl
@[simp] theorem State.finish_faultMark (e : ErrorKind) : (s.finish e).faultMark = s.faultMark := rfl
@[simp] theorem State.finish_refusedMark (e : ErrorKind) : (s.finish e).refusedMark = s.refusedMark := rfl
@[simp] theorem State.finish_hist (e : ErrorKind) : (s.finish e).hist = s.hist := rfl
@[simp] theorem State.finish_params (e : ErrorKind) : (s.finish e).params = s.params := rfl
@[simp] theorem State.finish_inputs (e : ErrorKind) : (s.finish e).inputs = s.inputs := rfl
@[simp] theorem State.finish_xans (e : ErrorKind) : (s.finish e).xans = s.xans := rfl
@[simp] theorem State.finish_portOut (e : ErrorKind) : (s.finish e).portOut = s.portOut := rfl

/-! `State.begin` -/

@[simp] theorem State.begin_op (o : HostOp) (p : Option Byte) : (s.begin o p).op = some o := rfl
@[simp] theorem State.begin_stepIx (o : HostOp) (p : Option Byte) : (s.begin o p).stepIx = 0#5 := rfl
@[simp] theorem State.begin_busy (o : HostOp) (p : Option Byte) : (s.begin o p).busy = true := rfl
@[simp] theorem State.begin_done (o : HostOp) (p : Option Byte) : (s.begin o p).done = false := rfl
@[simp] theorem State.begin_resErr (o : HostOp) (p : Option Byte) : (s.begin o p).resErr = none := rfl
@[simp] theorem State.begin_resVal (o : HostOp) (p : Option Byte) : (s.begin o p).resVal = none := rfl
@[simp] theorem State.begin_resUreg (o : HostOp) (p : Option Byte) : (s.begin o p).resUreg = none := rfl
@[simp] theorem State.begin_wpayload (o : HostOp) (p : Option Byte) : (s.begin o p).wpayload = p := rfl
@[simp] theorem State.begin_tStart (o : HostOp) (p : Option Byte) : (s.begin o p).tStart = s.tStart := rfl
@[simp] theorem State.begin_hStart (o : HostOp) (p : Option Byte) : (s.begin o p).hStart = s.hStart := rfl
@[simp] theorem State.begin_tAfter (o : HostOp) (p : Option Byte) : (s.begin o p).tAfter = s.tAfter := rfl
@[simp] theorem State.begin_hAfter (o : HostOp) (p : Option Byte) : (s.begin o p).hAfter = s.hAfter := rfl
@[simp] theorem State.begin_uregBase (o : HostOp) (p : Option Byte) : (s.begin o p).uregBase = s.uregBase := rfl
@[simp] theorem State.begin_verdict (o : HostOp) (p : Option Byte) : (s.begin o p).verdict = s.verdict := rfl
@[simp] theorem State.begin_pendErr (o : HostOp) (p : Option Byte) : (s.begin o p).pendErr = s.pendErr := rfl
@[simp] theorem State.begin_faultMark (o : HostOp) (p : Option Byte) : (s.begin o p).faultMark = s.faultMark := rfl
@[simp] theorem State.begin_refusedMark (o : HostOp) (p : Option Byte) : (s.begin o p).refusedMark = s.refusedMark := rfl
@[simp] theorem State.begin_hist (o : HostOp) (p : Option Byte) : (s.begin o p).hist = s.hist := rfl
@[simp] theorem State.begin_params (o : HostOp) (p : Option Byte) : (s.begin o p).params = s.params := rfl
@[simp] theorem State.begin_inputs (o : HostOp) (p : Option Byte) : (s.begin o p).inputs = s.inputs := rfl
@[simp] theorem State.begin_xans (o : HostOp) (p : Option Byte) : (s.begin o p).xans = s.xans := rfl
@[simp] theorem State.begin_portOut (o : HostOp) (p : Option Byte) : (s.begin o p).portOut = s.portOut := rfl

/-! `State.clearScratch` -/

@[simp] theorem State.clearScratch_op : (s.clearScratch).op = s.op := rfl
@[simp] theorem State.clearScratch_stepIx : (s.clearScratch).stepIx = s.stepIx := rfl
@[simp] theorem State.clearScratch_busy : (s.clearScratch).busy = s.busy := rfl
@[simp] theorem State.clearScratch_done : (s.clearScratch).done = s.done := rfl
@[simp] theorem State.clearScratch_resErr : (s.clearScratch).resErr = s.resErr := rfl
@[simp] theorem State.clearScratch_resVal : (s.clearScratch).resVal = s.resVal := rfl
@[simp] theorem State.clearScratch_resUreg : (s.clearScratch).resUreg = s.resUreg := rfl
@[simp] theorem State.clearScratch_wpayload : (s.clearScratch).wpayload = s.wpayload := rfl
@[simp] theorem State.clearScratch_tStart : (s.clearScratch).tStart = none := rfl
@[simp] theorem State.clearScratch_hStart : (s.clearScratch).hStart = none := rfl
@[simp] theorem State.clearScratch_tAfter : (s.clearScratch).tAfter = none := rfl
@[simp] theorem State.clearScratch_hAfter : (s.clearScratch).hAfter = none := rfl
@[simp] theorem State.clearScratch_uregBase : (s.clearScratch).uregBase = none := rfl
@[simp] theorem State.clearScratch_verdict : (s.clearScratch).verdict = none := rfl
@[simp] theorem State.clearScratch_pendErr : (s.clearScratch).pendErr = none := rfl
@[simp] theorem State.clearScratch_faultMark : (s.clearScratch).faultMark = s.faultMark := rfl
@[simp] theorem State.clearScratch_refusedMark : (s.clearScratch).refusedMark = s.refusedMark := rfl
@[simp] theorem State.clearScratch_hist : (s.clearScratch).hist = s.hist := rfl
@[simp] theorem State.clearScratch_params : (s.clearScratch).params = s.params := rfl
@[simp] theorem State.clearScratch_inputs : (s.clearScratch).inputs = s.inputs := rfl
@[simp] theorem State.clearScratch_xans : (s.clearScratch).xans = s.xans := rfl
@[simp] theorem State.clearScratch_portOut : (s.clearScratch).portOut = s.portOut := rfl

/-! `State.record` -/

@[simp] theorem State.record_op (e : Event) : (s.record e).op = s.op := rfl
@[simp] theorem State.record_stepIx (e : Event) : (s.record e).stepIx = s.stepIx := rfl
@[simp] theorem State.record_busy (e : Event) : (s.record e).busy = s.busy := rfl
@[simp] theorem State.record_done (e : Event) : (s.record e).done = s.done := rfl
@[simp] theorem State.record_resErr (e : Event) : (s.record e).resErr = s.resErr := rfl
@[simp] theorem State.record_resVal (e : Event) : (s.record e).resVal = s.resVal := rfl
@[simp] theorem State.record_resUreg (e : Event) : (s.record e).resUreg = s.resUreg := rfl
@[simp] theorem State.record_wpayload (e : Event) : (s.record e).wpayload = s.wpayload := rfl
@[simp] theorem State.record_tStart (e : Event) : (s.record e).tStart = s.tStart := rfl
@[simp] theorem State.record_hStart (e : Event) : (s.record e).hStart = s.hStart := rfl
@[simp] theorem State.record_tAfter (e : Event) : (s.record e).tAfter = s.tAfter := rfl
@[simp] theorem State.record_hAfter (e : Event) : (s.record e).hAfter = s.hAfter := rfl
@[simp] theorem State.record_uregBase (e : Event) : (s.record e).uregBase = s.uregBase := rfl
@[simp] theorem State.record_verdict (e : Event) : (s.record e).verdict = s.verdict := rfl
@[simp] theorem State.record_pendErr (e : Event) : (s.record e).pendErr = s.pendErr := rfl
@[simp] theorem State.record_faultMark (e : Event) : (s.record e).faultMark = s.faultMark := rfl
@[simp] theorem State.record_refusedMark (e : Event) : (s.record e).refusedMark = s.refusedMark := rfl
@[simp] theorem State.record_hist (e : Event) : (s.record e).hist = s.hist ++ [e] := rfl
@[simp] theorem State.record_params (e : Event) : (s.record e).params = s.params := rfl
@[simp] theorem State.record_inputs (e : Event) : (s.record e).inputs = s.inputs := rfl
@[simp] theorem State.record_xans (e : Event) : (s.record e).xans = s.xans := rfl
@[simp] theorem State.record_portOut (e : Event) : (s.record e).portOut = s.portOut := rfl

/-! `State.clearAnswer` -/

@[simp] theorem State.clearAnswer_op : (s.clearAnswer).op = s.op := rfl
@[simp] theorem State.clearAnswer_stepIx : (s.clearAnswer).stepIx = s.stepIx := rfl
@[simp] theorem State.clearAnswer_busy : (s.clearAnswer).busy = s.busy := rfl
@[simp] theorem State.clearAnswer_done : (s.clearAnswer).done = s.done := rfl
@[simp] theorem State.clearAnswer_resErr : (s.clearAnswer).resErr = s.resErr := rfl
@[simp] theorem State.clearAnswer_resVal : (s.clearAnswer).resVal = s.resVal := rfl
@[simp] theorem State.clearAnswer_resUreg : (s.clearAnswer).resUreg = s.resUreg := rfl
@[simp] theorem State.clearAnswer_wpayload : (s.clearAnswer).wpayload = s.wpayload := rfl
@[simp] theorem State.clearAnswer_tStart : (s.clearAnswer).tStart = s.tStart := rfl
@[simp] theorem State.clearAnswer_hStart : (s.clearAnswer).hStart = s.hStart := rfl
@[simp] theorem State.clearAnswer_tAfter : (s.clearAnswer).tAfter = s.tAfter := rfl
@[simp] theorem State.clearAnswer_hAfter : (s.clearAnswer).hAfter = s.hAfter := rfl
@[simp] theorem State.clearAnswer_uregBase : (s.clearAnswer).uregBase = s.uregBase := rfl
@[simp] theorem State.clearAnswer_verdict : (s.clearAnswer).verdict = s.verdict := rfl
@[simp] theorem State.clearAnswer_pendErr : (s.clearAnswer).pendErr = s.pendErr := rfl
@[simp] theorem State.clearAnswer_faultMark : (s.clearAnswer).faultMark = s.faultMark := rfl
@[simp] theorem State.clearAnswer_refusedMark : (s.clearAnswer).refusedMark = s.refusedMark := rfl
@[simp] theorem State.clearAnswer_hist : (s.clearAnswer).hist = s.hist := rfl
@[simp] theorem State.clearAnswer_params : (s.clearAnswer).params = s.params := rfl
@[simp] theorem State.clearAnswer_inputs : (s.clearAnswer).inputs = s.inputs := rfl
@[simp] theorem State.clearAnswer_xans : (s.clearAnswer).xans = none := rfl
@[simp] theorem State.clearAnswer_portOut : (s.clearAnswer).portOut = s.portOut := rfl

/-! `State.takeHost` -/

@[simp] theorem State.takeHost_op (l : List Input) : (s.takeHost l).op = s.op := rfl
@[simp] theorem State.takeHost_stepIx (l : List Input) : (s.takeHost l).stepIx = s.stepIx := rfl
@[simp] theorem State.takeHost_busy (l : List Input) : (s.takeHost l).busy = s.busy := rfl
@[simp] theorem State.takeHost_done (l : List Input) : (s.takeHost l).done = s.done := rfl
@[simp] theorem State.takeHost_resErr (l : List Input) : (s.takeHost l).resErr = s.resErr := rfl
@[simp] theorem State.takeHost_resVal (l : List Input) : (s.takeHost l).resVal = s.resVal := rfl
@[simp] theorem State.takeHost_resUreg (l : List Input) : (s.takeHost l).resUreg = s.resUreg := rfl
@[simp] theorem State.takeHost_wpayload (l : List Input) : (s.takeHost l).wpayload = s.wpayload := rfl
@[simp] theorem State.takeHost_tStart (l : List Input) : (s.takeHost l).tStart = s.tStart := rfl
@[simp] theorem State.takeHost_hStart (l : List Input) : (s.takeHost l).hStart = s.hStart := rfl
@[simp] theorem State.takeHost_tAfter (l : List Input) : (s.takeHost l).tAfter = s.tAfter := rfl
@[simp] theorem State.takeHost_hAfter (l : List Input) : (s.takeHost l).hAfter = s.hAfter := rfl
@[simp] theorem State.takeHost_uregBase (l : List Input) : (s.takeHost l).uregBase = s.uregBase := rfl
@[simp] theorem State.takeHost_verdict (l : List Input) : (s.takeHost l).verdict = s.verdict := rfl
@[simp] theorem State.takeHost_pendErr (l : List Input) : (s.takeHost l).pendErr = s.pendErr := rfl
@[simp] theorem State.takeHost_faultMark (l : List Input) : (s.takeHost l).faultMark = s.faultMark := rfl
@[simp] theorem State.takeHost_refusedMark (l : List Input) : (s.takeHost l).refusedMark = s.refusedMark := rfl
@[simp] theorem State.takeHost_hist (l : List Input) : (s.takeHost l).hist = s.hist := rfl
@[simp] theorem State.takeHost_params (l : List Input) : (s.takeHost l).params = s.params := rfl
@[simp] theorem State.takeHost_inputs (l : List Input) : (s.takeHost l).inputs = l := rfl
@[simp] theorem State.takeHost_xans (l : List Input) : (s.takeHost l).xans = none := rfl
@[simp] theorem State.takeHost_portOut (l : List Input) : (s.takeHost l).portOut = s.portOut := rfl

/-! `State.takeAnswer` -/

@[simp] theorem State.takeAnswer_op (a : Answer) (l : List Input) : (s.takeAnswer a l).op = s.op := rfl
@[simp] theorem State.takeAnswer_stepIx (a : Answer) (l : List Input) : (s.takeAnswer a l).stepIx = s.stepIx := rfl
@[simp] theorem State.takeAnswer_busy (a : Answer) (l : List Input) : (s.takeAnswer a l).busy = s.busy := rfl
@[simp] theorem State.takeAnswer_done (a : Answer) (l : List Input) : (s.takeAnswer a l).done = s.done := rfl
@[simp] theorem State.takeAnswer_resErr (a : Answer) (l : List Input) : (s.takeAnswer a l).resErr = s.resErr := rfl
@[simp] theorem State.takeAnswer_resVal (a : Answer) (l : List Input) : (s.takeAnswer a l).resVal = s.resVal := rfl
@[simp] theorem State.takeAnswer_resUreg (a : Answer) (l : List Input) : (s.takeAnswer a l).resUreg = s.resUreg := rfl
@[simp] theorem State.takeAnswer_wpayload (a : Answer) (l : List Input) : (s.takeAnswer a l).wpayload = s.wpayload := rfl
@[simp] theorem State.takeAnswer_tStart (a : Answer) (l : List Input) : (s.takeAnswer a l).tStart = s.tStart := rfl
@[simp] theorem State.takeAnswer_hStart (a : Answer) (l : List Input) : (s.takeAnswer a l).hStart = s.hStart := rfl
@[simp] theorem State.takeAnswer_tAfter (a : Answer) (l : List Input) : (s.takeAnswer a l).tAfter = s.tAfter := rfl
@[simp] theorem State.takeAnswer_hAfter (a : Answer) (l : List Input) : (s.takeAnswer a l).hAfter = s.hAfter := rfl
@[simp] theorem State.takeAnswer_uregBase (a : Answer) (l : List Input) : (s.takeAnswer a l).uregBase = s.uregBase := rfl
@[simp] theorem State.takeAnswer_verdict (a : Answer) (l : List Input) : (s.takeAnswer a l).verdict = s.verdict := rfl
@[simp] theorem State.takeAnswer_pendErr (a : Answer) (l : List Input) : (s.takeAnswer a l).pendErr = s.pendErr := rfl
@[simp] theorem State.takeAnswer_faultMark (a : Answer) (l : List Input) : (s.takeAnswer a l).faultMark = s.faultMark := rfl
@[simp] theorem State.takeAnswer_refusedMark (a : Answer) (l : List Input) : (s.takeAnswer a l).refusedMark = s.refusedMark := rfl
@[simp] theorem State.takeAnswer_hist (a : Answer) (l : List Input) : (s.takeAnswer a l).hist = s.hist := rfl
@[simp] theorem State.takeAnswer_params (a : Answer) (l : List Input) : (s.takeAnswer a l).params = s.params := rfl
@[simp] theorem State.takeAnswer_inputs (a : Answer) (l : List Input) : (s.takeAnswer a l).inputs = l := rfl
@[simp] theorem State.takeAnswer_xans (a : Answer) (l : List Input) : (s.takeAnswer a l).xans = some a := rfl
@[simp] theorem State.takeAnswer_portOut (a : Answer) (l : List Input) : (s.takeAnswer a l).portOut = s.portOut := rfl

/-! `State.rstEvent` -/

@[simp] theorem State.rstEvent_op : s.rstEvent.op = none := rfl
@[simp] theorem State.rstEvent_stepIx : s.rstEvent.stepIx = 0#5 := rfl
@[simp] theorem State.rstEvent_busy : s.rstEvent.busy = false := rfl
@[simp] theorem State.rstEvent_done : s.rstEvent.done = false := rfl
@[simp] theorem State.rstEvent_resErr : s.rstEvent.resErr = none := rfl
@[simp] theorem State.rstEvent_resVal : s.rstEvent.resVal = none := rfl
@[simp] theorem State.rstEvent_resUreg : s.rstEvent.resUreg = none := rfl
@[simp] theorem State.rstEvent_wpayload : s.rstEvent.wpayload = none := rfl
@[simp] theorem State.rstEvent_tStart : s.rstEvent.tStart = none := rfl
@[simp] theorem State.rstEvent_hStart : s.rstEvent.hStart = none := rfl
@[simp] theorem State.rstEvent_tAfter : s.rstEvent.tAfter = none := rfl
@[simp] theorem State.rstEvent_hAfter : s.rstEvent.hAfter = none := rfl
@[simp] theorem State.rstEvent_uregBase : s.rstEvent.uregBase = none := rfl
@[simp] theorem State.rstEvent_verdict : s.rstEvent.verdict = none := rfl
@[simp] theorem State.rstEvent_pendErr : s.rstEvent.pendErr = none := rfl
@[simp] theorem State.rstEvent_faultMark : s.rstEvent.faultMark = none := rfl
@[simp] theorem State.rstEvent_refusedMark : s.rstEvent.refusedMark = none := rfl
@[simp] theorem State.rstEvent_hist : s.rstEvent.hist = s.hist ++ [.rst] := rfl
@[simp] theorem State.rstEvent_params : s.rstEvent.params = s.params := rfl
@[simp] theorem State.rstEvent_inputs : s.rstEvent.inputs = s.inputs := rfl
@[simp] theorem State.rstEvent_xans : s.rstEvent.xans = none := rfl
@[simp] theorem State.rstEvent_portOut : s.rstEvent.portOut = none := rfl

end Sys2Proof.Machine
end

