-- ==== Sys2Proof/Laws/Ops.lean ====
section
/-! SUPPORT. Everything each shared operation can do, said once: to show `P` of its result, show `P` of each of the
states listed. Proofs cite these and do not unfold the operations. -/

namespace Sys2Proof.Machine

variable {P : State → Prop} {s : State} {a : Answer}

/-- The errors a transport call passes on (R301). -/
abbrev isTransport (k : ErrorKind) : Prop := k = .timeout ∨ k = .transportAckFailure

theorem kind_isTransport {e : TransportError} {k : ErrorKind} (h : e.kind = some k) : isTransport k := by
  cases e <;> simp_all [TransportError.kind, isTransport, eq_comm]

/-- A register read either goes on with the value or sets `READ_UNWRITTEN`. -/
theorem readReg_elim {α : Type} {r : Option α} {k : α → State} (hv : ∀ v, r = some v → P (k v))
    (hn : r = none → P (s.setFault .readUnwritten)) : P (readReg r k s) := by
  cases r with
  | none => exact hn rfl
  | some v => exact hv v rfl

@[simp] theorem readReg_some {α : Type} (v : α) (k : α → State) : readReg (some v) k s = k v := rfl
@[simp] theorem readReg_none {α : Type} (k : α → State) : readReg none k s = s.setFault .readUnwritten := rfl

theorem onTransportErr_elim {e : TransportError} {kErr : ErrorKind → State → State}
    (he : ∀ k, isTransport k → e.kind = some k → P (kErr k s)) (hc : P (s.setFault .xportContract)) :
    P (onTransportErr e kErr s) := by
  unfold onTransportErr
  split
  · next k h => exact he k (kind_isTransport h) h
  · exact hc

/-- A Transmit records its event, then follows the rule for `Ok`, the rule for `Err`, or faults the contract. -/
theorem transmit_elim {f : BitVec 16} {p : List Byte} {kOk : State → State} {kErr : ErrorKind → State → State}
    (ho : a = .ok → P (kOk (s.record (.tx f p a))))
    (he : ∀ e k, a = .err e → e.kind = some k → isTransport k → P (kErr k (s.record (.tx f p a))))
    (hc : P ((s.record (.tx f p a)).setFault .xportContract)) : P (transmit f p a kOk kErr s) := by
  cases a with
  | ok => exact ho rfl
  | err e => exact onTransportErr_elim (fun k hk h => he e k rfl h hk) hc
  | bytes l => exact hc
  | delayed => exact hc

/-- A Receive records its event, then follows the rule for the bytes, the rule for `Err`, or faults. -/
theorem receive_elim {n : Nat} {kOk : List Byte → State → State} {kErr : ErrorKind → State → State}
    (ho : ∀ l, a = .bytes l → l.length = n → P (kOk l (s.record (.rx Config.devAddr n a))))
    (hs : ∀ l, a = .bytes l → l.length ≠ n → P ((s.record (.rx Config.devAddr n a)).setFault .shortRx))
    (he : ∀ e k, a = .err e → e.kind = some k → isTransport k → P (kErr k (s.record (.rx Config.devAddr n a))))
    (hc : P ((s.record (.rx Config.devAddr n a)).setFault .xportContract)) : P (receive n a kOk kErr s) := by
  cases a with
  | bytes l =>
    by_cases h : l.length = n
    · simpa [receive, h] using ho l rfl h
    · simpa [receive, h] using hs l rfl h
  | err e => exact onTransportErr_elim (fun k hk h => he e k rfl h hk) hc
  | ok => exact hc
  | delayed => exact hc

/-- A Delay records its event, then goes on or faults the contract. -/
theorem delay_elim {ms : Nat} {kOk : State → State} (ho : a = .delayed → P (kOk (s.record (.dly ms))))
    (hc : P ((s.record (.dly ms)).setFault .xportContract)) : P (delay ms a kOk s) := by
  cases a with
  | delayed => exact ho rfl
  | ok => exact hc
  | bytes l => exact hc
  | err e => exact hc

/-- A measurement's receive: the converted value, a checksum mismatch, a transport error or a fault. -/
theorem measRx_elim {k : MeasKind} {kVal : FBits → State → State} {kErr : ErrorKind → State → State}
    (hv : ∀ b0 b1 b2 v, a = .bytes [b0, b1, b2] → convert k s.params.numEval b0 b1 b2 = some v →
      P (kVal v (s.record (.rx Config.devAddr 3 a))))
    (hm : ∀ b0 b1 b2, a = .bytes [b0, b1, b2] → convert k s.params.numEval b0 b1 b2 = none →
      P (kErr .checksumMismatch (s.record (.rx Config.devAddr 3 a))))
    (he : ∀ e k, a = .err e → e.kind = some k → isTransport k → P (kErr k (s.record (.rx Config.devAddr 3 a))))
    (hf : ∀ r, r = .shortRx ∨ r = .xportContract → P ((s.record (.rx Config.devAddr 3 a)).setFault r)) :
    P (measRx k a kVal kErr s) := by
  refine receive_elim (fun l hl hlen => ?_) (fun _ _ _ => hf _ (.inl rfl)) he (hf _ (.inr rfl))
  match l, hlen with
  | [b0, b1, b2], _ =>
    simp only [onReading]
    split
    · next v h => exact hv b0 b1 b2 v hl (by simpa using h)
    · next h => exact hm b0 b1 b2 hl (by simpa using h)

/-- A user-register read's receive: the byte, a transport error or a fault. -/
theorem ureadRx_elim {kByte : Byte → State → State} {kErr : ErrorKind → State → State}
    (hb : ∀ u, a = .bytes [u] → P (kByte u (s.record (.rx Config.devAddr 1 a))))
    (he : ∀ e k, a = .err e → e.kind = some k → isTransport k → P (kErr k (s.record (.rx Config.devAddr 1 a))))
    (hf : ∀ r, r = .shortRx ∨ r = .xportContract → P ((s.record (.rx Config.devAddr 1 a)).setFault r)) :
    P (ureadRx a kByte kErr s) := by
  refine receive_elim (fun l hl hlen => ?_) (fun _ _ _ => hf _ (.inl rfl)) he (hf _ (.inr rfl))
  match l, hlen with
  | [u], _ => exact hb u hl

/-- An abort either ends SELF_TEST with the error or goes to cleanup with the error pending (R270). -/
theorem abort_elim {e : ErrorKind}
    (hc : s.params.cleanupOnAbort = true → 8 ≤ s.stepIx.toNat → P ({ s with pendErr := some e }.goto 16#5))
    (hf : P (s.finish e)) : P (abort e s) := by
  unfold abort
  split
  · next h => exact hc h.1 h.2
  · exact hf

/-- A cleanup error ends SELF_TEST with itself after a Pass, else with the pending error (R271). -/
theorem cleanupErr_elim {e : ErrorKind} (hp : s.pendErr = some .noneErr → P (s.finish e))
    (hq : ∀ p, s.pendErr = some p → P (s.finish p)) (hn : s.pendErr = none → P (s.setFault .readUnwritten)) :
    P (cleanupErr e s) := by
  refine readReg_elim (fun p h => ?_) hn
  split
  · next hc => exact hp (hc.2 ▸ h)
  · exact hq p h

/-- A start, if allowed, either faults `START_WHILE_BUSY` or makes its writes. -/
theorem startOp_next {wr : State → State} {s' : State} (h : startOp wr s = .next s') :
    s.faultMark = none ∧ (s.busy = true ∧ s' = s.setFault .startWhileBusy ∨ s.busy = false ∧ s' = wr s) := by
  unfold startOp at h
  split at h
  · cases h
  · split at h <;> simp_all

/-- An illegal word either faults `START_WHILE_BUSY` or is refused. -/
theorem startIllegal_next {s' : State} (h : startIllegal s = .next s') :
    s.faultMark = none ∧ (s.busy = true ∧ s' = s.setFault .startWhileBusy ∨
      s.busy = false ∧ s' = s.refuse .illegalOp) := by
  unfold startIllegal at h
  split at h
  · cases h
  · split at h <;> simp_all

/-- A CORE step either applies the micro-step's rule or faults an answer to a call not made. -/
theorem runMicro_next {o : HostOp} {pr : Nat → Option Micro} {s' : State} (h : runMicro o pr a s = .next s') :
    s.faultMark = none ∧
    ((s.busy = true ∧ s.op = some o ∧ ∃ rule, pr s.stepIx.toNat = some rule ∧ s' = rule a s.clearAnswer) ∨
      s' = s.clearAnswer.setFault .xportContract) := by
  unfold runMicro at h
  split at h
  · cases h
  · split at h
    · split at h <;> simp_all
    · simp_all

/-- A host's port read shows a value or faults `READ_UNWRITTEN`. -/
theorem readPort_elim {p : OutPort} (hv : ∀ v, P (s.present v)) (hn : P (s.setFault .readUnwritten)) :
    P (readPort p s) := by
  cases p
  · exact hv _
  · exact hv _
  all_goals exact readReg_elim (fun v _ => hv _) (fun _ => hn)

/-- The second half of a pseudo-instruction changes the inputs alone. -/
theorem pseudoWrite_elim {p : Pseudo}
    (hw : ∀ u, s.visible s.resUreg = some u → P { s with
      inputs := .drive (word16 .opWord (opWordOf .writeUreg (p.payload u))) :: s.inputs })
    (hn : s.visible s.resUreg = none → P s) : P (pseudoWrite p s) := by
  unfold pseudoWrite
  split
  · next u h => exact hw u h
  · next h => exact hn h

end Sys2Proof.Machine
end

