-- ==== Sys2Proof/Laws/Step.lean ====
section
/-! SUPPORT. Everything a step can do, said once. -/

namespace Sys2Proof.Machine

/-- A combinational instruction always answers a next state: it shows a value, or refuses the selector 7. -/
theorem exec_combinational {i : Instr} (hi : i.combinational) (s : State) :
    (∃ v, exec i s = .next (s.present v)) ∨ exec i s = .next (s.refuse .badCmdsel) := by
  cases i <;> first
    | exact hi.elim
    | exact .inl ⟨_, rfl⟩
    | skip
  next c =>
    simp only [exec, execBuildRequest, showFrame]
    split
    · exact .inl ⟨_, rfl⟩
    · exact .inr rfl

/-- The writes of an allowed start (R223). -/
def startWrites (o : HostOp) (p : Byte) : State → State :=
  match o with
  | .readT => State.begin .readT none
  | .readRh => State.begin .readRh none
  | .readUreg => State.begin .readUreg none
  | .writeUreg => State.begin .writeUreg (some p)
  | .softReset => State.begin .softReset none
  | .selfTest => fun s => (s.begin .selfTest none).clearScratch

/-- Every host operation is the shared operation over its start and its micro-program. -/
theorem exec_hostOp (o : HostOp) (p : Byte) (s : State) :
    exec (instrOfHostOp o p) s = hostOperation o (startWrites o p) (prog o) s := by
  cases o <;> rfl

/-- Every instruction is combinational or a host operation. -/
theorem instr_cases (i : Instr) : i.combinational ∨ ∃ o p, i = instrOfHostOp o p := by
  cases i <;> first
    | exact .inl trivial
    | exact .inr ⟨.readT, 0, rfl⟩
    | exact .inr ⟨.readRh, 0, rfl⟩
    | exact .inr ⟨.readUreg, 0, rfl⟩
    | exact .inr ⟨.softReset, 0, rfl⟩
    | exact .inr ⟨.selfTest, 0, rfl⟩
    | exact .inr ⟨.writeUreg, _, rfl⟩

/-- What the host's act `i` does to the core, given the state in which it acts. -/
inductive HostEffect (i : Input) (s : State) : State → Prop where
  | shows (v : PortOut) : HostEffect i s (s.present v)
  | faults (r : FaultReason) (h : r = .readUnwritten ∨ r = .startWhileBusy ∧ s.busy = true ∧ s.faultMark = none) :
    HostEffect i s (s.setFault r)
  | refuses (r : RefuseReason) : HostEffect i s (s.refuse r)
  | starts (o : HostOp) (p : Byte) (hf : s.faultMark = none) (hb : s.busy = false) :
    HostEffect i s (startWrites o p s)
  | resets (hi : i = .rst) : HostEffect i s s.rstEvent
  | writes (p : Pseudo) (hi : i = .pseudoWrite p) : HostEffect i s (pseudoWrite p s)

/-- A start or a combinational instruction in a step of the host. -/
theorem exec_hostEffect {j : Input} {i : Instr} {s s' : State} (hx : s.xans = none) (h : exec i s = .next s') :
    HostEffect j s s' := by
  obtain hi | ⟨o, p, rfl⟩ := instr_cases i
  · obtain ⟨v, hv⟩ | hv := exec_combinational hi s <;> rw [hv] at h <;> cases h
    · exact .shows v
    · exact .refuses _
  · rw [exec_hostOp, hostOperation, hx] at h
    obtain ⟨hf, ⟨hb, rfl⟩ | ⟨hb, rfl⟩⟩ := startOp_next h
    · exact .faults _ (.inr ⟨rfl, hb, hf⟩)
    · exact .starts o p hf hb

/-- What the bits the host drives do. -/
theorem runDecoded_hostEffect {j : Input} {d : Decoded} {s s' : State} (hx : s.xans = none)
    (h : runDecoded d s = .next s') : HostEffect j s s' := by
  cases d with
  | instr i => exact exec_hostEffect hx h
  | reject r =>
    cases r with
    | illegalOp =>
      obtain ⟨hf, ⟨hb, rfl⟩ | ⟨hb, rfl⟩⟩ := startIllegal_next h
      · exact .faults _ (.inr ⟨rfl, hb, hf⟩)
      · exact .refuses _
    | badCmdsel => cases h; exact .refuses _
    | notAFrame => cases h
    | badWidth => cases h

/-- Everything a step can do when it answers a next state. -/
inductive StepEffect (s : State) : State → Prop where
  /-- No input is left and the core is idle. -/
  | idle (hi : s.inputs = []) (hf : s.faultMark = none) (hb : s.busy = false) : StepEffect s s
  /-- The host acts. -/
  | host (i : Input) (rest : List Input) (hi : s.inputs = i :: rest) (ha : ∀ a, i ≠ .answer a) (s' : State)
    (h : HostEffect i (s.takeHost rest) s') : StepEffect s s'
  /-- XPORT answers a call not made. -/
  | unasked (a : Answer) (rest : List Input) (hi : s.inputs = .answer a :: rest) (hf : s.faultMark = none)
    (hn : ¬ (s.busy = true ∧ s.op.isSome = true)) :
    StepEffect s ((s.takeHost rest).setFault .xportContract)
  /-- CORE makes a micro-step. -/
  | micro (a : Answer) (rest : List Input) (hi : s.inputs = .answer a :: rest) (hf : s.faultMark = none)
    (hb : s.busy = true) (o : HostOp) (ho : s.op = some o) (rule : Micro)
    (hr : prog o s.stepIx.toNat = some rule) : StepEffect s (rule a (s.takeHost rest))

theorem step_effect {s s' : State} (h : step s = .next s') : StepEffect s s' := by
  unfold step at h
  split at h
  · next hi =>
    unfold quiesce at h
    split at h
    · cases h
    · next hf =>
      split at h
      · cases h
      · next hb => cases h; exact .idle hi hf (by simpa using hb)
  · next w rest hi => exact .host _ rest hi (by simp) _ (runDecoded_hostEffect rfl h)
  · next p rest hi =>
    cases h
    exact .host _ rest hi (by simp) _ (readPort_elim (fun v => .shows v) (.faults _ (.inl rfl)))
  · next rest hi => cases h; exact .host _ rest hi (by simp) _ (.resets rfl)
  · next p rest hi => cases h; exact .host _ rest hi (by simp) _ (.writes p rfl)
  · next a rest hi =>
    cases ho : s.op with
    | none =>
      simp only [runningInstr, ho, unaskedAnswer] at h
      split at h
      · cases h
      · next hf => cases h; exact .unasked a rest hi hf (by simp [ho])
    | some o =>
      simp only [runningInstr, ho, exec_hostOp, hostOperation, State.takeAnswer_xans, runMicro] at h
      split at h
      · cases h
      · next hf =>
        split at h
        · next hb =>
          split at h
          · next rule hr => cases h; exact .micro a rest hi hf hb.1 o ho rule hr
          · cases h
        · next hb =>
          cases h
          refine .unasked a rest hi hf fun hc => hb ⟨hc.1, ho⟩

end Sys2Proof.Machine
end

