-- ==== Sys2Proof/Laws/Micro.lean ====
section
/-! SUPPORT. What a micro-step of any operation adds to the history, and what it never touches. -/

namespace Sys2Proof.Machine

/-- The fields no micro-step touches, and the history it leaves. -/
structure MicroKeeps (s : State) (h : List Event) (t : State) : Prop where
  hist : t.hist = h
  params : t.params = s.params
  inputs : t.inputs = s.inputs
  wpayload : t.wpayload = s.wpayload
  refusedMark : t.refusedMark = s.refusedMark
  portOut : t.portOut = s.portOut
  xans : t.xans = s.xans

variable {s t : State} {h : List Event}

theorem microKeeps_refl (s : State) : MicroKeeps s s.hist s := ⟨rfl, rfl, rfl, rfl, rfl, rfl, rfl⟩

theorem MicroKeeps.abort (e : ErrorKind) (k : MicroKeeps s h t) : MicroKeeps s h (abort e t) :=
  abort_elim (fun _ _ => ⟨k.1, k.2, k.3, k.4, k.5, k.6, k.7⟩) ⟨k.1, k.2, k.3, k.4, k.5, k.6, k.7⟩

theorem MicroKeeps.cleanupErr (e : ErrorKind) (k : MicroKeeps s h t) : MicroKeeps s h (cleanupErr e t) :=
  cleanupErr_elim (fun _ => ⟨k.1, k.2, k.3, k.4, k.5, k.6, k.7⟩) (fun _ _ => ⟨k.1, k.2, k.3, k.4, k.5, k.6, k.7⟩)
    (fun _ => ⟨k.1, k.2, k.3, k.4, k.5, k.6, k.7⟩)

theorem MicroKeeps.storeHAfter (v : FBits) (k : MicroKeeps s h t) : MicroKeeps s h (storeHAfter v t) := by
  have ht : MicroKeeps s h { t with hAfter := some v } := ⟨k.1, k.2, k.3, k.4, k.5, k.6, k.7⟩
  have hf (r : FaultReason) : MicroKeeps s h (State.setFault r { t with hAfter := some v }) :=
    ⟨k.1, k.2, k.3, k.4, k.5, k.6, k.7⟩
  exact readReg_elim (fun _ _ => readReg_elim (fun _ _ => readReg_elim
    (fun _ _ => ⟨k.1, k.2, k.3, k.4, k.5, k.6, k.7⟩) (fun _ => hf _)) (fun _ => hf _)) (fun _ => hf _)

/-- The state after a call joins the history is one of the states a micro-step may go on from. -/
theorem microKeeps_record (s : State) (e : Event) : MicroKeeps s (s.hist ++ [e]) (s.record e) :=
  ⟨rfl, rfl, rfl, rfl, rfl, rfl, rfl⟩

/-- A micro-step's result from the fields it keeps. -/
theorem MicroKeeps.of_eq {u : State} (k : MicroKeeps s h t) (h1 : u.hist = t.hist) (h2 : u.params = t.params)
    (h3 : u.inputs = t.inputs) (h4 : u.wpayload = t.wpayload) (h5 : u.refusedMark = t.refusedMark)
    (h6 : u.portOut = t.portOut) (h7 : u.xans = t.xans) : MicroKeeps s h u :=
  ⟨h1.trans k.1, h2.trans k.2, h3.trans k.3, h4.trans k.4, h5.trans k.5, h6.trans k.6, h7.trans k.7⟩

/-- Every micro-step has an index below 19. -/
theorem prog_lt {o : HostOp} {n : Nat} {rule : Micro} (hr : prog o n = some rule) : n < 19 := by
  by_contra h
  have hn : ∀ m, prog o (m + 19) = none := fun m => by cases o <;> rfl
  rw [show n = (n - 19) + 19 by omega, hn] at hr
  cases hr

/-- A micro-step adds its one call to the history, or nothing where its payload is not written, and keeps the
parameters, the inputs, `WPAYLOAD`, `REFUSED` and the ports. -/
theorem micro_keeps {o : HostOp} {n : Nat} {rule : Micro} (hr : prog o n = some rule) (a : Answer) (s : State) :
    MicroKeeps s (s.hist ++ (microEvent o n a s).toList) (rule a s) := by
  have hn := prog_lt hr
  have K := microKeeps_record s
  have F (e : Event) (r : FaultReason) : MicroKeeps s (s.hist ++ [e]) ((s.record e).setFault r) :=
    ⟨rfl, rfl, rfl, rfl, rfl, rfl, rfl⟩
  have U (r : FaultReason) : MicroKeeps s (s.hist ++ []) (s.setFault r) := ⟨by simp, rfl, rfl, rfl, rfl, rfl, rfl⟩
  have N (e : Event) (k : BitVec 5) : MicroKeeps s (s.hist ++ [e]) ((s.record e).goto k) :=
    ⟨rfl, rfl, rfl, rfl, rfl, rfl, rfl⟩
  have E (e : Event) (k : ErrorKind) : MicroKeeps s (s.hist ++ [e]) ((s.record e).finish k) :=
    ⟨rfl, rfl, rfl, rfl, rfl, rfl, rfl⟩
  have W {r : Option Byte} {k : Byte → State} {w : Byte → Event}
      (h : ∀ p, MicroKeeps s (s.hist ++ [w p]) (k p)) : MicroKeeps s (s.hist ++ (r.map w).toList) (readReg r k s) := by
    cases r with
    | none => exact U _
    | some p => exact h p
  cases o <;> interval_cases n <;> cases hr <;> first
    | exact transmit_elim (fun _ => N _ _) (fun _ k _ _ _ => (K _).abort k) (F _ _)
    | exact transmit_elim (fun _ => N _ _) (fun _ k _ _ _ => (K _).cleanupErr k) (F _ _)
    | exact transmit_elim (fun _ => N _ _) (fun _ k _ _ _ => E _ _) (F _ _)
    | exact transmit_elim (fun _ => E _ _) (fun _ k _ _ _ => E _ _) (F _ _)
    | exact delay_elim (fun _ => N _ _) (F _ _)
    | exact measRx_elim (fun _ _ _ v _ _ => (K _).storeHAfter v) (fun _ _ _ _ _ => (K _).abort _)
        (fun _ k _ _ _ => (K _).abort k) (fun _ _ => F _ _)
    | exact measRx_elim (fun _ _ _ _ _ _ => (K _).of_eq rfl rfl rfl rfl rfl rfl rfl)
        (fun _ _ _ _ _ => (K _).abort _) (fun _ k _ _ _ => (K _).abort k) (fun _ _ => F _ _)
    | exact measRx_elim (fun _ _ _ _ _ _ => (K _).of_eq rfl rfl rfl rfl rfl rfl rfl)
        (fun _ _ _ _ _ => E _ _) (fun _ k _ _ _ => E _ _) (fun _ _ => F _ _)
    | exact ureadRx_elim (fun _ _ => (K _).of_eq rfl rfl rfl rfl rfl rfl rfl)
        (fun _ k _ _ _ => (K _).abort k) (fun _ _ => F _ _)
    | exact ureadRx_elim (fun _ _ => (K _).of_eq rfl rfl rfl rfl rfl rfl rfl)
        (fun _ k _ _ _ => (K _).cleanupErr k) (fun _ _ => F _ _)
    | exact ureadRx_elim (fun _ _ => (K _).of_eq rfl rfl rfl rfl rfl rfl rfl)
        (fun _ k _ _ _ => E _ _) (fun _ _ => F _ _)
    | exact W fun p => transmit_elim (fun _ => N _ _) (fun _ k _ _ _ => (K _).abort k) (F _ _)
    | exact W fun p => transmit_elim (fun _ => E _ _) (fun _ k _ _ _ => E _ _) (F _ _)
    | exact W fun p => transmit_elim (fun _ => readReg_elim (fun _ _ => E _ _) (fun _ => F _ _))
        (fun _ k _ _ _ => (K _).cleanupErr k) (F _ _)

end Sys2Proof.Machine
end

