-- ==== Sys2Proof/Laws/PerInstr.lean ====
section
/-! SUPPORT. The statements made of every instruction, one lemma per constructor. -/

namespace Sys2Proof.Laws.DecodeEncode

/-- Decoding what a well-formed instruction is encoded to gives it back, under every parameter record. -/
def Statement (i : Instr) : Prop := ∀ p : Params, p.wf → i.wf p → decode p (encode p i) = .instr i

/-- A frame at the frame port decodes to its command's instruction. -/
theorem frame (p : Params) (hp : p.wf) (c : Command) :
    decode p (word16 .frame (buildRequest p c)) = .instr (instrOfCommand c) := by
  have h := (buildRequest p c).isLt
  simp [decode, widthOk, portWidth, word16, decodeBits, h, commandOfFrame_buildRequest hp.1]

/-- A host word at the operation port decodes to its operation's instruction. -/
theorem hostWord (p : Params) (o : HostOp) (b : Byte) (hb : o = .writeUreg ∨ b = 0#8) :
    decode p (word16 .opWord (opWordOf o b)) = .instr (instrOfHostOp o b) := by
  have h := (opWordOf o b).isLt
  simp [decode, widthOk, portWidth, word16, decodeBits, h, instrOfOpWord_opWordOf o b hb]

/-- The three bytes of a 24-bit word. -/
theorem bytes24 (a b c : Byte) :
    (BitVec.ofNat 8 (bitsAt ((a.toNat * 256 + b.toNat) * 256 + c.toNat) 16 8) = a ∧
      BitVec.ofNat 8 (bitsAt ((a.toNat * 256 + b.toNat) * 256 + c.toNat) 8 8) = b ∧
      BitVec.ofNat 8 (bitsAt ((a.toNat * 256 + b.toNat) * 256 + c.toNat) 0 8) = c) ∧
      (a.toNat * 256 + b.toNat) * 256 + c.toNat < 16777216 := by
  have := a.isLt
  have := b.isLt
  have := c.isLt
  refine ⟨⟨?_, ?_, ?_⟩, by omega⟩ <;> apply BitVec.eq_of_toNat_eq <;> simp only [bitsAt, BitVec.toNat_ofNat] <;> omega

theorem cmdTHold : Statement .cmdTHold := fun p hp _ => frame p hp .tHold
theorem cmdRhHold : Statement .cmdRhHold := fun p hp _ => frame p hp .rhHold
theorem cmdTNohold : Statement .cmdTNohold := fun p hp _ => frame p hp .tNohold
theorem cmdRhNohold : Statement .cmdRhNohold := fun p hp _ => frame p hp .rhNohold
theorem cmdWriteUreg : Statement .cmdWriteUreg := fun p hp _ => frame p hp .writeUreg
theorem cmdReadUreg : Statement .cmdReadUreg := fun p hp _ => frame p hp .readUreg
theorem cmdSoftReset : Statement .cmdSoftReset := fun p hp _ => frame p hp .softReset
theorem readT : Statement .readT := fun p _ _ => hostWord p .readT 0#8 (.inr rfl)
theorem readRh : Statement .readRh := fun p _ _ => hostWord p .readRh 0#8 (.inr rfl)
theorem readUreg : Statement .readUreg := fun p _ _ => hostWord p .readUreg 0#8 (.inr rfl)
theorem writeUreg (b : Byte) : Statement (.writeUreg b) := fun p _ _ => hostWord p .writeUreg b (.inl rfl)
theorem softReset : Statement .softReset := fun p _ _ => hostWord p .softReset 0#8 (.inr rfl)
theorem selfTest : Statement .selfTest := fun p _ _ => hostWord p .selfTest 0#8 (.inr rfl)

theorem buildRequest (c : BitVec 3) : Statement (.buildRequest c) := fun p _ hw => by
  have h := c.isLt
  have hc : c.toNat ≠ 7 := fun e => hw (BitVec.eq_of_toNat_eq (by simpa using e))
  simp [decode, encode, widthOk, portWidth, decodeBits, h, hc]

theorem parseUserRegister (u : Byte) : Statement (.parseUserRegister u) := fun p _ _ => by
  have h := u.isLt
  simp [decode, encode, widthOk, portWidth, decodeBits, word8, h]

theorem serializeUserRegister (r : UserRegister) : Statement (.serializeUserRegister r) := fun p _ hw => by
  have h := r.raw.isLt
  have hr : Sys2Proof.parseUserRegister r.raw = r := Eq.symm hw
  simp [decode, encode, widthOk, portWidth, decodeBits, word8, h, hr]

theorem setHeater (u : Byte) : Statement (.setHeater u) := fun p _ _ => by
  have h := u.isLt
  simp [decode, encode, widthOk, portWidth, decodeBits, word8, h]

theorem clearHeater (u : Byte) : Statement (.clearHeater u) := fun p _ _ => by
  have h := u.isLt
  simp [decode, encode, widthOk, portWidth, decodeBits, word8, h]

theorem setResolution (u : Byte) (r : BitVec 2) : Statement (.setResolution u r) := fun p _ _ => by
  have hu := u.isLt
  have hr := r.isLt
  have h1 : BitVec.ofNat 8 (bitsAt (u.toNat * 4 + r.toNat) 2 8) = u := by
    apply BitVec.eq_of_toNat_eq
    simp only [bitsAt, BitVec.toNat_ofNat]
    omega
  have h2 : BitVec.ofNat 2 (bitsAt (u.toNat * 4 + r.toNat) 0 2) = r := by
    apply BitVec.eq_of_toNat_eq
    simp only [bitsAt, BitVec.toNat_ofNat]
    omega
  have h3 : u.toNat * 4 + r.toNat < 1024 := by omega
  simp [decode, encode, widthOk, portWidth, decodeBits, h1, h2, h3]

theorem writeKeepsInvariant (a b c : Byte) : Statement (.writeKeepsInvariant a b c) := fun p _ _ => by
  obtain ⟨⟨h1, h2, h3⟩, h⟩ := bytes24 a b c
  simp [decode, encode, widthOk, portWidth, decodeBits, word24, h1, h2, h3, h]

theorem crc8 (l : List Byte) : Statement (.crc8 l) := fun p _ _ => by
  simp [decode, encode, widthOk, portWidth, decodeBits, numBE_lt, bytesBE_numBE]

theorem checkCrc (l : List Byte) (k : Byte) : Statement (.checkCrc l k) := fun p _ _ => by
  have hk := k.isLt
  have hl := numBE_lt l
  have h1 : (numBE l * 256 + k.toNat) / 256 = numBE l := by omega
  have h2 : BitVec.ofNat 8 (numBE l * 256 + k.toNat) = k := by
    apply BitVec.eq_of_toNat_eq
    simp only [BitVec.toNat_ofNat]
    omega
  have h3 : numBE l * 256 + k.toNat < 2 ^ (8 * l.length + 8) := by
    rw [Nat.pow_add]
    omega
  have h4 : (8 * l.length + 8) / 8 - 1 = l.length := by omega
  have h5 : (8 * l.length + 8) % 8 = 0 := by omega
  simp only [decode, encode, widthOk, portWidth, decodeBits, h1, h2, h3, h4, h5, bytesBE_numBE]
  simp

theorem toTemperature (a b c : Byte) : Statement (.toTemperature a b c) := fun p _ _ => by
  obtain ⟨⟨h1, h2, h3⟩, h⟩ := bytes24 a b c
  simp [decode, encode, widthOk, portWidth, decodeBits, word24, h1, h2, h3, h]

theorem toHumidity (a b c : Byte) : Statement (.toHumidity a b c) := fun p _ _ => by
  obtain ⟨⟨h1, h2, h3⟩, h⟩ := bytes24 a b c
  simp [decode, encode, widthOk, portWidth, decodeBits, word24, h1, h2, h3, h]

/-- Four fields of `n` bits side by side, each read back. -/
theorem fields4 {n a b c d : Nat} (ha : a < 2 ^ n) (hb : b < 2 ^ n) (hc : c < 2 ^ n) (hd : d < 2 ^ n) :
    bitsAt (((a * 2 ^ n + b) * 2 ^ n + c) * 2 ^ n + d) (3 * n) n = a ∧
      bitsAt (((a * 2 ^ n + b) * 2 ^ n + c) * 2 ^ n + d) (2 * n) n = b ∧
      bitsAt (((a * 2 ^ n + b) * 2 ^ n + c) * 2 ^ n + d) n n = c ∧
      bitsAt (((a * 2 ^ n + b) * 2 ^ n + c) * 2 ^ n + d) 0 n = d ∧
      ((a * 2 ^ n + b) * 2 ^ n + c) * 2 ^ n + d < 2 ^ (4 * n) := by
  have e : ∀ {x y : Nat}, y < 2 ^ n → (x * 2 ^ n + y) / 2 ^ n = x := fun {x y} h => by
    rw [Nat.mul_comm, Nat.mul_add_div (Nat.two_pow_pos n), Nat.div_eq_of_lt h, Nat.add_zero]
  have m : ∀ {x y : Nat}, y < 2 ^ n → (x * 2 ^ n + y) % 2 ^ n = y := fun {x y} h => by
    rw [Nat.mul_comm, Nat.mul_add_mod, Nat.mod_eq_of_lt h]
  have lt : ∀ {x y k : Nat}, x < 2 ^ k → y < 2 ^ n → x * 2 ^ n + y < 2 ^ (k + n) := fun {x y k} hx hy => by
    have : (x + 1) * 2 ^ n ≤ 2 ^ k * 2 ^ n := Nat.mul_le_mul_right _ hx
    rw [Nat.add_mul] at this
    rw [Nat.pow_add]
    omega
  have p2 : 2 ^ (2 * n) = 2 ^ n * 2 ^ n := by rw [Nat.two_mul, Nat.pow_add]
  have p3 : 2 ^ (3 * n) = 2 ^ n * 2 ^ n * 2 ^ n := by rw [show 3 * n = n + n + n by omega, Nat.pow_add, Nat.pow_add]
  refine ⟨?_, ?_, ?_, ?_, ?_⟩
  · rw [bitsAt, p3, ← Nat.div_div_eq_div_mul, ← Nat.div_div_eq_div_mul, e hd, e hc, e hb, Nat.mod_eq_of_lt ha]
  · rw [bitsAt, p2, ← Nat.div_div_eq_div_mul, e hd, e hc, m hb]
  · rw [bitsAt, e hd, m hc]
  · rw [bitsAt, Nat.pow_zero, Nat.div_one, m hd]
  · rw [show 4 * n = n + n + n + n by omega]
    exact lt (lt (lt ha hb) hc) hd

theorem judge (a b c d : FBits) : Statement (.judge a b c d) := fun p _ hw => by
  simp only [Instr.wf, fitsF, decide_eq_true_eq] at hw
  obtain ⟨ha, hb, hc, hd⟩ := hw
  obtain ⟨h1, h2, h3, h4, h5⟩ := fields4 ha hb hc hd
  simp [decode, encode, widthOk, portWidth, decodeBits, h1, h2, h3, h4, h5]

end Sys2Proof.Laws.DecodeEncode
end

