-- ==== Sys2Proof/Tests/Slice0.lean ====
section
/-! SUPPORT. Tests. Expected results come from spec/95_test_vectors.md and the encodings of spec/30_encoding.md, or
are worked out from the rules by hand; each comment names its source. Then, for every obligation with hypotheses,
states and operands that meet them, clause by clause. -/

open Sys2Proof Sys2Proof.Machine

namespace Sys2Proof.Tests

/-! ## Helpers -/

/-- The defaults with both thresholds at 0.5, as the programs of spec/95_test_vectors.md section 3 have them. -/
def half : Params :=
  { Config.params with tempThreshold := some 0x3FE0000000000000#64, humThreshold := some 0x3FE0000000000000#64 }

/-- The core idle with a given parameter record. -/
def idle (p : Params) : State := { State.reset with params := p }

/-- The core at micro-step `n` of `o`, XPORT's answer `a` on the transport port. -/
def busyAt (o : HostOp) (n : BitVec 5) (a : Answer) : State :=
  { State.reset with
    op := some o, stepIx := n, busy := true, wpayload := some 0x3B#8, xans := some a, uregBase := some 0x3A#8
    tStart := some 0x40355197AE147AE2#64, hStart := some 0x404B654000000000#64
    tAfter := some 0x40375E01C28F5C2A#64, verdict := some true, pendErr := some .noneErr, params := half }

/-- The core running `o` from its first micro-step, with inputs to come. -/
def running (o : HostOp) (l : List Input) : State := { State.reset with op := some o, busy := true, inputs := l }

/-- The core idle, with inputs to come. -/
def given (l : List Input) : State := { State.reset with inputs := l }

/-- A field of the state an instruction answers. -/
def after {α : Type} (f : State → α) (r : Host.Outcome State Fault Refusal) : Option α :=
  match r with
  | .next s => some (f s)
  | .fault _ => none
  | .refused _ => none

/-- What a combinational instruction shows, under the default parameters. -/
def shown (i : Instr) : Option (Option PortOut) := after State.portOut (exec i State.reset)

/-! ## Well-formedness: an ill-formed term for each check -/

-- R105: the selector 7 names no command
theorem test_wf_selector : ¬ (Instr.buildRequest 7#3).wf Config.params := by decide
-- R151: fields that are not those of the raw byte
theorem test_wf_fields : ¬ (Instr.serializeUserRegister ⟨0x3A#8, 3#2, 0#1, 0#1, 1#1⟩).wf Config.params := by decide
-- R46, R266: an operand wider than binary32
theorem test_wf_operand :
    ¬ (Instr.judge 0x100000000#64 0#64 0#64 0#64).wf { Config.params with numEval := .e32 } := by decide
-- R102: two commands with one code
theorem test_wf_codes : ¬ Params.wf { Config.params with cmdCode := { Config.cmdCodes with readUreg := 0xE6#8 } } := by
  decide
-- R46: a threshold wider than binary32
theorem test_wf_threshold :
    ¬ Params.wf { Config.params with numEval := .e32, tempThreshold := some 0x3FE0000000000000#64 } := by decide
theorem test_wf_default : Config.params.wf ∧ half.wf := by decide

/-! ## Decoding: words written out from the encodings -/

-- R104: the seven frames, ADDR 1000000, DIR, CMD
theorem test_decode_frames :
    decodeTableWord 16 0b1000000_1_11100011 = some .cmdTHold ∧
    decodeTableWord 16 0b1000000_1_11100101 = some .cmdRhHold ∧
    decodeTableWord 16 0b1000000_1_11110011 = some .cmdTNohold ∧
    decodeTableWord 16 0b1000000_1_11110101 = some .cmdRhNohold ∧
    decodeTableWord 16 0b1000000_0_11100110 = some .cmdWriteUreg ∧
    decodeTableWord 16 0b1000000_1_11100111 = some .cmdReadUreg ∧
    decodeTableWord 16 0b1000000_1_11111110 = some .cmdSoftReset := by decide

-- R116: OPC, Z, IMM8
theorem test_decode_operations :
    decodeTableWord 16 0b0001_0000_00000000 = some .readT ∧
    decodeTableWord 16 0b0010_0000_00000000 = some .readRh ∧
    decodeTableWord 16 0b0011_0000_00000000 = some .readUreg ∧
    decodeTableWord 16 0b0100_0000_11111111 = some (.writeUreg 0xFF#8) ∧
    decodeTableWord 16 0b0101_0000_00000000 = some .softReset ∧
    decodeTableWord 16 0b0110_0000_00000000 = some .selfTest := by decide

-- R117 (95 section 2.6): illegal host words
theorem test_decode_illegal :
    [0x0000, 0x7000, 0xF000, 0x1001, 0x4100, 0x6100].map (fun w => decode Config.params ⟨.opWord, 16, w⟩) =
      List.replicate 6 (.reject .illegalOp) := by decide

-- R105: the selector port
theorem test_decode_selector : decodeTableWord 3 0b100 = some (.buildRequest 4#3) ∧
    decode Config.params ⟨.bldCmdsel, 3, 0b111⟩ = .reject .badCmdsel := by decide

-- R106: the user-register byte 0x3A at each of its ports; R154: the byte, then the code
theorem test_decode_user_register :
    decode Config.params ⟨.purByte, 8, 0b00111010⟩ = .instr (.parseUserRegister 0x3A#8) ∧
    decode Config.params ⟨.serialize, 8, 0b00111010⟩ =
      .instr (.serializeUserRegister ⟨0x3A#8, 0#2, 0#1, 0#1, 1#1⟩) ∧
    decode Config.params ⟨.setHeater, 8, 0b00111010⟩ = .instr (.setHeater 0x3A#8) ∧
    decode Config.params ⟨.clearHeater, 8, 0b00111010⟩ = .instr (.clearHeater 0x3A#8) ∧
    decode Config.params ⟨.setResolution, 10, 0b00111010_10⟩ = .instr (.setResolution 0x3A#8 2#2) ∧
    decode Config.params ⟨.writeKeepsInvariant, 24, 0b00111010_00111110_00000100⟩ =
      .instr (.writeKeepsInvariant 0x3A#8 0x3E#8 0x04#8) := by decide

-- R107: b0 first; the checksum byte last
theorem test_decode_readings :
    decode Config.params ⟨.crcValue, 16, 0b01101000_00111010⟩ = .instr (.crc8 [0x68#8, 0x3A#8]) ∧
    decode Config.params ⟨.crcOk, 24, 0b01101000_00111010_01111100⟩ = .instr (.checkCrc [0x68#8, 0x3A#8] 0x7C#8) ∧
    decode Config.params ⟨.cvTemp, 24, 0b01101000_00111010_01111100⟩ = .instr (.toTemperature 0x68#8 0x3A#8 0x7C#8) ∧
    decode Config.params ⟨.cvHum, 24, 0b01101000_00111010_01111100⟩ = .instr (.toHumidity 0x68#8 0x3A#8 0x7C#8) := by
  decide

-- R266: four F-wide operands, T_START first
theorem test_decode_judge :
    decode { Config.params with numEval := .e32 } ⟨.judge, 128, 0x41AA8CC0_425B2A00_41BAF010_4242C000⟩ =
      .instr (.judge 0x41AA8CC0#64 0x425B2A00#64 0x41BAF010#64 0x4242C000#64) := by decide

-- R109 item 2: a word with the wrong direction, another address or an unknown code is no frame
theorem test_decode_not_a_frame :
    [0x80E3, 0x81E6, 0x83E3, 0x8100].map (fun w => decode Config.params ⟨.frame, 16, w⟩) =
      List.replicate 4 (.reject .notAFrame) := by decide

/-! ## The sensor commands (95 section 2.1) -/

theorem test_cmd_t_hold : shown .cmdTHold = some (some (.bldFrame 0x81E3#16)) := by decide
theorem test_cmd_rh_hold : shown .cmdRhHold = some (some (.bldFrame 0x81E5#16)) := by decide
theorem test_cmd_t_nohold : shown .cmdTNohold = some (some (.bldFrame 0x81F3#16)) := by decide
theorem test_cmd_rh_nohold : shown .cmdRhNohold = some (some (.bldFrame 0x81F5#16)) := by decide
theorem test_cmd_write_ureg : shown .cmdWriteUreg = some (some (.bldFrame 0x80E6#16)) := by decide
theorem test_cmd_read_ureg : shown .cmdReadUreg = some (some (.bldFrame 0x81E7#16)) := by decide
theorem test_cmd_soft_reset : shown .cmdSoftReset = some (some (.bldFrame 0x81FE#16)) := by decide
theorem test_buildRequest : shown (.buildRequest 4#3) = some (some (.bldFrame 0x80E6#16)) := by decide
theorem test_buildRequest_bad :
    after (fun s => (s.refusedMark, s.portOut)) (exec (.buildRequest 7#3) State.reset) =
      some (some .badCmdsel, none) := by decide

/-! ## The user register (95 section 2.2) -/

theorem test_parse_bf : shown (.parseUserRegister 0xBF#8) = some (some (.pur ⟨0xBF#8, 3#2, 0#1, 1#1, 1#1⟩)) := by decide
theorem test_parse_01 : shown (.parseUserRegister 0x01#8) = some (some (.pur ⟨0x01#8, 1#2, 0#1, 0#1, 0#1⟩)) := by decide
theorem test_serialize :
    shown (.serializeUserRegister ⟨0x3A#8, 0#2, 0#1, 0#1, 1#1⟩) = some (some (.byte 0x3A#8)) := by decide
theorem test_setHeater : shown (.setHeater 0x38#8) = some (some (.byte 0x3C#8)) := by decide
theorem test_clearHeater : shown (.clearHeater 0xFF#8) = some (some (.byte 0xFB#8)) := by decide
theorem test_setResolution_c7 : shown (.setResolution 0xC7#8 1#2) = some (some (.byte 0x47#8)) := by decide
theorem test_setResolution_3a : shown (.setResolution 0x3A#8 2#2) = some (some (.byte 0xBA#8)) := by decide
theorem test_invariant_kept :
    shown (.writeKeepsInvariant 0x3A#8 0x3B#8 0x81#8) = some (some (.flag true)) := by decide
theorem test_invariant_lost :
    shown (.writeKeepsInvariant 0x3A#8 0x06#8 0x04#8) = some (some (.flag false)) := by decide

/-! ## The checksum (95 section 2.3) -/

-- "123456789" in ASCII
theorem test_crc8_ascii : shown (.crc8 [0x31#8, 0x32#8, 0x33#8, 0x34#8, 0x35#8, 0x36#8, 0x37#8, 0x38#8, 0x39#8]) =
    some (some (.crcValue 0xA2#8)) := by decide +kernel
theorem test_crc8_carries : shown (.crc8 [0x80#8, 0x00#8]) = some (some (.crcValue 0x23#8)) := by decide +kernel
theorem test_checkCrc_valid : shown (.checkCrc [0xFF#8, 0xFC#8] 0x7E#8) = some (some (.crcOk true)) := by decide +kernel
theorem test_checkCrc_flipped : shown (.checkCrc [0x68#8, 0xBA#8] 0x7C#8) = some (some (.crcOk false)) := by decide +kernel

/-! ## The converters (95 section 2.4) and the judge (95 section 2.5) -/

theorem test_toTemperature :
    shown (.toTemperature 0x63#8 0x52#8 0x64#8) = some (some (.cv (some 0x40355197AE147AE2#64))) := by decide +kernel
-- S2: the CRC covers the raw bytes, not the masked ones
theorem test_toTemperature_raw_crc :
    shown (.toTemperature 0xFF#8 0xFF#8 0x7E#8) = some (some (.cv none)) := by decide +kernel
-- H(0x7C80) = 54.791015625
theorem test_toHumidity :
    shown (.toHumidity 0x7C#8 0x80#8 0xF5#8) = some (some (.cv (some 0x404B654000000000#64))) := by decide +kernel
-- the two binary32 schemes part at 0x4000
theorem test_temperature_schemes :
    temperatureOf .e64To32 0x4000#16 = 0xC03AE148#64 ∧ temperatureOf .e32 0x4000#16 = 0xC03AE140#64 := by decide
-- J12, the source's own example, corrected
theorem test_judge_passes : after State.portOut (exec (.judge 0x4039000000000000#64 0x4049000000000000#64
    0x403999999999999A#64 0x4048A66666666666#64) (idle half)) = some (some (.flag true)) := by decide
-- J2: a delta equal to its threshold fails
theorem test_judge_strict : after State.portOut (exec (.judge 0x40355197AE147AE2#64 0x404B654000000000#64
    0x40375E01C28F5C2A#64 0x4048580000000000#64)
    (idle { half with tempThreshold := some 0x40006350A3D70A40#64 })) = some (some (.flag false)) := by decide

/-! ## The host operations (95 sections 2.6, 2.7 and 3) -/

theorem test_readT_starts : after (fun s => (s.op, s.busy, s.done)) (exec .readT State.reset) =
    some (some .readT, true, false) := by decide
-- O1, last micro-step: 24.686401367187493
theorem test_readT_ends : after (fun s => (s.resErr, s.resVal, s.busy))
    (exec .readT (busyAt .readT 2#5 (.bytes [0x68#8, 0x3A#8, 0x7C#8]))) =
    some (some .noneErr, some 0x4038AFB7FFFFFFFE#64, false) := by decide +kernel
-- R225: the delay of READ_RH is 40
theorem test_readRh_delay : after (fun s => (s.hist, s.stepIx)) (exec .readRh (busyAt .readRh 1#5 .delayed)) =
    some ([.dly 40], 2#5) := by decide
-- O5
theorem test_readRh_ends : after State.resVal
    (exec .readRh (busyAt .readRh 2#5 (.bytes [0x7C#8, 0x80#8, 0xF5#8]))) =
    some (some 0x404B654000000000#64) := by decide +kernel
-- O6
theorem test_readUreg_ends : after (fun s => (s.resUreg, s.resErr, s.resVal))
    (exec .readUreg (busyAt .readUreg 1#5 (.bytes [0x3A#8]))) = some (some 0x3A#8, some .noneErr, none) := by decide
theorem test_writeUreg_starts : after State.wpayload (exec (.writeUreg 0xFF#8) State.reset) = some (some 0xFF#8) := by
  decide
-- O8
theorem test_writeUreg_error : after (fun s => (s.hist, s.resErr))
    (exec (.writeUreg 0x3B#8) (busyAt .writeUreg 0#5 (.err .timeout))) =
    some ([.tx 0x80E6#16 [0x3B#8] (.err .timeout)], some .timeout) := by decide
-- O9
theorem test_softReset_ends : after (fun s => (s.hist, s.resErr, s.op))
    (exec .softReset (busyAt .softReset 0#5 .ok)) = some ([.tx 0x81FE#16 [] .ok], some .noneErr, none) := by decide
-- P3, micro-step 8: the heater bit is set in the byte read
theorem test_selfTest_heater_on : after (fun s => (s.hist, s.stepIx)) (exec .selfTest (busyAt .selfTest 8#5 .ok)) =
    some ([.tx 0x80E6#16 [0x3E#8] .ok], 9#5) := by decide
-- P3, micro-step 15: H_AFTER = 48.6875, Pass
theorem test_selfTest_verdict : after (fun s => (s.hAfter, s.verdict, s.stepIx))
    (exec .selfTest (busyAt .selfTest 15#5 (.bytes [0x70#8, 0x00#8, 0x3B#8]))) =
    some (some 0x4048580000000000#64, some true, 16#5) := by decide +kernel
-- O10: a short receive
theorem test_short_receive : after (fun s => (s.faultMark, s.busy, s.stepIx, s.done))
    (step { running .readT [.answer (.bytes [0x68#8, 0x3A#8])] with stepIx := 2#5 }) =
    some (some .shortRx, true, 2#5, false) := by decide
-- O11: a start while an operation runs
theorem test_start_while_busy : after (fun s => (s.faultMark, s.op)) (step (running .readT [startInput 0x2000#16])) =
    some (some .startWhileBusy, some .readT) := by decide
-- O12: res_val after a READ_UREG
theorem test_read_unwritten : after State.faultMark (step (given [.read .resVal])) = some (some .readUnwritten) := by
  decide
-- R340: rst after a fault
theorem test_rst : after (fun s => (s.faultMark, s.busy, s.hist))
    (step { running .readT [.rst] with faultMark := some .shortRx }) = some (none, false, [.rst]) := by decide

/-! ## The host's syntax (R119) -/

theorem test_asm_write : parseAsm "WRITE_UREG 0b00111011".toList = some (.host .writeUreg 0x3B#8) := by decide
theorem test_asm_pseudo : (parseAsm "SET_RES 1".toList).map AsmLine.inputs =
    some [startInput 0x3000#16, .pseudoWrite (.setRes 1#2)] := by decide
-- the model's choice: a line with a trailing remark is none (notes/assumptions/25.md)
theorem test_asm_remark : parseAsm "READ_T -- 0x1000".toList = none ∧ parseAsm "READ_T".toList = some (.host .readT 0#8) := by
  decide
-- P2: the payload computed from RES_UREG = 0x3A
theorem test_pseudo_payload : (Pseudo.setRes 1#2).payload 0x3A#8 = 0x3B#8 := by decide

/-! ## Where a word of the table runs -/

theorem test_fetch : after State.op (step (State.reset.withFetchWord 16 0x1000)) = some (some .readT) := by decide
theorem test_fetch_port : after State.portOut (step (State.reset.withFetchWord 16 0x81E3)) =
    some (some (.bldFrame 0x81E3#16)) := by decide

/-! ## Witnesses: states and operands that meet the hypotheses of each obligation -/

theorem witness_CommandsShowTheirFrames : State.reset.params.cmdCode = Config.cmdCodes := by decide

theorem witness_BuildRequestOnASelector :
    Config.cmdCodes.toList[(0#3).toNat]? = some 0xE3#8 ∧ Config.cmdCodes.toList[(4#3).toNat]? = some 0xE6#8 ∧
    Config.cmdCodes.toList[(6#3).toNat]? = some 0xFE#8 ∧ 0#3 ≠ 7#3 ∧ 6#3 ≠ 7#3 := by decide

theorem witness_FieldAccessorsTouchTheirBitsAlone :
    (0x3E#8).getLsbD 2 = true ∧ (0x3A#8).getLsbD 2 = false ∧ 1 ≠ 2 ∧ 3 ≠ 2 ∧ (1 ≠ 7 ∧ 1 ≠ 0) ∧ (6 ≠ 7 ∧ 6 ≠ 0) := by decide

theorem witness_WriteKeepsInvariantComparesOutsideTheMask :
    (0 < 8 ∧ (0x04#8).getLsbD 0 = false) ∧ (7 < 8 ∧ (0x04#8).getLsbD 7 = false) := by decide

theorem witness_CrcIsLinear : [0x68#8, 0x3A#8].length = [0x4E#8, 0x85#8].length := by decide

theorem witness_SingleBitErrorsAreDetected : 0 < 8 ∧ 7 < 8 ∧ checkCrc [0x68#8, 0x3A#8] 0x7C#8 = true := by decide +kernel

theorem witness_ConvertersCheckThenEvaluate :
    crc8 [0x68#8, 0x3A#8] = 0x7C#8 ∧ crc8 [0x68#8, 0x3A#8] ≠ 0x7D#8 := by decide +kernel

theorem witness_StatusBitsDoNotReachTheArithmetic : 0xFF#8 &&& 0xFC#8 = 0xFC#8 &&& 0xFC#8 ∧
    checkCrc [0xFF#8, 0xFF#8] 0x2D#8 = true ∧ checkCrc [0xFF#8, 0xFC#8] 0x7E#8 = true := by decide +kernel

theorem witness_HumidityIsExact : 0 < 16384 ∧ 16383 < 16384 := by decide

theorem witness_TemperatureRisesWithTheReading : (0 < 1 ∧ 1 < 16384) ∧ 0 < 16383 ∧ 16383 < 16384 := by decide

theorem witness_ConversionsAreFinite : convert .temp .e64 0x00#8 0x00#8 0x00#8 = some 0xC0476CCCCCCCCCCD#64 ∧
    convert .hum .e64 0x7C#8 0x80#8 0xF5#8 = some 0x404B654000000000#64 := by decide +kernel

/-- 1 is representable; half of the smallest value lies midway between 0 and that value. -/
theorem witness_RoundingIsToNearestTiesToEven :
    (0 < 1 ∧ roundMag .b64 1 1 0 < Fmt.infPat .b64) ∧
    (0 < 2 ∧ roundMag .b32 1 2 (-149) = 0 ∧ 1 < Fmt.infPat .b32 ∧
      |(0 : ℚ) - 1 / 2 * 2 ^ (-149 : ℤ)| = |(1 : ℚ) * 2 ^ (-149 : ℤ) - 1 / 2 * 2 ^ (-149 : ℤ)|) := by
  refine ⟨by decide +kernel, by decide, by decide +kernel, by decide +kernel, ?_⟩
  rw [zero_sub, abs_neg]
  congr 1
  ring

/-- 2, and the smallest positive value of each format. -/
theorem witness_ArithmeticRoundsTheExactResultOnce :
    realOf .b64 0x4000000000000000#64 = some 2 ∧ (2 : ℚ) ≠ 0 ∧
    realOf .b64 1#64 = some (2 ^ (-1074 : ℤ)) ∧ realOf .b32 1#64 = some (2 ^ (-149 : ℤ)) := by
  have h2 : unpack .b64 0x4000000000000000#64 = .fin false 4503599627370496 (-51) := by decide
  have h64 : unpack .b64 1#64 = .fin false 1 (-1074) := by decide
  have h32 : unpack .b32 1#64 = .fin false 1 (-149) := by decide
  refine ⟨?_, by norm_num, ?_, ?_⟩
  · simp only [realOf, h2]
    norm_num
  · simp [realOf, h64]
  · simp [realOf, h32]

theorem witness_GreaterThanIsOrdered : unpack .b64 (nanPat .b64) = .nan ∧
    unpack .b64 0x4000000000000000#64 = .fin false 4503599627370496 (-51) ∧
    unpack .b64 0xBFF0000000000000#64 = .fin true 4503599627370496 (-52) := by decide

theorem witness_JudgeComparesBothDeltas :
    unpack .b64 { half with tempThreshold := some 0x7FF8000000000000#64 }.tempThr = .nan ∧
    unpack .b64 { half with humThreshold := some 0x7FF8000000000000#64 }.humThr = .nan := by decide

theorem witness_AllowedStartLatchesTheOperation : IdleForHost State.reset := by decide

theorem witness_StartWhileBusyFaults :
    ((running .readT [startInput 0x2000#16]).inputs = startInput 0x2000#16 :: [] ∧
      (running .readT [startInput 0x2000#16]).faultMark = none ∧
      (running .readT [startInput 0x2000#16]).busy = true) ∧
    { given [startInput 0x0000#16] with faultMark := some .shortRx }.faultMark = some .shortRx := by decide

/-- The operation codes next to the assigned ones, a set bit of Z at each end, and an operand where none belongs; then
the legal words at the ends of their ranges. -/
theorem witness_IllegalWordsAreRefused :
    (given [startInput 0x0000#16]).faultMark = none ∧ (given [startInput 0x0000#16]).busy = false ∧
    [0x0000#16, 0x0FFF#16, 0x7000#16, 0xFFFF#16, 0x4100#16, 0x4800#16, 0x1001#16, 0x60FF#16].all (fun w =>
      decide (w.toNat / 4096 = 0 ∨ 7 ≤ w.toNat / 4096 ∨ w.toNat / 256 % 16 ≠ 0 ∨
        (w.toNat % 256 ≠ 0 ∧ w.toNat / 4096 ≠ 4))) = true ∧
    [0x1000#16, 0x4000#16, 0x40FF#16, 0x6000#16].all (fun w =>
      decide (¬ (w.toNat / 4096 = 0 ∨ 7 ≤ w.toNat / 4096 ∨ w.toNat / 256 % 16 ≠ 0 ∨
        (w.toNat % 256 ≠ 0 ∧ w.toNat / 4096 ≠ 4)))) = true := by decide

theorem witness_MeasurementMicroPrograms :
    AtMicroStep .readT 0#5 .ok (busyAt .readT 0#5 .ok) ∧ AtMicroStep .readT 1#5 .delayed (busyAt .readT 1#5 .delayed) ∧
    AtMicroStep .readT 2#5 (.bytes [0x68#8, 0x3A#8, 0x7C#8]) (busyAt .readT 2#5 (.bytes [0x68#8, 0x3A#8, 0x7C#8])) ∧
    crc8 [0x68#8, 0x3A#8] = 0x7C#8 ∧
    AtMicroStep .readT 2#5 (.bytes [0x68#8, 0x3A#8, 0x7D#8]) (busyAt .readT 2#5 (.bytes [0x68#8, 0x3A#8, 0x7D#8])) ∧
    crc8 [0x68#8, 0x3A#8] ≠ 0x7D#8 ∧
    AtMicroStep .readRh 0#5 .ok (busyAt .readRh 0#5 .ok) ∧
    AtMicroStep .readRh 1#5 .delayed (busyAt .readRh 1#5 .delayed) ∧
    AtMicroStep .readRh 2#5 (.bytes [0x68#8, 0x3A#8, 0x7C#8]) (busyAt .readRh 2#5 (.bytes [0x68#8, 0x3A#8, 0x7C#8])) ∧
    AtMicroStep .readRh 2#5 (.bytes [0x68#8, 0x3A#8, 0x7D#8]) (busyAt .readRh 2#5 (.bytes [0x68#8, 0x3A#8, 0x7D#8])) := by
  decide +kernel

theorem witness_RegisterAndResetMicroPrograms :
    AtMicroStep .readUreg 0#5 .ok (busyAt .readUreg 0#5 .ok) ∧
    AtMicroStep .readUreg 1#5 (.bytes [0x3A#8]) (busyAt .readUreg 1#5 (.bytes [0x3A#8])) ∧
    AtMicroStep .writeUreg 0#5 .ok (busyAt .writeUreg 0#5 .ok) ∧
    (busyAt .writeUreg 0#5 .ok).wpayload = some 0x3B#8 ∧
    AtMicroStep .softReset 0#5 .ok (busyAt .softReset 0#5 .ok) := by decide

theorem witness_TransportErrorsEndTheOperationUnchanged :
    (∀ x ∈ [(HostOp.readT, 0#5), (.readRh, 0#5), (.readUreg, 0#5), (.softReset, 0#5), (.writeUreg, 0#5),
      (.readT, 2#5), (.readRh, 2#5), (.readUreg, 1#5)], ∀ e ∈ [TransportError.timeout, .ackFailure],
      AtMicroStep x.1 x.2 (.err e) (busyAt x.1 x.2 (.err e))) ∧
    (busyAt .writeUreg 0#5 (.err .timeout)).wpayload = some 0x3B#8 := by decide

theorem witness_MeasurementsRunToTheirValue :
    (given []).faultMark = none ∧ (given []).busy = false ∧ crc8 [0x68#8, 0x3A#8] = 0x7C#8 ∧
    (given [startInput 0x1000#16, .answer .ok, .answer .delayed, .answer (.bytes [0x68#8, 0x3A#8, 0x7C#8])]).inputs =
      startInput 0x1000#16 :: .answer .ok :: .answer .delayed :: .answer (.bytes [0x68#8, 0x3A#8, 0x7C#8]) :: [] ∧
    (given [startInput 0x2000#16, .answer .ok, .answer .delayed, .answer (.bytes [0x68#8, 0x3A#8, 0x7C#8])]).inputs =
      startInput 0x2000#16 :: .answer .ok :: .answer .delayed :: .answer (.bytes [0x68#8, 0x3A#8, 0x7C#8]) :: [] := by
  decide +kernel

theorem witness_RegisterOperationsRunToTheirEnd :
    (given []).faultMark = none ∧ (given []).busy = false ∧
    (given [startInput 0x3000#16, .answer .ok, .answer (.bytes [0x3A#8])]).inputs =
      startInput 0x3000#16 :: .answer .ok :: .answer (.bytes [0x3A#8]) :: [] ∧
    (given [startInput (0x40#8 ++ 0xFF#8), .answer .ok]).inputs = startInput (0x40#8 ++ 0xFF#8) :: .answer .ok :: [] ∧
    (given [startInput 0x5000#16, .answer .ok]).inputs = startInput 0x5000#16 :: .answer .ok :: [] := by decide

/-- The answers of program P3 (95 section 3) at the micro-steps of SELF_TEST. -/
theorem witness_selfTest_acknowledged : ∀ n ∈ [0#5, 3#5, 6#5, 8#5, 10#5, 13#5, 16#5, 18#5],
    AtMicroStep .selfTest n .ok (busyAt .selfTest n .ok) := by decide
theorem witness_selfTest_delayed : ∀ n ∈ [1#5, 4#5, 9#5, 11#5, 14#5],
    AtMicroStep .selfTest n .delayed (busyAt .selfTest n .delayed) := by decide
theorem witness_selfTest_received :
    (∀ n ∈ [7#5, 17#5], AtMicroStep .selfTest n (.bytes [0x3A#8]) (busyAt .selfTest n (.bytes [0x3A#8]))) ∧
    (∀ n ∈ [2#5, 5#5, 12#5, 15#5], AtMicroStep .selfTest n (.bytes [0x63#8, 0x52#8, 0x64#8])
      (busyAt .selfTest n (.bytes [0x63#8, 0x52#8, 0x64#8]))) := by decide

theorem witness_SelfTestBaselineAndHeaterOn : crc8 [0x63#8, 0x52#8] = 0x64#8 ∧ crc8 [0x70#8, 0x00#8] = 0x3B#8 ∧
    (busyAt .selfTest 8#5 .ok).uregBase = some 0x3A#8 := by decide +kernel

theorem witness_SelfTestRecheckAndVerdict :
    let s := busyAt .selfTest 15#5 (.bytes [0x70#8, 0x00#8, 0x3B#8])
    s.tStart = some 0x40355197AE147AE2#64 ∧ s.hStart = some 0x404B654000000000#64 ∧
    s.tAfter = some 0x40375E01C28F5C2A#64 := by decide

theorem witness_SelfTestCleanup : (busyAt .selfTest 18#5 .ok).uregBase = some 0x3A#8 ∧
    (busyAt .selfTest 18#5 .ok).pendErr = some .noneErr := by decide

/-- Errors at each end of each clause, and on both sides of micro-step 8. -/
theorem witness_SelfTestAborts :
    (∀ n ∈ [0#5, 7#5, 8#5, 10#5, 15#5], AtMicroStep .selfTest n (.err .timeout) (busyAt .selfTest n (.err .timeout))) ∧
    (busyAt .selfTest 8#5 (.err .timeout)).uregBase = some 0x3A#8 ∧
    (∀ n ∈ [2#5, 5#5, 12#5, 15#5], AtMicroStep .selfTest n (.bytes [0x63#8, 0x52#8, 0x00#8])
      (busyAt .selfTest n (.bytes [0x63#8, 0x52#8, 0x00#8]))) ∧ crc8 [0x63#8, 0x52#8] ≠ 0x00#8 := by decide +kernel

theorem witness_SelfTestCleanupErrors :
    (∀ n ∈ [16#5, 17#5, 18#5], AtMicroStep .selfTest n (.err .ackFailure) (busyAt .selfTest n (.err .ackFailure))) ∧
    (busyAt .selfTest 18#5 (.err .ackFailure)).pendErr = some .noneErr ∧
    (busyAt .selfTest 18#5 (.err .ackFailure)).uregBase = some 0x3A#8 := by decide

/-- The answers of program P3, in the order the obligation has them. -/
def p3Answers : List Answer :=
  [.ok, .delayed, .bytes [0x63#8, 0x52#8, 0x64#8], .ok, .delayed, .bytes [0x7C#8, 0x80#8, 0xF5#8], .ok,
    .bytes [0x3A#8], .ok, .delayed] ++
  [.ok, .delayed, .bytes [0x66#8, 0x4C#8, 0x4F#8], .ok, .delayed, .bytes [0x70#8, 0x00#8, 0x3B#8], .ok,
    .bytes [0x3E#8], .ok]

theorem witness_SelfTestRunsToItsVerdict :
    let s := given (startInput 0x6000#16 :: (p3Answers.map Input.answer ++ []))
    s.faultMark = none ∧ s.busy = false ∧ crc8 [0x63#8, 0x52#8] = 0x64#8 ∧ crc8 [0x7C#8, 0x80#8] = 0xF5#8 ∧
    crc8 [0x66#8, 0x4C#8] = 0x4F#8 ∧ crc8 [0x70#8, 0x00#8] = 0x3B#8 ∧
    s.inputs = startInput 0x6000#16 ::
      ([.ok, .delayed, .bytes [0x63#8, 0x52#8, 0x64#8], .ok, .delayed, .bytes [0x7C#8, 0x80#8, 0xF5#8], .ok,
        .bytes [0x3A#8], .ok, .delayed, .ok, .delayed, .bytes [0x66#8, 0x4C#8, 0x4F#8], .ok, .delayed,
        .bytes [0x70#8, 0x00#8, 0x3B#8], .ok, .bytes [0x3E#8], .ok].map Input.answer ++ []) := by decide +kernel

theorem witness_SelfTestWritesKeepTheInvariant :
    (AtMicroStep .selfTest 8#5 .ok (busyAt .selfTest 8#5 .ok) ∧
      after State.hist (exec .selfTest (busyAt .selfTest 8#5 .ok)) =
        some ((busyAt .selfTest 8#5 .ok).hist ++ [.tx (buildRequest half .writeUreg) [0x3E#8] .ok])) ∧
    (AtMicroStep .selfTest 18#5 (.err .timeout) (busyAt .selfTest 18#5 (.err .timeout)) ∧
      after State.hist (exec .selfTest (busyAt .selfTest 18#5 (.err .timeout))) =
        some ((busyAt .selfTest 18#5 .ok).hist ++ [.tx (buildRequest half .writeUreg) [0x3A#8] (.err .timeout)])) := by
  decide

/-- Micro-steps around the two writes; each write answered `Ok` and not. -/
theorem witness_SelfTestHeaterObservation :
    (∀ n ∈ [0#5, 6#5, 8#5, 10#5, 16#5, 18#5], ∀ a ∈ [Answer.ok, .err .timeout, .delayed],
      AtMicroStep .selfTest n a (busyAt .selfTest n a) ∧
      (after State.hist (exec .selfTest (busyAt .selfTest n a))).isSome = true) ∧
    (∀ n ∈ [7#5, 9#5, 17#5], AtMicroStep .selfTest n (.bytes [0x3A#8]) (busyAt .selfTest n (.bytes [0x3A#8])) ∧
      (after State.hist (exec .selfTest (busyAt .selfTest n (.bytes [0x3A#8])))).isSome = true) ∧
    (busyAt .selfTest 8#5 .ok).uregBase.isSome = true ∧ (busyAt .selfTest 18#5 (.err .timeout)).uregBase.isSome = true := by
  decide

/-- One byte too few and one too many. -/
theorem witness_WrongReceiveLengthFaults :
    (∀ l ∈ [[0x68#8, 0x3A#8], [0x68#8, 0x3A#8, 0x7C#8, 0x00#8]], l.length ≠ 3 ∧
      AtMicroStep .readT 2#5 (.bytes l) (busyAt .readT 2#5 (.bytes l)) ∧
      AtMicroStep .selfTest 15#5 (.bytes l) (busyAt .selfTest 15#5 (.bytes l))) ∧
    (∀ l ∈ [[], [0x3A#8, 0x3A#8]], l.length ≠ 1 ∧
      AtMicroStep .readUreg 1#5 (.bytes l) (busyAt .readUreg 1#5 (.bytes l)) ∧
      AtMicroStep .selfTest 17#5 (.bytes l) (busyAt .selfTest 17#5 (.bytes l))) := by decide

theorem inv_running (o : HostOp) (l : List Input) (h : o ≠ .writeUreg) : Inv (running o l) := by
  refine ⟨rfl, ?_, ⟨fun _ => rfl, fun _ => ⟨rfl, rfl, rfl⟩, nofun, nofun, nofun⟩, fun hw => ?_, fun _ => ?_,
    fun _ => ?_, rfl⟩
  · cases o <;> simp [running, State.reset, progLen]
  · exact absurd (Option.some.inj hw) h
  · exact ⟨nofun, nofun, nofun, nofun, nofun⟩
  · exact ⟨fun _ => ⟨rfl, rfl⟩, nofun⟩

/-- Each wrong shape at each kind of call, at first, inner and last micro-steps, and an error value outside R301. -/
theorem witness_AnswersOutsideTheContractFault :
    (∀ x ∈ [(HostOp.writeUreg, 0#5, Answer.delayed, Event.tx 0x80E6#16 [0x3B#8] .delayed),
        (.selfTest, 18#5, .bytes [], .tx 0x80E6#16 [0x3A#8] (.bytes [])),
        (.readT, 2#5, .ok, .rx 0x40#7 3 .ok), (.selfTest, 17#5, .delayed, .rx 0x40#7 1 .delayed),
        (.readRh, 1#5, .err .timeout, .dly 40), (.selfTest, 9#5, .ok, .dly 10000),
        (.selfTest, 14#5, .bytes [], .dly 40), (.readUreg, 1#5, .err (.other 7), .rx 0x40#7 1 (.err (.other 7)))],
      AtMicroStep x.1 x.2.1 x.2.2.1 (busyAt x.1 x.2.1 x.2.2.1) ∧
      microEvent x.1 x.2.1.toNat x.2.2.1 (busyAt x.1 x.2.1 x.2.2.1) = some x.2.2.2) ∧
    (outsideContract (.tx 0x80E6#16 [0x3B#8] .delayed) .delayed ∧
      outsideContract (.tx 0x80E6#16 [0x3A#8] (.bytes [])) (.bytes []) ∧ outsideContract (.rx 0x40#7 3 .ok) .ok ∧
      outsideContract (.rx 0x40#7 1 .delayed) .delayed ∧ outsideContract (.dly 40) (.err .timeout) ∧
      outsideContract (.dly 10000) .ok ∧ outsideContract (.dly 40) (.bytes []) ∧
      outsideContract (.rx 0x40#7 1 (.err (.other 7))) (.err (.other 7))) ∧
    (Inv (running .readT [.answer (.bytes [])]) ∧ (running .readT [.answer (.bytes [])]).faultMark = none ∧
      outsideContract (.tx 0x81E3#16 [] (.bytes [])) (.bytes [])) ∧
    ((given [.answer .ok]).inputs = .answer .ok :: [] ∧ (given [.answer .ok]).faultMark = none ∧
      (given [.answer .ok]).op = none) :=
  ⟨by decide, ⟨.inr (.inl rfl), .inr (.inr ⟨_, rfl⟩), .inr (.inl rfl), .inr (.inr rfl), .inr nofun, .inr nofun, .inr nofun,
    .inl ⟨_, rfl⟩⟩, ⟨inv_running _ _ (by decide), rfl, .inr (.inr ⟨_, rfl⟩)⟩, by decide⟩

theorem witness_HostReadsOfResultPorts :
    (given [.read .busy]).inputs = .read .busy :: [] ∧ (given [.read .done]).inputs = .read .done :: [] ∧
    (let s := { given [.read .resErr] with resErr := some ErrorKind.timeout };
      s.inputs = .read .resErr :: [] ∧ s.busy = false ∧ s.resErr = some .timeout) ∧
    (let s := { given [.read .resVal] with resVal := some 0x404B654000000000#64 };
      s.inputs = .read .resVal :: [] ∧ s.busy = false ∧ s.resVal = some 0x404B654000000000#64) ∧
    (let s := { given [.read .resUreg] with resUreg := some 0x3A#8 };
      s.inputs = .read .resUreg :: [] ∧ s.busy = false ∧ s.resUreg = some 0x3A#8) ∧
    (given [.read .resVal]).resVal = none ∧ (running .readT [.read .resErr]).busy = true := by decide

theorem witness_HaltedStuckAndIdle :
    (let s := { running .readT [.answer .ok] with faultMark := some FaultReason.shortRx };
      s.faultMark = some .shortRx ∧ s.inputs = .answer .ok :: []) ∧
    ((running .readT []).faultMark = none ∧ (running .readT []).busy = true ∧ (running .readT []).inputs = []) ∧
    ((given []).faultMark = none ∧ (given []).busy = false ∧ (given []).inputs = []) := by decide

theorem witness_StepRunsTheDecodedInstruction :
    ((given [startInput 0x1000#16]).inputs = .drive (word16 .opWord 0x1000#16) :: [] ∧
      decode Config.params (word16 .opWord 0x1000#16) = .instr .readT) ∧
    ((running .readT [.answer .ok]).inputs = .answer .ok :: [] ∧ (running .readT [.answer .ok]).op = some .readT) ∧
    decode Config.params ⟨.bldCmdsel, 3, 7⟩ = .reject .badCmdsel ∧
    decode Config.params ⟨.frame, 16, 0⟩ = .reject .notAFrame ∧
    decode Config.params ⟨.opWord, 15, 0⟩ = .reject .badWidth := by decide

theorem witness_DecodeOfEncodeIsTheInstruction : Config.params.wf ∧ (Instr.buildRequest 6#3).wf Config.params ∧
    (Instr.judge 0#64 0xFFFFFFFFFFFFFFFF#64 0#64 0#64).wf Config.params ∧
    (Instr.serializeUserRegister ⟨0x3A#8, 0#2, 0#1, 0#1, 1#1⟩).wf Config.params := by decide

theorem witness_EncodeOfDecodeIsTheWord : Config.params.wf ∧
    decode Config.params ⟨.opWord, 16, 0x40FF⟩ = .instr (.writeUreg 0xFF#8) ∧
    decode Config.params ⟨.crcValue, 0, 0⟩ = .instr (.crc8 []) := by decide

theorem witness_PseudoInstructionsKeepTheInvariant :
    (let s := { given [.pseudoWrite .heaterOn] with resUreg := some 0x3A#8 };
      s.inputs = .pseudoWrite .heaterOn :: [] ∧ s.busy = false ∧ s.resUreg = some 0x3A#8) ∧
    (given [.pseudoWrite .heaterOn]).resUreg = none := by decide

theorem witness_RstEventResetsTheCore : (running .selfTest [.rst, .answer .ok]).inputs = .rst :: [.answer .ok] := by decide

theorem witness_StepKeepsTheInvariant : Inv (running .readT [.answer .ok]) ∧
    (after State.op (step (running .readT [.answer .ok]))).isSome = true := ⟨inv_running _ _ (by decide), by decide⟩

theorem witness_CoreStepsReadNoUnwrittenRegister : Inv (running .selfTest [.answer .ok]) ∧
    (running .selfTest [.answer .ok]).faultMark = none ∧
    (running .selfTest [.answer .ok]).inputs = .answer .ok :: [] :=
  ⟨inv_running _ _ (by decide), by decide, by decide⟩

theorem witness_StepKeepsFloatRegistersFinite :
    let s := { busyAt .readT 2#5 .ok with inputs := [.answer (.bytes [0x68#8, 0x3A#8, 0x7C#8])], params := Config.params }
    InvFloats s ∧ (after State.resVal (step s)).isSome = true := by decide

theorem witness_NoStepChangesAParameter : (after State.params (step (given [.rst]))).isSome = true := by decide

theorem witness_MarksAreSticky :
    (let s := { given [.read .busy] with faultMark := some FaultReason.shortRx };
      s.faultMark.isSome = true ∧ (after State.op (step s)).isSome = true) ∧
    (let s := { given [startInput 0x1000#16] with refusedMark := some RefuseReason.illegalOp };
      s.refusedMark.isSome = true ∧ (after State.op (step s)).isSome = true) ∧
    ∀ rest, [startInput 0x1000#16] ≠ .rst :: rest :=
  ⟨by decide, by decide, nofun⟩

theorem witness_HistoryOnlyGrows :
    (Inv (running .readT [.answer .ok]) ∧ (running .readT [.answer .ok]).busy = true ∧
      (after State.hist (step (running .readT [.answer .ok]))).isSome = true) ∧
    (after State.hist (step (given [startInput 0x1000#16]))).isSome = true :=
  ⟨⟨inv_running _ _ (by decide), by decide, by decide⟩, by decide⟩

theorem witness_EveryCallIsListed :
    let s := { running .writeUreg [.answer .ok] with wpayload := some 0x3B#8, hist := [.dly 90, .rst] }
    s.hist.all (listedEvent s.params) = true ∧ (after State.hist (step s)).isSome = true := by decide

theorem witness_CombinationalPortsTouchNoRegister :
    (Instr.cmdTHold).combinational ∧ (Instr.buildRequest 7#3).combinational ∧
    (Instr.judge 0#64 0#64 0#64 0#64).combinational := ⟨trivial, trivial, trivial⟩

theorem witness_CoreStepsKeepTheOtherRegisters :
    (∀ o ∈ [HostOp.readT, .selfTest, .softReset], (running o [.answer .ok]).inputs = .answer .ok :: [] ∧
      (after State.op (step (running o [.answer .ok]))).isSome = true) ∧
    (running .readT []).op ≠ some .selfTest ∧ (running .selfTest []).op ≠ some .readT ∧
    (running .selfTest []).op ≠ some .readRh ∧ (running .selfTest []).op ≠ some .readUreg := by decide

/-- Each operation ends at its first micro-step when the call fails. -/
theorem witness_ErrorsEachOperationCanEndWith :
    (∀ o, o ≠ .writeUreg → Inv (running o [.answer (.err .timeout)])) ∧
    (∀ o ∈ [HostOp.readT, .readRh, .readUreg, .softReset, .selfTest],
      (running o [.answer (.err .timeout)]).op = some o ∧
      after State.done (step (running o [.answer (.err .timeout)])) = some true) ∧
    after State.done (step { running .writeUreg [.answer .ok] with wpayload := some 0x3B#8 }) = some true :=
  ⟨fun o h => inv_running o _ h, by decide, by decide⟩

theorem witness_EveryMicroStepAdvancesOrEnds : Inv (running .readT [.answer .ok]) ∧
    (running .readT [.answer .ok]).busy = true ∧ (after State.op (step (running .readT [.answer .ok]))).isSome = true :=
  ⟨inv_running _ _ (by decide), by decide, by decide⟩

theorem witness_OperationEndsOrFaultsWithinNineteenAnswers :
    let s := running .selfTest ((List.replicate 19 Answer.ok).map Input.answer ++ [])
    Inv s ∧ s.faultMark = none ∧ s.busy = true ∧ (List.replicate 19 Answer.ok).length = 19 :=
  ⟨inv_running _ _ (by decide), rfl, rfl, by decide⟩

end Sys2Proof.Tests
end

section
/-! The arithmetic of the format F (00_scope.md R10): rounding picks the nearest value with ties to even, each
operation is the exact result of its operands rounded once, and `>_F` compares the real values. -/

namespace Sys2Proof.Machine

/-! ## Rounding a magnitude -/

theorem magVal_zero (f : Fmt) : magVal f 0 = 0 := by simp [magVal]

theorem roundMag_zero (f : Fmt) (d : Nat) (e : ℤ) : roundMag f 0 d e = 0 := if_pos rfl

theorem roundMag_le_infPat (f : Fmt) (n d : Nat) (e : ℤ) : roundMag f n d e ≤ f.infPat := by
  unfold roundMag
  split
  · exact Nat.zero_le _
  · exact Nat.min_le_right _ _

/-- A natural number within one half of a real stays above each natural number the real stays above. -/
theorem le_of_half {m k : Nat} {y : ℚ} (hm : |(m : ℚ) - y| ≤ 1 / 2) (hk : (k : ℚ) ≤ y) : k ≤ m := by
  have h := (abs_le.1 hm).1
  have : (k : ℚ) < m + 1 := by linarith
  exact Nat.lt_succ_iff.1 (by exact_mod_cast this)

/-- A magnitude that does not overflow is rounded to a significand within one half of the exact one, even at one half,
and the pattern has that significand's value. -/
theorem roundMag_finite {f : Fmt} {n d : Nat} {e : ℤ} (hn : 0 < n) (hd : 0 < d) (hr : roundMag f n d e < f.infPat) :
    ∃ (t m : Nat) (y : ℚ), roundMag f n d e = t * 2 ^ f.fracBits + m ∧
      magVal f (roundMag f n d e) = m * 2 ^ (f.minExp + t) ∧ (n : ℚ) / d * 2 ^ e = y * 2 ^ (f.minExp + t) ∧
      |(m : ℚ) - y| ≤ 1 / 2 ∧ (|(m : ℚ) - y| = 1 / 2 → m % 2 = 0) ∧ (t = 0 ∨ (2 : ℚ) ^ f.fracBits ≤ y) := by
  obtain ⟨t, m, y, hb, hx, hm, htie, ht, -, hy⟩ := roundMag_significand f e hn hd
  have hb : roundMag f n d e = t * 2 ^ f.fracBits + m := by omega
  have hle : m ≤ 2 ^ (f.fracBits + 1) := by
    have h := (abs_le.1 hm).2
    have : (m : ℚ) < (2 ^ (f.fracBits + 1) : Nat) + 1 := by push_cast; linarith
    exact Nat.lt_succ_iff.1 (by exact_mod_cast this)
  have hfull : t = 0 ∨ 2 ^ f.fracBits ≤ m := ht.imp_right fun h => le_of_half hm (by exact_mod_cast h)
  exact ⟨t, m, y, hb, by rw [hb, magVal_significand f hle hfull], hx, hm, htie, ht⟩

/-- No significand `k` of the format, in steps of any exponent `s`, is nearer to the exact one than a significand within
one half of it; one as near is the same significand, or the tie is at an even one. -/
theorem significand_nearest {F t m s k : Nat} {y : ℚ} (E : ℤ) (hm : |(m : ℚ) - y| ≤ 1 / 2)
    (htie : |(m : ℚ) - y| = 1 / 2 → m % 2 = 0) (ht : t = 0 ∨ (2 : ℚ) ^ F ≤ y) (hk : k < 2 ^ (F + 1)) :
    |(m : ℚ) * 2 ^ (E + t) - y * 2 ^ (E + t)| ≤ |(k : ℚ) * 2 ^ (E + s) - y * 2 ^ (E + t)| ∧
    (|(m : ℚ) * 2 ^ (E + t) - y * 2 ^ (E + t)| = |(k : ℚ) * 2 ^ (E + s) - y * 2 ^ (E + t)| →
      (s = t ∧ k = m) ∨ m % 2 = 0) := by
  have hQ := two_zpow_pos (E + t)
  have hscale (z : ℚ) : |z * 2 ^ (E + t) - y * 2 ^ (E + t)| = |z - y| * 2 ^ (E + t) := by
    rw [← sub_mul, abs_mul, abs_of_pos hQ]
  rcases Nat.lt_or_ge s t with hst | hst
  -- a finer step: the value lies below 2^F, the least significand of the step taken, and so does not come as near
  · have hy := ht.resolve_left (by omega)
    have hlt : (k : ℚ) * 2 ^ (E + s) < 2 ^ F * 2 ^ (E + t) := by
      have hk' : (k : ℚ) < 2 ^ (F + 1) := by exact_mod_cast hk
      have := two_zpow_pos (E + s)
      calc (k : ℚ) * 2 ^ (E + s) < 2 ^ (F + 1) * 2 ^ (E + s) := by gcongr
        _ = 2 ^ F * 2 ^ (E + s + 1) := by rw [two_zpow_add _ 1, pow_succ]; ring
        _ ≤ 2 ^ F * 2 ^ (E + t) := by
          have := zpow_le_zpow_right₀ (a := (2 : ℚ)) one_le_two (show E + s + 1 ≤ E + t by omega)
          gcongr
    have hnear : |(m : ℚ) - y| ≤ y - 2 ^ F := by
      have h := (nearest_of_half (k := 2 ^ F) hm).1
      push_cast at h
      rwa [abs_of_nonpos (sub_nonpos.2 hy), neg_sub] at h
    have hfar : |(m : ℚ) * 2 ^ (E + t) - y * 2 ^ (E + t)| < |(k : ℚ) * 2 ^ (E + s) - y * 2 ^ (E + t)| :=
      calc |(m : ℚ) * 2 ^ (E + t) - y * 2 ^ (E + t)| = |(m : ℚ) - y| * 2 ^ (E + t) := hscale m
        _ ≤ (y - 2 ^ F) * 2 ^ (E + t) := by gcongr
        _ < y * 2 ^ (E + t) - k * 2 ^ (E + s) := by linarith
        _ ≤ _ := by rw [abs_sub_comm]; exact le_abs_self _
    exact ⟨hfar.le, fun h => absurd h hfar.ne⟩
  -- the same or a coarser step: the value is a natural number of steps
  · obtain ⟨j, rfl⟩ := Nat.exists_eq_add_of_le hst
    have hcoarse : (k : ℚ) * 2 ^ (E + (t + j : Nat)) = (k * 2 ^ j : Nat) * 2 ^ (E + t) := by
      push_cast
      rw [← add_assoc, two_zpow_add _ (j : ℤ), zpow_natCast]
      ring
    obtain ⟨hle, hhalf⟩ := nearest_of_half (k := k * 2 ^ j) hm
    rw [hcoarse, hscale, hscale]
    refine ⟨by gcongr, fun h => ?_⟩
    by_cases hkm : k * 2 ^ j = m
    · rcases j with _ | j
      · exact .inl ⟨rfl, by simpa using hkm⟩
      · right
        rw [← hkm, pow_succ, ← mul_assoc, Nat.mul_mod_left]
    · exact .inr (htie (hhalf hkm (mul_right_cancel₀ hQ.ne' h)))

/-- `roundMag` picks the nearest magnitude, ties to even. -/
theorem roundMag_nearest {f : Fmt} {n d : Nat} {e : ℤ} (hd : 0 < d) (hr : roundMag f n d e < f.infPat) (w : Nat) :
    |magVal f (roundMag f n d e) - n / d * 2 ^ e| ≤ |magVal f w - n / d * 2 ^ e| ∧
    (w ≠ roundMag f n d e → |magVal f (roundMag f n d e) - n / d * 2 ^ e| = |magVal f w - n / d * 2 ^ e| →
      roundMag f n d e % 2 = 0) := by
  rcases Nat.eq_zero_or_pos n with rfl | hn
  · simp [roundMag_zero, magVal_zero]
  obtain ⟨t, m, y, hb, hv, hx, hm, htie, ht⟩ := roundMag_finite hn hd hr
  obtain ⟨s, k, hk, hs, rfl⟩ := exists_significand f w
  rw [hv, hx, magVal_significand f hk.le hs]
  obtain ⟨hle, heven⟩ := significand_nearest (s := s) f.minExp hm htie ht hk
  refine ⟨hle, fun hne h => ?_⟩
  obtain ⟨rfl, rfl⟩ | heven := heven h
  · exact absurd hb.symm hne
  · obtain ⟨-, -, -, -, -, hF⟩ := fmt_widths f
    have : 2 ^ f.fracBits % 2 = 0 := Nat.mod_eq_zero_of_dvd (dvd_pow_self 2 (by omega))
    simp [hb, Nat.add_mod, Nat.mul_mod, this, heven]

/-- Settles O16: a magnitude's value is the one `roundMag_nearest` speaks of. -/
theorem roundingIsToNearestTiesToEven : Obligations.RoundingIsToNearestTiesToEven :=
  fun _ _ _ _ hd hr w _ => roundMag_nearest hd hr w

/-! ## Rounding a signed value -/

/-- `±m`, the sign an operand's `neg` gives its significand. -/
def withSign (neg : Bool) (z : ℚ) : ℚ := if neg then -z else z

theorem abs_withSign (neg : Bool) {z : ℚ} (hz : 0 ≤ z) : |withSign neg z| = z := by
  cases neg <;> simp [withSign, abs_of_nonneg hz]

/-- The distance of two signed values: of their magnitudes where the signs agree, else the sum of the magnitudes. -/
theorem abs_withSign_sub (a b : Bool) {v z : ℚ} (hv : 0 ≤ v) (hz : 0 ≤ z) :
    |withSign a v - withSign b z| = if a = b then |v - z| else v + z := by
  have hneg : |-v + z| = |v - z| := by rw [← abs_neg, neg_add, neg_neg, sub_eq_add_neg]
  have hsum : |-v - z| = v + z := by rw [← abs_neg, abs_of_nonneg (by linarith)]; ring
  cases a <;> cases b <;> simp [withSign, hneg, hsum, abs_of_nonneg (add_nonneg hv hz)]

/-- Where no magnitude of 0 and `m` is nearer to `x` than `v` is, `v` with x's sign is as near as `m` with either sign;
another value is as near only where its magnitude is another one and as near. -/
theorem nearest_withSign {v x m : ℚ} (a b : Bool) (hx : 0 ≤ x) (hv : 0 ≤ v) (hm : 0 ≤ m) (h0 : |v - x| ≤ x)
    (h : |v - x| ≤ |m - x|) :
    |withSign a v - withSign a x| ≤ |withSign b m - withSign a x| ∧
    (withSign b m ≠ withSign a v → |withSign a v - withSign a x| = |withSign b m - withSign a x| →
      m ≠ v ∧ |v - x| = |m - x|) := by
  rw [abs_withSign_sub a a hv hx, abs_withSign_sub b a hm hx, if_pos rfl]
  by_cases hab : b = a
  · subst hab
    rw [if_pos rfl]
    exact ⟨h, fun hne he => ⟨fun hmv => hne (by rw [hmv]), he⟩⟩
  · rw [if_neg hab]
    have hsum : |m - x| ≤ m + x := abs_le.2 ⟨by linarith, by linarith⟩
    refine ⟨h.trans hsum, fun hne he => ⟨?_, le_antisymm h (by rw [he]; exact hsum)⟩⟩
    -- equal magnitudes of opposite signs are as near only at 0, where the signs make no difference
    rintro rfl
    obtain rfl : m = 0 := by linarith
    exact hne (by cases a <;> cases b <;> simp [withSign])

/-- `roundTo` is the rounding of its signed value. -/
theorem isRounded_roundTo (f : Fmt) (neg : Bool) (n : Nat) {d : Nat} (e : ℤ) (hd : 0 < d) :
    IsRounded f (roundTo f neg n d e) (withSign neg (n / d * 2 ^ e)) := by
  set x : ℚ := n / d * 2 ^ e with hx
  have hx0 : 0 ≤ x := by positivity
  obtain ⟨hinf, hfin, hpar⟩ := realOf_signed f neg (roundMag_le_infPat f n d e)
  have hlt : roundMag f n d e < f.infPat ↔ x < overflowAt f := roundMag_lt_infPat f e hd
  unfold IsRounded
  rw [abs_withSign neg hx0]
  rcases (roundMag_le_infPat f n d e).eq_or_lt with h | h
  · have hov : overflowAt f ≤ x := not_lt.1 fun hc => (hlt.2 hc).ne h
    have hpos : 0 < x := (overflowAt_pos f).trans_le hov
    have hsign : decide (withSign neg x < 0) = neg := by
      cases neg <;> simp [withSign, hpos, hpos.le]
    exact .inl ⟨by rw [hsign]; exact hinf h, hov⟩
  · refine .inr ⟨withSign neg (magVal f (roundMag f n d e)), hfin h, hlt.1 h, fun w u hu => ?_⟩
    obtain ⟨b, m, -, rfl⟩ := exists_magVal hu
    have hzero : |magVal f (roundMag f n d e) - x| ≤ x := by
      have h0 := (roundMag_nearest hd h 0).1
      rwa [magVal_zero, ← hx, zero_sub, abs_neg, abs_of_nonneg hx0] at h0
    obtain ⟨hle, htie⟩ := roundMag_nearest hd h m
    obtain ⟨hle', htie'⟩ := nearest_withSign neg b hx0 (magVal_nonneg f _) (magVal_nonneg f m) hzero hle
    refine ⟨hle', fun hne he => ?_⟩
    obtain ⟨hmag, heq⟩ := htie' hne he
    rw [roundTo, hpar]
    exact htie (fun hm => hmag (congrArg _ hm)) heq

/-- A zero of either sign is the rounding of 0. -/
theorem isRounded_zero (f : Fmt) (neg : Bool) : IsRounded f (signed f neg 0) 0 := by
  have h := isRounded_roundTo f neg 0 (d := 1) 0 one_pos
  rw [roundTo, roundMag_zero] at h
  simpa [withSign] using h

/-! ## The operands -/

/-- A finite value is an unpacked significand, signed and scaled. -/
theorem realOf_eq_some {f : Fmt} {x : FBits} {u : ℚ} (h : realOf f x = some u) :
    ∃ (a : Bool) (m : Nat) (e : ℤ), unpack f x = .fin a m e ∧ u = withSign a m * 2 ^ e := by
  unfold realOf at h
  split at h
  case h_1 | h_2 => cases h
  case h_3 a m e hx => exact ⟨a, m, e, hx, (Option.some.inj h).symm⟩

/-- `scaled` counts the value's steps of 2^base. -/
theorem scaled_value (neg : Bool) (m : Nat) {e base : ℤ} (h : base ≤ e) :
    (scaled neg m e base : ℚ) * 2 ^ base = withSign neg m * 2 ^ e := by
  have hp : (2 : ℚ) ^ e = 2 ^ (e - base).toNat * 2 ^ base := by
    rw [← zpow_natCast, ← two_zpow_add]
    congr 1
    omega
  rw [hp]
  cases neg <;> simp [scaled, withSign] <;> ring

/-- Flipping bit `w` of a number changes that bit and not the ones below it. -/
theorem xor_two_pow_bits (n w : Nat) :
    ((n ^^^ 2 ^ w) % 2 ^ (w + 1) / 2 ^ w == 1) = !(n % 2 ^ (w + 1) / 2 ^ w == 1) ∧
    (n ^^^ 2 ^ w) % 2 ^ (w + 1) % 2 ^ w = n % 2 ^ (w + 1) % 2 ^ w := by
  have hbit (k : Nat) : (k % 2 ^ (w + 1) / 2 ^ w == 1) = k.testBit w := by
    rw [pow_succ, Nat.mod_mul_right_div_self, Nat.testBit_eq_decide_div_mod_eq, beq_eq_decide]
  have hlow (k : Nat) : k % 2 ^ (w + 1) % 2 ^ w = k % 2 ^ w := Nat.mod_mod_of_dvd k (pow_dvd_pow 2 (Nat.le_succ w))
  constructor
  · rw [hbit, hbit, Nat.testBit_xor, Nat.testBit_two_pow_self, Bool.xor_true]
  · rw [hlow, hlow, Nat.xor_mod_two_pow, Nat.mod_self, Nat.xor_zero]

/-- `fneg` flips the sign of a pattern and leaves its magnitude. -/
theorem fneg_fields (f : Fmt) (x : FBits) :
    ((fneg f x).toNat % 2 ^ f.width / f.signPat == 1) = !(x.toNat % 2 ^ f.width / f.signPat == 1) ∧
    (fneg f x).toNat % 2 ^ f.width % f.signPat = x.toNat % 2 ^ f.width % f.signPat := by
  have hbits : (fneg f x).toNat = x.toNat ^^^ f.signPat := by
    rw [fneg, BitVec.toNat_xor]
    cases f <;> rfl
  have hw : f.width = f.width - 1 + 1 := by cases f <;> rfl
  rw [hbits, hw]
  exact xor_two_pow_bits x.toNat (f.width - 1)

theorem unpack_fneg {f : Fmt} {x : FBits} {a : Bool} {m : Nat} {e : ℤ} (h : unpack f x = .fin a m e) :
    unpack f (fneg f x) = .fin (!a) m e := by
  obtain ⟨hsign, hmag⟩ := fneg_fields f x
  unfold unpack at h ⊢
  simp only [hsign, hmag] at h ⊢
  split_ifs at h ⊢ <;> cases h <;> rfl

theorem realOf_fneg {f : Fmt} {x : FBits} {u : ℚ} (h : realOf f x = some u) : realOf f (fneg f x) = some (-u) := by
  obtain ⟨a, m, e, hx, rfl⟩ := realOf_eq_some h
  cases a <;> simp [realOf, unpack_fneg hx, withSign]

/-! ## The operations on finite operands -/

section
variable {f : Fmt} {x y : FBits} {a b : Bool} {m n : Nat} {e k : ℤ}

theorem fadd_fin (hx : unpack f x = .fin a m e) (hy : unpack f y = .fin b n k) : fadd f x y =
    let sum := scaled a m e (min e k) + scaled b n k (min e k)
    if sum = 0 then signed f (a && b) 0 else roundTo f (decide (sum < 0)) sum.natAbs 1 (min e k) := by
  simp only [fadd, hx, hy]

theorem fmul_fin (hx : unpack f x = .fin a m e) (hy : unpack f y = .fin b n k) :
    fmul f x y = roundTo f (a != b) (m * n) 1 (e + k) := by
  simp only [fmul, hx, hy]

theorem fdiv_fin (hx : unpack f x = .fin a m e) (hy : unpack f y = .fin b n k) (hn : n ≠ 0) :
    fdiv f x y = roundTo f (a != b) m n (e - k) := by
  simp only [fdiv, hx, hy, if_neg hn]

theorem fgt_fin (hx : unpack f x = .fin a m e) (hy : unpack f y = .fin b n k) :
    fgt f x y = decide (scaled b n k (min e k) < scaled a m e (min e k)) := by
  simp only [fgt, hx, hy]

theorem toB32_fin (hx : unpack .b64 x = .fin a m e) : toB32 x = roundTo .b32 a m 1 e := by
  simp only [toB32, hx]

end

/-! ## Each operation rounds its exact result once -/

/-- The rounding of a whole number of steps of 2^e. -/
theorem isRounded_int (f : Fmt) (k e : ℤ) : IsRounded f (roundTo f (decide (k < 0)) k.natAbs 1 e) (k * 2 ^ e) := by
  have hk : withSign (decide (k < 0)) ((k.natAbs : ℚ) / (1 : Nat) * 2 ^ e) = k * 2 ^ e := by
    rw [Nat.cast_natAbs, Nat.cast_one, div_one]
    rcases lt_or_ge k 0 with h | h
    · simp [withSign, h, abs_of_neg h]
    · simp [withSign, h.not_gt, abs_of_nonneg h]
  exact hk ▸ isRounded_roundTo f (decide (k < 0)) k.natAbs (d := 1) e one_pos

theorem isRounded_fadd {f : Fmt} {x y : FBits} {u v : ℚ} (hu : realOf f x = some u) (hv : realOf f y = some v) :
    IsRounded f (fadd f x y) (u + v) := by
  obtain ⟨a, m, e, hx, rfl⟩ := realOf_eq_some hu
  obtain ⟨b, n, k, hy, rfl⟩ := realOf_eq_some hv
  rw [fadd_fin hx hy, ← scaled_value a m (min_le_left e k), ← scaled_value b n (min_le_right e k), ← add_mul,
    ← Int.cast_add]
  dsimp only
  split
  case isTrue h => rw [h, Int.cast_zero, zero_mul]; exact isRounded_zero f (a && b)
  case isFalse => exact isRounded_int f _ _

theorem isRounded_fsub {f : Fmt} {x y : FBits} {u v : ℚ} (hu : realOf f x = some u) (hv : realOf f y = some v) :
    IsRounded f (fsub f x y) (u - v) :=
  sub_eq_add_neg u v ▸ isRounded_fadd hu (realOf_fneg hv)

theorem isRounded_fmul {f : Fmt} {x y : FBits} {u v : ℚ} (hu : realOf f x = some u) (hv : realOf f y = some v) :
    IsRounded f (fmul f x y) (u * v) := by
  obtain ⟨a, m, e, hx, rfl⟩ := realOf_eq_some hu
  obtain ⟨b, n, k, hy, rfl⟩ := realOf_eq_some hv
  have hval : withSign (a != b) (((m * n : Nat) : ℚ) / (1 : Nat) * 2 ^ (e + k)) =
      withSign a m * 2 ^ e * (withSign b n * 2 ^ k) := by
    rw [two_zpow_add, Nat.cast_mul, Nat.cast_one, div_one, mul_mul_mul_comm]
    cases a <;> cases b <;> simp [withSign]
  rw [fmul_fin hx hy, ← hval]
  exact isRounded_roundTo f _ _ _ one_pos

theorem isRounded_fdiv {f : Fmt} {x y : FBits} {u v : ℚ} (hu : realOf f x = some u) (hv : realOf f y = some v)
    (hv0 : v ≠ 0) : IsRounded f (fdiv f x y) (u / v) := by
  obtain ⟨a, m, e, hx, rfl⟩ := realOf_eq_some hu
  obtain ⟨b, n, k, hy, rfl⟩ := realOf_eq_some hv
  have hn : n ≠ 0 := by
    rintro rfl
    exact hv0 (by simp [withSign])
  have hval : withSign (a != b) ((m : ℚ) / n * 2 ^ (e - k)) = withSign a m * 2 ^ e / (withSign b n * 2 ^ k) := by
    rw [zpow_sub₀ two_ne_zero, mul_div_mul_comm]
    cases a <;> cases b <;> simp [withSign, neg_div, div_neg]
  rw [fdiv_fin hx hy hn, ← hval]
  exact isRounded_roundTo f _ _ _ (Nat.pos_of_ne_zero hn)

theorem isRounded_toB32 {x : FBits} {u : ℚ} (hu : realOf .b64 x = some u) : IsRounded .b32 (toB32 x) u := by
  obtain ⟨a, m, e, hx, rfl⟩ := realOf_eq_some hu
  have hval : withSign a ((m : ℚ) / (1 : Nat) * 2 ^ e) = withSign a m * 2 ^ e := by cases a <;> simp [withSign]
  rw [toB32_fin hx, ← hval]
  exact isRounded_roundTo .b32 _ _ _ one_pos

theorem isRounded_literal (f : Fmt) (c : Literal) :
    IsRounded f (c.fl f) ((if c.neg then -(c.hundredths : ℚ) else c.hundredths) / 100) := by
  have hval : withSign c.neg ((c.hundredths : ℚ) / (100 : Nat) * 2 ^ (0 : ℤ)) =
      (if c.neg then -(c.hundredths : ℚ) else c.hundredths) / 100 := by
    cases h : c.neg <;> simp [withSign, neg_div]
  rw [← hval]
  exact isRounded_roundTo f _ _ _ (by norm_num)

theorem isRounded_ofNatF (f : Fmt) (n : Nat) : IsRounded f (ofNatF f n) n := by
  have hval : withSign false ((n : ℚ) / (1 : Nat) * 2 ^ (0 : ℤ)) = n := by simp [withSign]
  exact hval ▸ isRounded_roundTo f false n (d := 1) 0 one_pos

/-- Settles O17: one lemma per operation, each by `isRounded_roundTo` at the operation's exact result. -/
theorem arithmeticRoundsTheExactResultOnce : Obligations.ArithmeticRoundsTheExactResultOnce :=
  ⟨fun _ _ _ _ _ hx hy => ⟨isRounded_fadd hx hy, isRounded_fsub hx hy, isRounded_fmul hx hy, isRounded_fdiv hx hy⟩,
    fun _ _ => isRounded_toB32, isRounded_literal, isRounded_ofNatF⟩

/-! ## The comparison -/

theorem fgt_nan_left {f : Fmt} {x : FBits} (y : FBits) (h : unpack f x = .nan) : fgt f x y = false := by
  simp only [fgt, h]

theorem fgt_nan_right {f : Fmt} (x : FBits) {y : FBits} (h : unpack f y = .nan) : fgt f x y = false := by
  cases hx : unpack f x <;> simp only [fgt, hx, h]

/-- On a common quantum the order of the values is that of the whole numbers of steps. -/
theorem scaled_lt_scaled_iff (a b : Bool) (m n : Nat) (e k : ℤ) :
    scaled b n k (min e k) < scaled a m e (min e k) ↔ withSign b n * 2 ^ k < withSign a m * (2 : ℚ) ^ e := by
  rw [← scaled_value a m (min_le_left e k), ← scaled_value b n (min_le_right e k),
    mul_lt_mul_iff_of_pos_right (two_zpow_pos _), Int.cast_lt]

/-- Settles O18: finite operands are compared as whole numbers of steps of their common quantum. -/
theorem greaterThanIsOrdered : Obligations.GreaterThanIsOrdered := by
  intro f x y
  refine ⟨?_, fun a b m n e k hx hy => ?_⟩
  · rintro (h | h)
    · exact fgt_nan_left y h
    · exact fgt_nan_right x h
  · rw [fgt_fin hx hy, decide_eq_true_iff]
    exact scaled_lt_scaled_iff a b m n e k

end Sys2Proof.Machine
end

section
/-! What a micro-step can do, said once (43_orchestrator.md R225, R226; 44_self_test.md R261 to R271). -/

namespace Sys2Proof.Machine

/-- The state in which the call of micro-step `n` of `o` and its answer have joined the history (R221 item 3). -/
def State.called (o : HostOp) (n : Nat) (a : Answer) (s : State) : State :=
  { s with hist := s.hist ++ (microEvent o n a s).toList }

theorem called_eq_record {o : HostOp} {n : Nat} {a : Answer} {s : State} {e : Event}
    (h : microEvent o n a s = some e) : s.called o n a = s.record e := by
  simp [State.called, State.record, h]

theorem called_eq_self {o : HostOp} {n : Nat} {a : Answer} {s : State} (h : microEvent o n a s = none) :
    s.called o n a = s := by
  simp [State.called, h]

/-- A value some reading converts to (R193, R196). -/
def IsConverted (ne : NumEval) (v : FBits) : Prop := ∃ k b0 b1 b2, convert k ne b0 b1 b2 = some v

/-- A rule of micro-step `n` of `o` reads a register that is `⊥`. -/
abbrev ReadsUnwritten (o : HostOp) (n : Nat) (s : State) : Prop :=
  (o = .writeUreg ∧ s.wpayload = none) ∨
  (o = .selfTest ∧ ((n = 8 ∨ n = 18) ∧ s.uregBase = none ∨ 16 ≤ n ∧ s.pendErr = none))

/-- From micro-step `n` the next one is `m`, with no register to write on the way: the micro-steps of SELF_TEST that
receive each write one. -/
abbrev IsNext (o : HostOp) (n : Nat) (m : BitVec 5) : Prop :=
  m.toNat = n + 1 ∧ n + 1 < progLen (some o) ∧ (o = .selfTest → n ∉ [2, 5, 7, 12, 15, 17])

/-- The errors with which micro-step `n` of `o` can end the operation (R302, R270, R271). -/
abbrev CanEndWith (o : HostOp) (n : Nat) (s : State) (e : ErrorKind) : Prop :=
  isTransport e ∨
  (e = .checksumMismatch ∧ (o = .readT ∨ o = .readRh ∨ o = .selfTest ∧ n ≤ 15)) ∨
  (e = .noneErr ∧ (o = .writeUreg ∨ o = .softReset)) ∨
  (o = .selfTest ∧ 16 ≤ n ∧ s.pendErr = some e)

/-- What micro-step `n` of `o` does from the state `s` after its call. -/
inductive MicroEffect (o : HostOp) (n : Nat) (s : State) : State → Prop where
  /-- The answer is outside the contract or has a wrong length (R310, R314). -/
  | faults (r : FaultReason) (hr : r = .shortRx ∨ r = .xportContract) : MicroEffect o n s (s.setFault r)
  /-- The rule reads an unwritten register. -/
  | unwritten (h : ReadsUnwritten o n s) : MicroEffect o n s (s.setFault .readUnwritten)
  /-- `STEP` moves on. -/
  | advances (m : BitVec 5) (h : IsNext o n m) : MicroEffect o n s (s.goto m)
  /-- The operation ends. -/
  | ends (e : ErrorKind) (h : CanEndWith o n s e) : MicroEffect o n s (s.finish e)
  /-- A measurement ends with its value (R230, R231). -/
  | measured (v : FBits) (ho : o = .readT ∨ o = .readRh) (hv : IsConverted s.params.numEval v) :
    MicroEffect o n s (storeValue v s)
  /-- READ_UREG ends with the byte (R233). -/
  | uregRead (u : Byte) (ho : o = .readUreg) : MicroEffect o n s (storeUreg u s)
  /-- The baseline and recheck readings are kept (R262, R266). -/
  | tStart (v : FBits) (ho : o = .selfTest) (hn : n = 2) (hv : IsConverted s.params.numEval v) :
    MicroEffect o n s (storeTStart v s)
  | hStart (v : FBits) (ho : o = .selfTest) (hn : n = 5) (hv : IsConverted s.params.numEval v) :
    MicroEffect o n s (storeHStart v s)
  | tAfter (v : FBits) (ho : o = .selfTest) (hn : n = 12) (hv : IsConverted s.params.numEval v) :
    MicroEffect o n s (storeTAfter v s)
  /-- `UREG_BASE` is read, before the heater write and before the cleanup write (R263, R268). -/
  | base (m : BitVec 5) (u : Byte) (ho : o = .selfTest) (hn : n = 7 ∧ m = 8#5 ∨ n = 17 ∧ m = 18#5) :
    MicroEffect o n s (storeBase m u s)
  /-- The verdict is taken (R266, R267). -/
  | judged (v t0 h0 t1 : FBits) (ho : o = .selfTest) (hn : n = 15) (hv : IsConverted s.params.numEval v)
    (ht0 : s.tStart = some t0) (hh0 : s.hStart = some h0) (ht1 : s.tAfter = some t1) :
    MicroEffect o n s (takeVerdict (judge s.params t0 h0 t1 v) { s with hAfter := some v })
  /-- The judge reads an unwritten register. -/
  | unjudged (v : FBits) (ho : o = .selfTest) (hn : n = 15) (hv : IsConverted s.params.numEval v)
    (h : s.tStart = none ∨ s.hStart = none ∨ s.tAfter = none) :
    MicroEffect o n s (State.setFault .readUnwritten { s with hAfter := some v })
  /-- An error goes to cleanup (R270). -/
  | aborts (e : ErrorKind) (ho : o = .selfTest) (hn : n ≤ 15) (he : isTransport e ∨ e = .checksumMismatch)
    (hc : s.params.cleanupOnAbort = true) : MicroEffect o n s ({ s with pendErr := some e }.goto 16#5)

namespace MicroEffect

variable {o : HostOp} {n : Nat} {a : Answer} {s u : State} {rule : Micro}

/-! ## The calls -/

theorem of_transmit {f : BitVec 16} {p : List Byte} {kOk : State → State} {kErr : ErrorKind → State → State}
    (hev : microEvent o n a s = some (.tx f p a)) (hok : ∀ u, MicroEffect o n u (kOk u))
    (herr : ∀ k u, isTransport k → MicroEffect o n u (kErr k u)) :
    MicroEffect o n (s.called o n a) (transmit f p a kOk kErr s) := by
  rw [called_eq_record hev]
  exact transmit_elim (fun _ => hok _) (fun _ k _ _ hk => herr k _ hk) (.faults _ (.inr rfl))

theorem of_delay {ms : Nat} {kOk : State → State} (hev : microEvent o n a s = some (.dly ms))
    (hok : ∀ u, MicroEffect o n u (kOk u)) : MicroEffect o n (s.called o n a) (delay ms a kOk s) := by
  rw [called_eq_record hev]
  exact delay_elim (fun _ => hok _) (.faults _ (.inr rfl))

theorem of_measRx {k : MeasKind} {kVal : FBits → State → State} {kErr : ErrorKind → State → State}
    (hev : microEvent o n a s = some (.rx Config.devAddr 3 a))
    (hval : ∀ v u, IsConverted u.params.numEval v → MicroEffect o n u (kVal v u))
    (herr : ∀ k u, isTransport k ∨ k = .checksumMismatch → MicroEffect o n u (kErr k u)) :
    MicroEffect o n (s.called o n a) (measRx k a kVal kErr s) := by
  rw [called_eq_record hev]
  exact measRx_elim (fun b0 b1 b2 v _ hv => hval v _ ⟨k, b0, b1, b2, hv⟩) (fun _ _ _ _ _ => herr _ _ (.inr rfl))
    (fun _ e _ _ he => herr e _ (.inl he)) (fun r hr => .faults r hr)

theorem of_ureadRx {kByte : Byte → State → State} {kErr : ErrorKind → State → State}
    (hev : microEvent o n a s = some (.rx Config.devAddr 1 a)) (hbyte : ∀ b u, MicroEffect o n u (kByte b u))
    (herr : ∀ k u, isTransport k → MicroEffect o n u (kErr k u)) :
    MicroEffect o n (s.called o n a) (ureadRx a kByte kErr s) := by
  rw [called_eq_record hev]
  exact ureadRx_elim (fun b _ => hbyte b _) (fun _ k _ _ hk => herr k _ hk) (fun r hr => .faults r hr)

/-! ## The rules of SELF_TEST for errors and the verdict -/

theorem of_abort {e : ErrorKind} (hn : n ≤ 15) (he : isTransport e ∨ e = .checksumMismatch) (u : State) :
    MicroEffect .selfTest n u (abort e u) :=
  abort_elim (fun hc _ => .aborts e rfl hn he hc)
    (.ends e (he.imp_right fun h => .inl ⟨h, .inr (.inr ⟨rfl, hn⟩)⟩))

theorem of_cleanupErr {e : ErrorKind} (hn : 16 ≤ n) (he : isTransport e) (u : State) :
    MicroEffect .selfTest n u (cleanupErr e u) :=
  cleanupErr_elim (fun _ => .ends e (.inl he)) (fun p hp => .ends p (.inr (.inr (.inr ⟨rfl, hn, hp⟩))))
    (fun hp => .unwritten (.inr ⟨rfl, .inr ⟨hn, hp⟩⟩))

theorem of_storeHAfter {v : FBits} (u : State) (hv : IsConverted u.params.numEval v) :
    MicroEffect .selfTest 15 u (storeHAfter v u) :=
  readReg_elim (fun t0 ht0 => readReg_elim (fun h0 hh0 => readReg_elim
    (fun t1 ht1 => .judged v t0 h0 t1 rfl rfl hv ht0 hh0 ht1)
    (fun h => .unjudged v rfl rfl hv (.inr (.inr h)))) (fun h => .unjudged v rfl rfl hv (.inr (.inl h))))
    (fun h => .unjudged v rfl rfl hv (.inl h))

/-! ## The micro-programs -/

theorem of_progReadT (hr : progReadT n = some rule) : MicroEffect .readT n (s.called .readT n a) (rule a s) :=
  match n, hr with
  | 0, rfl => of_transmit rfl (fun _ => .advances _ (by decide)) (fun k _ hk => .ends k (.inl hk))
  | 1, rfl => of_delay rfl (fun _ => .advances _ (by decide))
  | 2, rfl => of_measRx rfl (fun v _ => .measured v (.inl rfl))
      (fun k _ hk => .ends k (hk.imp_right fun h => .inl ⟨h, .inl rfl⟩))

theorem of_progReadRh (hr : progReadRh n = some rule) : MicroEffect .readRh n (s.called .readRh n a) (rule a s) :=
  match n, hr with
  | 0, rfl => of_transmit rfl (fun _ => .advances _ (by decide)) (fun k _ hk => .ends k (.inl hk))
  | 1, rfl => of_delay rfl (fun _ => .advances _ (by decide))
  | 2, rfl => of_measRx rfl (fun v _ => .measured v (.inr rfl))
      (fun k _ hk => .ends k (hk.imp_right fun h => .inl ⟨h, .inr (.inl rfl)⟩))

theorem of_progReadUreg (hr : progReadUreg n = some rule) :
    MicroEffect .readUreg n (s.called .readUreg n a) (rule a s) :=
  match n, hr with
  | 0, rfl => of_transmit rfl (fun _ => .advances _ (by decide)) (fun k _ hk => .ends k (.inl hk))
  | 1, rfl => of_ureadRx rfl (fun b _ => .uregRead b rfl) (fun k _ hk => .ends k (.inl hk))

theorem of_progWriteUreg (hr : progWriteUreg n = some rule) :
    MicroEffect .writeUreg n (s.called .writeUreg n a) (rule a s) :=
  match n, hr with
  | 0, rfl => readReg_elim
      (fun p hp => of_transmit (by simp [microEvent, hp])
        (fun _ => .ends _ (.inr (.inr (.inl ⟨rfl, .inl rfl⟩)))) (fun k _ hk => .ends k (.inl hk)))
      (fun hp => by
        rw [called_eq_self (by simp [microEvent, hp])]
        exact .unwritten (.inl ⟨rfl, hp⟩))

theorem of_progSoftReset (hr : progSoftReset n = some rule) :
    MicroEffect .softReset n (s.called .softReset n a) (rule a s) :=
  match n, hr with
  | 0, rfl => of_transmit rfl (fun _ => .ends _ (.inr (.inr (.inl ⟨rfl, .inr rfl⟩))))
      (fun k _ hk => .ends k (.inl hk))

theorem selfTest_transmit {f : BitVec 16} {p : List Byte} {m : BitVec 5}
    (hev : microEvent .selfTest n a s = some (.tx f p a)) (hn : n ≤ 15) (hm : IsNext .selfTest n m) :
    MicroEffect .selfTest n (s.called .selfTest n a) (transmit f p a (State.goto m) abort s) :=
  of_transmit hev (fun _ => .advances m hm) (fun _ u hk => of_abort hn (.inl hk) u)

theorem selfTest_delay {ms : Nat} {m : BitVec 5} (hev : microEvent .selfTest n a s = some (.dly ms))
    (hm : IsNext .selfTest n m) :
    MicroEffect .selfTest n (s.called .selfTest n a) (delay ms a (State.goto m) s) :=
  of_delay hev (fun _ => .advances m hm)

theorem selfTest_measRx {k : MeasKind} {kVal : FBits → State → State}
    (hev : microEvent .selfTest n a s = some (.rx Config.devAddr 3 a)) (hn : n ≤ 15)
    (hval : ∀ v u, IsConverted u.params.numEval v → MicroEffect .selfTest n u (kVal v u)) :
    MicroEffect .selfTest n (s.called .selfTest n a) (measRx k a kVal abort s) :=
  of_measRx hev hval (fun _ u hk => of_abort hn hk u)

/-- A micro-step whose payload rests on `UREG_BASE`. -/
theorem selfTest_write {w : Byte → Byte} {kOk : State → State} {kErr : ErrorKind → State → State}
    (hev : microEvent .selfTest n a s =
      s.uregBase.map fun b => .tx (buildRequest s.params .writeUreg) [w b] a) (hn : n = 8 ∨ n = 18)
    (hok : ∀ u, MicroEffect .selfTest n u (kOk u))
    (herr : ∀ k u, isTransport k → MicroEffect .selfTest n u (kErr k u)) :
    MicroEffect .selfTest n (s.called .selfTest n a)
      (readReg s.uregBase (fun b => uwrite (w b) a kOk kErr s) s) :=
  readReg_elim (fun b hb => of_transmit (by rw [hev, hb]; rfl) hok herr) (fun hb => by
    rw [called_eq_self (by rw [hev, hb]; rfl)]
    exact .unwritten (.inr ⟨rfl, .inl ⟨hn, hb⟩⟩))

theorem of_progSelfTest (hr : progSelfTest n = some rule) :
    MicroEffect .selfTest n (s.called .selfTest n a) (rule a s) :=
  match n, hr with
  | 0, rfl => selfTest_transmit rfl (by decide) (by decide)
  | 1, rfl => selfTest_delay rfl (by decide)
  | 2, rfl => selfTest_measRx rfl (by decide) (fun v _ => .tStart v rfl rfl)
  | 3, rfl => selfTest_transmit rfl (by decide) (by decide)
  | 4, rfl => selfTest_delay rfl (by decide)
  | 5, rfl => selfTest_measRx rfl (by decide) (fun v _ => .hStart v rfl rfl)
  | 6, rfl => selfTest_transmit rfl (by decide) (by decide)
  | 7, rfl => of_ureadRx rfl (fun b _ => .base _ b rfl (.inl ⟨rfl, rfl⟩))
      (fun _ u hk => of_abort (by decide) (.inl hk) u)
  | 8, rfl => selfTest_write rfl (.inl rfl) (fun _ => .advances _ (by decide))
      (fun _ u hk => of_abort (by decide) (.inl hk) u)
  | 9, rfl => selfTest_delay rfl (by decide)
  | 10, rfl => selfTest_transmit rfl (by decide) (by decide)
  | 11, rfl => selfTest_delay rfl (by decide)
  | 12, rfl => selfTest_measRx rfl (by decide) (fun v _ => .tAfter v rfl rfl)
  | 13, rfl => selfTest_transmit rfl (by decide) (by decide)
  | 14, rfl => selfTest_delay rfl (by decide)
  | 15, rfl => selfTest_measRx rfl (by decide) (fun _ u hv => of_storeHAfter u hv)
  | 16, rfl => of_transmit rfl (fun _ => .advances _ (by decide)) (fun _ u hk => of_cleanupErr (by decide) hk u)
  | 17, rfl => of_ureadRx rfl (fun b _ => .base _ b rfl (.inr ⟨rfl, rfl⟩))
      (fun _ u hk => of_cleanupErr (by decide) hk u)
  | 18, rfl => selfTest_write rfl (.inr rfl)
      (fun _ => readReg_elim (fun e he => .ends e (.inr (.inr (.inr ⟨rfl, by decide, he⟩))))
        (fun he => .unwritten (.inr ⟨rfl, .inr ⟨by decide, he⟩⟩)))
      (fun _ u hk => of_cleanupErr (by decide) hk u)

end MicroEffect

/-- Everything a micro-step can do. -/
theorem micro_effect {o : HostOp} {n : Nat} {rule : Micro} (hr : prog o n = some rule) (a : Answer) (s : State) :
    MicroEffect o n (s.called o n a) (rule a s) := by
  cases o with
  | readT => exact .of_progReadT hr
  | readRh => exact .of_progReadRh hr
  | readUreg => exact .of_progReadUreg hr
  | writeUreg => exact .of_progWriteUreg hr
  | softReset => exact .of_progSoftReset hr
  | selfTest => exact .of_progSelfTest hr

end Sys2Proof.Machine
end

section
/-! Every conversion result is a finite value of the format F (10_state.md R46): each operation on values within a bound
has a result within twice the exact bound, far below `overflowAt`. -/

namespace Sys2Proof.Machine

/-! ## Results lie within the format's width -/

theorem infPat_lt_signPat (f : Fmt) : f.infPat < f.signPat := by cases f <;> decide

theorem fitsF_signed (f : Fmt) (neg : Bool) {b : Nat} (hb : b ≤ f.infPat) : fitsF f (signed f neg b) = true := by
  have hlt := infPat_lt_signPat f
  obtain ⟨hw, -⟩ := fmt_widths f
  rw [fitsF, decide_eq_true_iff, signed, BitVec.toNat_ofNat, hw]
  refine (Nat.mod_le _ _).trans_lt ?_
  split <;> omega

theorem fitsF_roundTo (f : Fmt) (neg : Bool) (n d : Nat) (e : ℤ) : fitsF f (roundTo f neg n d e) = true :=
  fitsF_signed f neg (roundMag_le_infPat f n d e)

theorem fitsF_nanPat (f : Fmt) : fitsF f (nanPat f) = true := by cases f <;> decide

theorem fitsF_fadd (f : Fmt) (x y : FBits) : fitsF f (fadd f x y) = true := by
  unfold fadd
  split
  · exact fitsF_nanPat f
  · exact fitsF_nanPat f
  · split
    · exact fitsF_signed f _ le_rfl
    · exact fitsF_nanPat f
  · exact fitsF_signed f _ le_rfl
  · exact fitsF_signed f _ le_rfl
  · dsimp only
    split
    · exact fitsF_signed f _ (Nat.zero_le _)
    · exact fitsF_roundTo f ..

theorem fitsF_toB32 (x : FBits) : fitsF .b32 (toB32 x) = true := by
  unfold toB32
  split
  · exact fitsF_nanPat .b32
  · exact fitsF_signed .b32 _ le_rfl
  · exact fitsF_roundTo .b32 ..

/-! ## Results within a bound -/

/-- The pattern's value is finite and of magnitude at most `B`. -/
def BoundedBy (f : Fmt) (x : FBits) (B : ℚ) : Prop := ∃ v, realOf f x = some v ∧ |v| ≤ B

theorem BoundedBy.isFinite {f : Fmt} {x : FBits} {B : ℚ} (h : BoundedBy f x B) : isFinite f x = true := by
  obtain ⟨v, hv, -⟩ := h
  obtain ⟨a, m, e, hx, -⟩ := realOf_eq_some hv
  simp [Sys2Proof.isFinite, hx]

theorem realOf_zero (f : Fmt) : realOf f 0#64 = some 0 := by cases f <;> simp [realOf, unpack, Fmt.expBits]

theorem lt_overflowAt (f : Fmt) : (10000000 : ℚ) < overflowAt f := by
  have hsig : (10000000 : ℚ) < 2 ^ (f.fracBits + 2) - 1 := by cases f <;> norm_num [Fmt.fracBits]
  have hexp : 0 ≤ f.minExp + 2 ^ f.expBits - 4 := by cases f <;> decide
  exact hsig.trans_le (le_mul_of_one_le_right (by linarith) (one_le_zpow₀ one_le_two hexp))

/-- Below the overflow a rounded value is finite; 0 is no nearer, so it is at most twice as large. -/
theorem IsRounded.boundedBy {f : Fmt} {r : FBits} {z B : ℚ} (h : IsRounded f r z) (hz : |z| ≤ B)
    (hB : B ≤ 10000000) : BoundedBy f r (2 * B) := by
  obtain ⟨-, hov⟩ | ⟨v, hv, -, hnear⟩ := h
  · linarith [lt_overflowAt f]
  · have h0 := (hnear 0#64 0 (realOf_zero f)).1
    rw [zero_sub, abs_neg] at h0
    have htri := abs_sub_abs_le_abs_sub v z
    exact ⟨v, hv, by linarith⟩

theorem BoundedBy.fadd {f : Fmt} {x y : FBits} {A B : ℚ} (hx : BoundedBy f x A) (hy : BoundedBy f y B)
    (h : A + B ≤ 10000000) : BoundedBy f (fadd f x y) (2 * (A + B)) := by
  obtain ⟨u, hu, hA⟩ := hx
  obtain ⟨v, hv, hB⟩ := hy
  exact (isRounded_fadd hu hv).boundedBy ((abs_add_le u v).trans (add_le_add hA hB)) h

theorem BoundedBy.fmul {f : Fmt} {x y : FBits} {A B : ℚ} (hx : BoundedBy f x A) (hy : BoundedBy f y B)
    (h : A * B ≤ 10000000) : BoundedBy f (fmul f x y) (2 * (A * B)) := by
  obtain ⟨u, hu, hA⟩ := hx
  obtain ⟨v, hv, hB⟩ := hy
  have huv : |u * v| ≤ A * B := by
    rw [abs_mul]
    exact mul_le_mul hA hB (abs_nonneg v) ((abs_nonneg u).trans hA)
  exact (isRounded_fmul hu hv).boundedBy huv h

theorem BoundedBy.toB32 {x : FBits} {B : ℚ} (hx : BoundedBy .b64 x B) (h : B ≤ 10000000) :
    BoundedBy .b32 (toB32 x) (2 * B) := by
  obtain ⟨u, hu, hB⟩ := hx
  exact (isRounded_toB32 hu).boundedBy hB h

/-! ## The evaluation -/

theorem realOf_ofNatF_65536 (f : Fmt) : realOf f (ofNatF f 65536) = some 65536 := by
  have h32 : unpack .b32 (ofNatF .b32 65536) = .fin false (2 ^ 23) (-7) := by decide
  have h64 : unpack .b64 (ofNatF .b64 65536) = .fin false (2 ^ 52) (-36) := by decide
  cases f <;> norm_num [realOf, h32, h64]

/-- The masked reading over 65536. -/
theorem fdiv_reading_boundedBy (f : Fmt) (m : BitVec 16) :
    BoundedBy f (fdiv f (ofNatF f m.toNat) (ofNatF f 65536)) 4 := by
  have hm : |(m.toNat : ℚ)| ≤ 65536 := by
    rw [Nat.abs_cast]
    exact_mod_cast m.isLt.le
  obtain ⟨u, hu, hA⟩ := (isRounded_ofNatF f m.toNat).boundedBy hm (by norm_num)
  have hq : |u / 65536| ≤ 2 := by
    rw [abs_div, abs_of_pos (by norm_num : (0 : ℚ) < 65536), div_le_iff₀ (by norm_num)]
    exact hA
  have h := (isRounded_fdiv hu (realOf_ofNatF_65536 f) (by norm_num)).boundedBy hq (by norm_num)
  norm_num at h
  exact h

theorem literal_boundedBy (f : Fmt) (c : Literal) (h : c.hundredths ≤ 20000) : BoundedBy f (c.fl f) 400 := by
  have hc : |(if c.neg then -(c.hundredths : ℚ) else c.hundredths) / 100| ≤ 200 := by
    have hq : (c.hundredths : ℚ) ≤ 20000 := by exact_mod_cast h
    rw [abs_div, apply_ite abs, abs_neg, ite_self, Nat.abs_cast, abs_of_pos (by norm_num : (0 : ℚ) < 100),
      div_le_iff₀ (by norm_num)]
    linarith
  have h := (isRounded_literal f c).boundedBy hc (by norm_num)
  norm_num at h
  exact h

/-- With coefficients of at most 200 the three steps stay below 7200. -/
theorem evalIn_boundedBy (f : Fmt) {c0 c1 : Literal} (h0 : c0.hundredths ≤ 20000) (h1 : c1.hundredths ≤ 20000)
    (m : BitVec 16) : BoundedBy f (evalIn f c0 c1 m) 7200 := by
  have hp := (literal_boundedBy f c1 h1).fmul (fdiv_reading_boundedBy f m) (by norm_num)
  have hs := (literal_boundedBy f c0 h0).fadd hp (by norm_num)
  norm_num at hs
  exact hs

theorem evalScheme_finite (ne : NumEval) {c0 c1 : Literal} (h0 : c0.hundredths ≤ 20000)
    (h1 : c1.hundredths ≤ 20000) (m : BitVec 16) :
    isFinite ne.fmt (evalScheme ne c0 c1 m) = true ∧ fitsF ne.fmt (evalScheme ne c0 c1 m) = true := by
  cases ne with
  | e64 => exact ⟨(evalIn_boundedBy .b64 h0 h1 m).isFinite, fitsF_fadd ..⟩
  | e64To32 => exact ⟨((evalIn_boundedBy .b64 h0 h1 m).toB32 (by norm_num)).isFinite, fitsF_toB32 _⟩
  | e32 => exact ⟨(evalIn_boundedBy .b32 h0 h1 m).isFinite, fitsF_fadd ..⟩

/-- A conversion that answers a value evaluates the masked reading with literals below 200. -/
theorem convert_eq_some {k : MeasKind} {ne : NumEval} {b0 b1 b2 : Byte} {v : FBits}
    (h : convert k ne b0 b1 b2 = some v) : ∃ c0 c1 : Literal, c0.hundredths ≤ 20000 ∧ c1.hundredths ≤ 20000 ∧
      v = evalScheme ne c0 c1 (masked b0 b1) := by
  cases k with
  | temp =>
    obtain ⟨-, hv⟩ := Option.ite_none_right_eq_some.1 h
    exact ⟨Config.tC0, Config.tC1, by decide, by decide, (Option.some.inj hv).symm⟩
  | hum =>
    obtain ⟨-, hv⟩ := Option.ite_none_right_eq_some.1 h
    exact ⟨Config.rhC0, Config.rhC1, by decide, by decide, (Option.some.inj hv).symm⟩

/-- Settles O15: a conversion is an evaluation with small literals. -/
theorem conversionsAreFinite : Obligations.ConversionsAreFinite := by
  intro k ne b0 b1 b2 v h
  obtain ⟨c0, c1, h0, h1, rfl⟩ := convert_eq_some h
  exact evalScheme_finite ne h0 h1 _

end Sys2Proof.Machine
end

section
/-! Which registers a step of CORE, an act of the host and a combinational instruction leave (10_state.md R35 to R44,
R59), where no step is made (60_exceptions.md R312), and what SELF_TEST writes to the sensor (10_state.md R51). -/

namespace Sys2Proof.Machine

variable {s s' : State} {a : Answer} {rest : List Input}

/-- Everything a step of CORE can do when XPORT answers. -/
theorem step_answer_effect (hi : s.inputs = .answer a :: rest) (h : step s = .next s') :
    s.faultMark = none ∧ (s' = (s.takeHost rest).setFault .xportContract ∨
      ∃ o rule, s.busy = true ∧ s.op = some o ∧ prog o s.stepIx.toNat = some rule ∧ s' = rule a (s.takeHost rest)) := by
  cases step_effect h with
  | idle hi' => rw [hi] at hi'; cases hi'
  | host i _ hi' ha => rw [hi] at hi'; cases hi'; exact absurd rfl (ha a)
  | unasked _ _ hi' hf => rw [hi] at hi'; cases hi'; exact ⟨hf, .inl rfl⟩
  | micro _ _ hi' hf hb o ho rule hr => rw [hi] at hi'; cases hi'; exact ⟨hf, .inr ⟨o, rule, hb, ho, hr, rfl⟩⟩

/-! ## Which registers stay -/

/-- The scratch registers of SELF_TEST stay (R39 to R42). -/
structure ScratchKept (s t : State) : Prop where
  tStart : t.tStart = s.tStart
  hStart : t.hStart = s.hStart
  tAfter : t.tAfter = s.tAfter
  hAfter : t.hAfter = s.hAfter
  uregBase : t.uregBase = s.uregBase
  verdict : t.verdict = s.verdict
  pendErr : t.pendErr = s.pendErr

namespace MicroEffect

variable {o : HostOp} {n : Nat} {t : State}

theorem scratchKept (h : MicroEffect o n s t) (ho : o ≠ .selfTest) : ScratchKept s t := by
  cases h with
  | faults | unwritten | advances | ends | measured | uregRead => exact ⟨rfl, rfl, rfl, rfl, rfl, rfl, rfl⟩
  | tStart _ hs | hStart _ hs | tAfter _ hs | base _ _ hs | judged _ _ _ _ hs | unjudged _ hs | aborts _ hs =>
    exact absurd hs ho

theorem resVal_kept (h : MicroEffect o n s t) (hT : o ≠ .readT) (hRh : o ≠ .readRh) : t.resVal = s.resVal := by
  cases h with
  | measured _ ho => exact (ho.elim hT hRh).elim
  | _ => rfl

theorem resUreg_kept (h : MicroEffect o n s t) (ho : o ≠ .readUreg) : t.resUreg = s.resUreg := by
  cases h with
  | uregRead _ hr => exact absurd hr ho
  | _ => rfl

end MicroEffect

/-- Settles O57: a step of CORE faults an unasked answer or makes a micro-step, and `MicroEffect` says what that
writes. -/
theorem coreStepsKeepTheOtherRegisters : Obligations.CoreStepsKeepTheOtherRegisters := by
  intro s s' a rest hi h
  obtain ⟨-, rfl | ⟨o, rule, -, ho, hr, rfl⟩⟩ := step_answer_effect hi h
  · exact ⟨rfl, rfl, rfl, rfl, fun _ => ⟨rfl, rfl, rfl, rfl, rfl, rfl, rfl⟩, fun _ _ => rfl, fun _ => rfl⟩
  · have keeps := micro_keeps hr a (s.takeHost rest)
    have effect := micro_effect hr a (s.takeHost rest)
    rw [ho]
    refine ⟨keeps.wpayload, keeps.refusedMark, keeps.portOut, keeps.inputs, fun hne => ?_, fun hT hRh => ?_,
      fun hU => ?_⟩
    · have k := effect.scratchKept (fun e => hne (congrArg some e))
      exact ⟨k.tStart, k.hStart, k.tAfter, k.hAfter, k.uregBase, k.verdict, k.pendErr⟩
    · exact effect.resVal_kept (fun e => hT (congrArg some e)) (fun e => hRh (congrArg some e))
    · exact effect.resUreg_kept (fun e => hU (congrArg some e))

/-! ## The marks -/

theorem startWrites_refusedMark (o : HostOp) (p : Byte) (s : State) :
    (startWrites o p s).refusedMark = s.refusedMark := by
  cases o <;> rfl

theorem pseudoWrite_marks (p : Pseudo) (s : State) :
    (pseudoWrite p s).faultMark = s.faultMark ∧ (pseudoWrite p s).refusedMark = s.refusedMark :=
  pseudoWrite_elim (P := fun t => t.faultMark = s.faultMark ∧ t.refusedMark = s.refusedMark)
    (fun _ _ => ⟨rfl, rfl⟩) (fun _ => ⟨rfl, rfl⟩)

/-- An act of the host other than `rst` clears no mark: a start is made only where `FAULT` is clear. -/
theorem HostEffect.keeps_marks {i : Input} (h : HostEffect i s s') (hi : i ≠ .rst) :
    (s.faultMark.isSome = true → s'.faultMark.isSome = true) ∧
    (s.refusedMark.isSome = true → s'.refusedMark.isSome = true) := by
  cases h with
  | shows => exact ⟨id, id⟩
  | faults => exact ⟨fun _ => rfl, id⟩
  | refuses => exact ⟨id, fun _ => rfl⟩
  | starts o p hf => simp [hf, startWrites_refusedMark]
  | resets hr => exact absurd hr hi
  | writes p =>
    obtain ⟨hf, hr⟩ := pseudoWrite_marks p s
    rw [hf, hr]
    exact ⟨id, id⟩

/-- Settles O53: CORE moves only where `FAULT` is clear and never writes `REFUSED`. -/
theorem marksAreSticky : Obligations.MarksAreSticky := by
  intro s s' h hrst
  cases step_effect h with
  | idle => exact ⟨id, id⟩
  | host i rest hi _ _ heff => exact heff.keeps_marks (fun e => hrst rest (e ▸ hi))
  | unasked => exact ⟨fun _ => rfl, id⟩
  | micro a rest _ hf _ o _ rule hr =>
    rw [(micro_keeps hr a (s.takeHost rest)).refusedMark, hf]
    exact ⟨nofun, id⟩

/-! ## Where no step is made -/

/-- Settles O40: each of the three cases is one branch of `step`. -/
theorem haltedStuckAndIdle : Obligations.HaltedStuckAndIdle := by
  intro s
  refine ⟨fun r a rest hf hi => ?_, fun hf hb hi => ?_, fun hf hb hi => ?_⟩
  · cases ho : s.op with
    | none => simp [step, hi, runningInstr, ho, unaskedAnswer, hf]
    | some o => simp [step, hi, runningInstr, ho, exec_hostOp, hostOperation, runMicro, hf]
  · simp [step, hi, quiesce, hf, hb]
  · simp [step, hi, quiesce, hf, hb]

/-! ## The combinational ports -/

/-- The selector 7 alone names no command (R105). -/
theorem exists_command {c : BitVec 3} (hc : c ≠ 7#3) : ∃ cmd, Command.ofSel c = some cmd :=
  Option.isSome_iff_exists.1 ((by decide : ∀ c : BitVec 3, c ≠ 7#3 → (Command.ofSel c).isSome = true) c hc)

theorem exec_buildRequest_shows {c : BitVec 3} (hc : c ≠ 7#3) (s : State) :
    ∃ v, exec (.buildRequest c) s = .next (s.present v) := by
  obtain ⟨cmd, h⟩ := exists_command hc
  exact ⟨.bldFrame (buildRequest s.params cmd), by simp [exec, execBuildRequest, showFrame, h]⟩

/-- A combinational instruction other than the selector 7 shows a value. -/
theorem exec_combinational_shows {i : Instr} (hi : i.combinational) (h7 : i ≠ .buildRequest 7#3) (s : State) :
    ∃ v, exec i s = .next (s.present v) := by
  cases i with
  | buildRequest c => exact exec_buildRequest_shows (fun e => h7 (congrArg _ e)) s
  | readT | readRh | readUreg | writeUreg | softReset | selfTest => exact hi.elim
  | _ => exact ⟨_, rfl⟩

/-- Settles O56: only the selector 7 is refused. -/
theorem combinationalPortsTouchNoRegister : Obligations.CombinationalPortsTouchNoRegister := by
  intro i s hi
  by_cases h7 : i = .buildRequest 7#3
  · subst h7
    exact .inr ⟨rfl, rfl⟩
  · exact .inl (exec_combinational_shows hi h7 s)

/-! ## The writes of SELF_TEST -/

/-- Setting bits under a mask changes no bit outside it. -/
theorem writeKeepsInvariant_or (u m : Byte) : writeKeepsInvariant u (u ||| m) m = true := by
  simp only [writeKeepsInvariant, beq_iff_eq]
  ext i hi
  simpa using fun h _ => h

/-- Clearing bits under a mask changes no bit outside it. -/
theorem writeKeepsInvariant_and_not (u m : Byte) : writeKeepsInvariant u (u &&& ~~~m) m = true := by
  simp only [writeKeepsInvariant, beq_iff_eq]
  ext i hi
  simp

/-- A call of SELF_TEST with one payload byte is the heater write or the cleanup write, and its payload rests on
`UREG_BASE` (R264, R269). -/
theorem microEvent_selfTest_write {n : Nat} {f : BitVec 16} {p : Byte} {r : Answer}
    (h : microEvent .selfTest n a s = some (.tx f [p] r)) :
    (n = 8 ∨ n = 18) ∧ r = a ∧ ∃ u, s.uregBase = some u ∧ writeKeepsInvariant u p 0x04#8 = true := by
  unfold microEvent at h
  split at h <;>
    simp only [Option.some.injEq, Event.tx.injEq, List.cons.injEq, Option.map_eq_some_iff, reduceCtorEq, false_and,
      and_false, and_true] at h
  case h_9 heq => cases heq
  case h_19 =>
    obtain ⟨u, hu, -, rfl, rfl⟩ := h
    exact ⟨.inl rfl, rfl, u, hu, writeKeepsInvariant_or u 0x04#8⟩
  case h_29 =>
    obtain ⟨u, hu, -, rfl, rfl⟩ := h
    exact ⟨.inr rfl, rfl, u, hu, writeKeepsInvariant_and_not u 0x04#8⟩

/-- A micro-step of an operation adds its call to the history, or, where the answer is to a call not made, nothing. -/
theorem exec_hostOp_hist {o : HostOp} {p : Byte} (hx : s.xans = some a) (h : exec (instrOfHostOp o p) s = .next s') :
    s'.hist = s.hist ++ (microEvent o s.stepIx.toNat a s).toList ∨ s'.hist = s.hist := by
  rw [exec_hostOp, hostOperation, hx] at h
  obtain ⟨-, ⟨-, -, rule, hr, rfl⟩ | rfl⟩ := runMicro_next h
  · exact .inl (micro_keeps hr a s.clearAnswer).hist
  · exact .inr rfl

/-- Settles O35: the one call with a payload byte that a micro-step of SELF_TEST adds is a user-register write. -/
theorem selfTestWritesKeepTheInvariant : Obligations.SelfTestWritesKeepTheInvariant := by
  rintro s s' n a p r ⟨-, -, -, hn, hx⟩ h hist
  have hwrite : microEvent .selfTest n.toNat a s = some (.tx (buildRequest s.params .writeUreg) [p] r) := by
    obtain hev | hev := exec_hostOp_hist (o := .selfTest) (p := 0) hx h
    · rw [hist, List.append_cancel_left_eq, hn] at hev
      exact Option.toList_eq_singleton_iff.1 hev.symm
    · simp [hist] at hev
  obtain ⟨hw, hr, hu⟩ := microEvent_selfTest_write hwrite
  exact ⟨hw.imp BitVec.eq_of_toNat_eq BitVec.eq_of_toNat_eq, hr, hu⟩

end Sys2Proof.Machine
end

section
/-! The invariant of the control registers (10_state.md R31 to R42). -/

namespace Sys2Proof.Machine

variable {s s' t : State}

/-- Settles O48: every register is `⊥`, 0 or false. -/
theorem resetMeetsTheInvariant : Obligations.ResetMeetsTheInvariant :=
  ⟨rfl, by decide, by decide, nofun, nofun, nofun, rfl⟩

theorem progLen_pos (o : Option HostOp) : 0 < progLen o := by
  cases o with
  | none => decide
  | some o => cases o <;> decide

namespace Inv

/-! ## Updates that write no control register -/

theorem setFault (r : FaultReason) (h : Inv s) : Inv (s.setFault r) :=
  ⟨h.op, h.stepIx, h.results, h.payload, h.scratch, h.verdict, h.port⟩

theorem refuse (r : RefuseReason) (h : Inv s) : Inv (s.refuse r) :=
  ⟨h.op, h.stepIx, h.results, h.payload, h.scratch, h.verdict, h.port⟩

theorem present (v : PortOut) (h : Inv s) : Inv (s.present v) :=
  ⟨h.op, h.stepIx, h.results, h.payload, h.scratch, h.verdict, h.port⟩

theorem takeHost (rest : List Input) (h : Inv s) : Inv (s.takeHost rest) :=
  ⟨h.op, h.stepIx, h.results, h.payload, h.scratch, h.verdict, rfl⟩

theorem called (o : HostOp) (n : Nat) (a : Answer) (h : Inv s) : Inv (s.called o n a) :=
  ⟨h.op, h.stepIx, h.results, h.payload, h.scratch, h.verdict, h.port⟩

theorem setHAfter (v : FBits) (h : Inv s) : Inv { s with hAfter := some v } :=
  ⟨h.op, h.stepIx, h.results, h.payload, h.scratch, h.verdict, h.port⟩

theorem rstEvent (s : State) : Inv s.rstEvent :=
  have h := resetMeetsTheInvariant
  ⟨h.op, h.stepIx, h.results, h.payload, h.scratch, nofun, h.port⟩

theorem pseudoWrite (p : Pseudo) (h : Inv s) : Inv (pseudoWrite p s) :=
  pseudoWrite_elim (fun _ _ => ⟨h.op, h.stepIx, h.results, h.payload, h.scratch, h.verdict, h.port⟩) (fun _ => h)

/-! ## A start -/

/-- A start has no result yet and stands at micro-step 0. -/
theorem begin {o : HostOp} {p : Option Byte} (hx : s.xans = none) (hp : o = .writeUreg → p.isSome = true)
    (hv : o = .selfTest → s.verdict = none ∧ s.pendErr = none) : Inv (s.begin o p) where
  op := rfl
  stepIx := progLen_pos (some o)
  results := ⟨fun _ => rfl, fun _ => ⟨rfl, rfl, rfl⟩, nofun, nofun, nofun⟩
  payload := fun h => hp (Option.some.inj h)
  scratch := fun _ => ⟨nofun, nofun, nofun, nofun, nofun⟩
  verdict := fun h => ⟨fun _ => hv (Option.some.inj h), nofun⟩
  port := hx

theorem startWrites (o : HostOp) (p : Byte) (hx : s.xans = none) : Inv (startWrites o p s) := by
  cases o with
  | readT | readRh | readUreg | softReset => exact begin hx nofun nofun
  | writeUreg => exact begin hx (fun _ => rfl) nofun
  | selfTest => exact begin (s := s.clearScratch) hx nofun (fun _ => ⟨rfl, rfl⟩)

/-! ## The end of an operation -/

/-- While an operation runs there is no result (R34 to R37). -/
theorem no_result (h : Inv s) (hb : s.busy = true) :
    s.done = false ∧ s.resErr = none ∧ s.resVal = none ∧ s.resUreg = none :=
  have hd := h.results.1 hb
  ⟨hd, h.results.2.1 hd⟩

/-- Finish keeps the invariant where a result value stands only beside `NONE_ERR`. -/
theorem finish_of {e : ErrorKind} (hx : s.xans = none) (hv : s.resVal.isSome = true → e = .noneErr)
    (hu : s.resUreg.isSome = true → e = .noneErr) : Inv (s.finish e) where
  op := rfl
  stepIx := progLen_pos none
  results := ⟨nofun, nofun, fun _ => rfl, fun h => congrArg some (hv h), fun h => congrArg some (hu h)⟩
  payload := nofun
  scratch := nofun
  verdict := nofun
  port := hx

theorem finish (h : Inv s) (hb : s.busy = true) (e : ErrorKind) : Inv (s.finish e) := by
  obtain ⟨-, -, hv, hu⟩ := h.no_result hb
  exact finish_of h.port (by simp [hv]) (by simp [hu])

theorem storeValue (h : Inv s) (hb : s.busy = true) (v : FBits) : Inv (storeValue v s) := by
  obtain ⟨-, -, -, hu⟩ := h.no_result hb
  exact finish_of h.port (fun _ => rfl) (by simp [hu])

theorem storeUreg (h : Inv s) (hb : s.busy = true) (u : Byte) : Inv (storeUreg u s) := by
  obtain ⟨-, -, hv, -⟩ := h.no_result hb
  exact finish_of h.port (by simp [hv]) (fun _ => rfl)

/-! ## The next micro-step -/

/-- Going on to another micro-step keeps the invariant where the registers that micro-step needs are written. -/
theorem goto {m : BitVec 5} (h : Inv s) (hm : m.toNat < progLen s.op) (hs : InvScratch (s.goto m))
    (hv : InvVerdict (s.goto m)) : Inv (s.goto m) :=
  ⟨h.op, hm, h.results, h.payload, hs, hv, h.port⟩

/-- In SELF_TEST the next micro-step, other than the first of cleanup, needs one register more at most: the one the
micro-step before it writes. -/
theorem goto_selfTest {m : BitVec 5} (h : Inv s) (ho : s.op = some .selfTest) (hm : m.toNat = s.stepIx.toNat + 1)
    (hlt : m.toNat < 19) (h16 : m.toNat ≠ 16) (h3 : m.toNat = 3 → s.tStart.isSome = true)
    (h6 : m.toNat = 6 → s.hStart.isSome = true) (h8 : m.toNat = 8 ∨ m.toNat = 18 → s.uregBase.isSome = true)
    (h13 : m.toNat = 13 → s.tAfter.isSome = true) : Inv (s.goto m) := by
  obtain ⟨s3, s6, s8, s13, -⟩ := h.scratch ho
  obtain ⟨before, cleanup⟩ := h.verdict ho
  -- a register needed from `k` on is written by the micro-step before `k`, or was needed before
  have later {k : Nat} {p : Prop} (hk : m.toNat = k → p)
      (hs : k ≤ s.stepIx.toNat → s.stepIx.toNat ≤ 15 → p) (l : k ≤ m.toNat) (u : m.toNat ≤ 15) : p :=
    (Nat.eq_or_lt_of_le l).elim (fun e => hk e.symm) fun l => hs (by omega) (by omega)
  refine h.goto (by simpa [ho, progLen] using hlt) (fun _ => ?_) (fun _ => ⟨fun l => before ?_, fun l => cleanup ?_⟩)
  · exact ⟨later h3 s3, later h6 s6, later (fun e => h8 (.inl e)) s8, later h13 s13, fun e => h8 (.inr e)⟩
  · rw [State.goto_stepIx] at l
    omega
  · rw [State.goto_stepIx] at l
    omega

/-- Cleanup starts with an error pending and no scratch register needed. -/
theorem goto_cleanup {v : Option Bool} {e : Option ErrorKind} (h : Inv s) (ho : s.op = some .selfTest)
    (hv : v = some true ∧ e = some .noneErr ∨ v = some false ∧ e = some .selfTestFailed ∨
      v = none ∧ s.params.cleanupOnAbort = true ∧
        (e = some .timeout ∨ e = some .transportAckFailure ∨ e = some .checksumMismatch)) :
    Inv ({ s with verdict := v, pendErr := e }.goto 16#5) :=
  ⟨h.op, by simp [InvStep, ho, progLen], h.results, h.payload,
    fun _ => ⟨nofun, nofun, nofun, nofun, nofun⟩, fun _ => ⟨fun l => absurd l (Nat.lt_irrefl 16), fun _ => hv⟩, h.port⟩

/-! ## A write of a scratch register -/

theorem setTStart (v : FBits) (h : Inv s) : Inv { s with tStart := some v } :=
  ⟨h.op, h.stepIx, h.results, h.payload, fun ho => ⟨fun _ _ => rfl, (h.scratch ho).2⟩, h.verdict, h.port⟩

theorem setHStart (v : FBits) (h : Inv s) : Inv { s with hStart := some v } :=
  ⟨h.op, h.stepIx, h.results, h.payload, fun ho =>
    have ⟨s3, _, s8⟩ := h.scratch ho
    ⟨s3, fun _ _ => rfl, s8⟩, h.verdict, h.port⟩

theorem setTAfter (v : FBits) (h : Inv s) : Inv { s with tAfter := some v } :=
  ⟨h.op, h.stepIx, h.results, h.payload, fun ho =>
    have ⟨s3, s6, s8, _, s18⟩ := h.scratch ho
    ⟨s3, s6, s8, fun _ _ => rfl, s18⟩, h.verdict, h.port⟩

theorem setBase (u : Byte) (h : Inv s) : Inv { s with uregBase := some u } :=
  ⟨h.op, h.stepIx, h.results, h.payload, fun ho =>
    have ⟨s3, s6, _, s13, _⟩ := h.scratch ho
    ⟨s3, s6, fun _ _ => rfl, s13, fun _ => rfl⟩, h.verdict, h.port⟩

end Inv

/-! ## Every step -/

/-- The next micro-step without a register to write. -/
theorem Inv.advances {o : HostOp} {m : BitVec 5} (h : Inv s) (ho : s.op = some o) (hm : IsNext o s.stepIx.toNat m) :
    Inv (s.goto m) := by
  obtain ⟨hm, hlt, hrx⟩ := hm
  by_cases hself : o = .selfTest
  · subst hself
    have hrx := hrx rfl
    simp only [List.mem_cons, List.not_mem_nil, or_false, not_or] at hrx
    refine h.goto_selfTest ho hm (hm ▸ hlt) ?_ ?_ ?_ ?_ ?_ <;> omega
  · have hne : s.op ≠ some .selfTest := fun e => hself (Option.some.inj (ho.symm.trans e))
    exact h.goto (by rw [ho, hm]; exact hlt) (fun e => absurd e hne) (fun e => absurd e hne)

/-- The verdict's error is pending in cleanup (R267). -/
theorem Inv.takeVerdict (h : Inv s) (ho : s.op = some .selfTest) (pass : Bool) : Inv (takeVerdict pass s) :=
  h.goto_cleanup ho (by cases pass <;> simp)

/-- A micro-step keeps the invariant. -/
theorem MicroEffect.keeps_inv {o : HostOp} {n : Nat} (e : MicroEffect o n s t) (h : Inv s) (hb : s.busy = true)
    (ho : s.op = some o) (hn : s.stepIx.toNat = n) : Inv t := by
  subst hn
  cases e with
  | faults r => exact h.setFault r
  | unwritten => exact h.setFault _
  | advances m hm => exact h.advances ho hm
  | ends e => exact h.finish hb e
  | measured v => exact h.storeValue hb v
  | uregRead u => exact h.storeUreg hb u
  | tStart v hs hn =>
    exact (h.setTStart v).goto_selfTest (hs ▸ ho) (by simp [hn]) (by decide) (by decide)
      (fun _ => rfl) nofun nofun nofun
  | hStart v hs hn =>
    exact (h.setHStart v).goto_selfTest (hs ▸ ho) (by simp [hn]) (by decide) (by decide)
      nofun (fun _ => rfl) nofun nofun
  | tAfter v hs hn =>
    exact (h.setTAfter v).goto_selfTest (hs ▸ ho) (by simp [hn]) (by decide) (by decide)
      nofun nofun nofun (fun _ => rfl)
  | base m u hs hn =>
    obtain ⟨hn, rfl⟩ | ⟨hn, rfl⟩ := hn <;>
      exact (h.setBase u).goto_selfTest (hs ▸ ho) (by simp [hn]) (by decide) (by decide)
        nofun nofun (fun _ => rfl) nofun
  | judged v t0 h0 t1 hs => exact (h.setHAfter v).takeVerdict (hs ▸ ho) _
  | unjudged v => exact (h.setHAfter v).setFault _
  | aborts e hs hn he hc =>
    have hv := ((h.verdict (hs ▸ ho)).1 (by omega)).1
    exact h.goto_cleanup (v := s.verdict) (hs ▸ ho)
      (.inr (.inr ⟨hv, hc, by simpa [isTransport, or_assoc] using he⟩))

/-- An act of the host keeps the invariant. -/
theorem HostEffect.keeps_inv {i : Input} (e : HostEffect i s t) (h : Inv s) : Inv t := by
  cases e with
  | shows v => exact h.present v
  | faults r => exact h.setFault r
  | refuses r => exact h.refuse r
  | starts o p => exact .startWrites o p h.port
  | resets => exact .rstEvent s
  | writes p => exact h.pseudoWrite p

/-- Settles O49: an act of the host and a micro-step each keep the invariant. -/
theorem stepKeepsTheInvariant : Obligations.StepKeepsTheInvariant := by
  intro s s' h hstep
  cases step_effect hstep with
  | idle => exact h
  | host i rest _ _ _ e => exact e.keeps_inv (h.takeHost rest)
  | unasked _ rest => exact (h.takeHost rest).setFault _
  | micro a rest _ _ hb o ho rule hr =>
    have call : Inv ((s.takeHost rest).called o s.stepIx.toNat a) := (h.takeHost rest).called ..
    exact (micro_effect hr a (s.takeHost rest)).keeps_inv call hb ho rfl

end Sys2Proof.Machine
end

section
/-! What the invariant and the converters give a step of CORE: no read of an unwritten register (10_state.md R32 to R42,
60_exceptions.md R310) and finite float registers (10_state.md R46). -/

namespace Sys2Proof.Machine

variable {s t : State}

/-! ## No unwritten register is read -/

/-- `STEP` below the length of the micro-program names a micro-step. -/
theorem exists_micro {o : HostOp} {n : Nat} (h : n < progLen (some o)) : ∃ rule, prog o n = some rule := by
  apply Option.isSome_iff_exists.1
  revert n
  cases o <;> decide

@[simp] theorem State.clearAnswer_takeAnswer (a : Answer) (rest : List Input) (s : State) :
    (s.takeAnswer a rest).clearAnswer = s.takeHost rest := rfl

@[simp] theorem State.clearAnswer_takeHost (rest : List Input) (s : State) :
    (s.takeHost rest).clearAnswer = s.takeHost rest := rfl

/-- The micro-step a step of CORE makes. -/
theorem step_micro {a : Answer} {rest : List Input} {o : HostOp} {rule : Micro} (hi : s.inputs = .answer a :: rest)
    (hf : s.faultMark = none) (hb : s.busy = true) (ho : s.op = some o) (hr : prog o s.stepIx.toNat = some rule) :
    step s = .next (rule a (s.takeHost rest)) := by
  simp [step, hi, runningInstr, ho, exec_hostOp, hostOperation, runMicro, hf, hb, hr]

/-- An answer while no operation runs is one to a call not made. -/
theorem step_unasked {a : Answer} {rest : List Input} (hi : s.inputs = .answer a :: rest) (hf : s.faultMark = none)
    (ho : s.op = none) : step s = .next ((s.takeHost rest).setFault .xportContract) := by
  simp [step, hi, runningInstr, ho, unaskedAnswer, hf]

/-- The invariant leaves no register `⊥` where a micro-step reads it. -/
theorem Inv.reads_written {o : HostOp} (h : Inv s) (ho : s.op = some o) : ¬ ReadsUnwritten o s.stepIx.toNat s := by
  rintro (⟨rfl, hw⟩ | ⟨rfl, ⟨hn, hu⟩ | ⟨hn, hp⟩⟩)
  · simpa [hw] using h.payload ho
  · obtain ⟨-, -, base8, -, base18⟩ := h.scratch ho
    have hbase : s.uregBase.isSome = true := hn.elim (fun e => base8 (by omega) (by omega)) base18
    simp [hu] at hbase
  · have hpend := (h.verdict ho).2 hn
    simp [hp] at hpend

/-- Under the invariant no micro-step sets `READ_UNWRITTEN`. -/
theorem MicroEffect.not_readUnwritten {o : HostOp} {n : Nat} (e : MicroEffect o n s t) (h : Inv s)
    (ho : s.op = some o) (hn : s.stepIx.toNat = n) (hf : s.faultMark = none) : t.faultMark ≠ some .readUnwritten := by
  have clear : s.faultMark ≠ some .readUnwritten := by simp [hf]
  subst hn
  cases e with
  | faults r hr => obtain rfl | rfl := hr <;> simp
  | unwritten hu => exact absurd hu (h.reads_written ho)
  | unjudged v hs hn _ hu =>
    obtain ⟨s3, s6, -, s13, -⟩ := h.scratch (hs ▸ ho)
    have ht := s3 (by omega) (by omega)
    have hh := s6 (by omega) (by omega)
    have ht' := s13 (by omega) (by omega)
    obtain hu | hu | hu := hu <;> simp [hu] at ht hh ht'
  | _ => exact clear

/-- Settles O50: the invariant gives the micro-step its rule, and the rule the registers it reads. -/
theorem coreStepsReadNoUnwrittenRegister : Obligations.CoreStepsReadNoUnwrittenRegister := by
  intro s a rest h hf hi
  cases ho : s.op with
  | none => exact ⟨_, step_unasked hi hf ho, by simp⟩
  | some o =>
    have hlt : s.stepIx.toNat < progLen s.op := h.stepIx
    rw [ho] at hlt
    obtain ⟨rule, hr⟩ := exists_micro hlt
    have hb : s.busy = true := by rw [h.op, ho]; rfl
    have call : Inv ((s.takeHost rest).called o s.stepIx.toNat a) := (h.takeHost rest).called ..
    exact ⟨_, step_micro hi hf hb ho hr, (micro_effect hr a (s.takeHost rest)).not_readUnwritten call ho rfl hf⟩

/-! ## The float registers stay finite -/

theorem IsConverted.finite {p : Params} {v : FBits} (h : IsConverted p.numEval v) :
    (some v).all (fun v => isFinite p.fmt v && fitsF p.fmt v) = true := by
  obtain ⟨k, b0, b1, b2, hv⟩ := h
  obtain ⟨hfin, hfit⟩ := conversionsAreFinite k p.numEval b0 b1 b2 v hv
  simp [Params.fmt, hfin, hfit]

/-- A micro-step writes a float register with a converted value alone. -/
theorem MicroEffect.keeps_floats {o : HostOp} {n : Nat} (e : MicroEffect o n s t) (h : InvFloats s) : InvFloats t := by
  obtain ⟨hv, ht, hh, ht', hh'⟩ := h
  cases e with
  | measured v _ hc => exact ⟨hc.finite, ht, hh, ht', hh'⟩
  | tStart v _ _ hc => exact ⟨hv, hc.finite, hh, ht', hh'⟩
  | hStart v _ _ hc => exact ⟨hv, ht, hc.finite, ht', hh'⟩
  | tAfter v _ _ hc => exact ⟨hv, ht, hh, hc.finite, hh'⟩
  | judged v _ _ _ _ _ hc | unjudged v _ _ hc => exact ⟨hv, ht, hh, ht', hc.finite⟩
  | _ => exact ⟨hv, ht, hh, ht', hh'⟩

/-- A start clears the result, and SELF_TEST's its scratch registers. -/
theorem startWrites_keeps_floats (o : HostOp) (p : Byte) (h : InvFloats s) : InvFloats (startWrites o p s) := by
  obtain ⟨-, scratch⟩ := h
  cases o with
  | selfTest => exact ⟨rfl, rfl, rfl, rfl, rfl⟩
  | _ => exact ⟨rfl, scratch⟩

theorem HostEffect.keeps_floats {i : Input} (e : HostEffect i s t) (h : InvFloats s) : InvFloats t := by
  cases e with
  | shows | faults | refuses => exact h
  | starts o p => exact startWrites_keeps_floats o p h
  | resets => exact ⟨rfl, rfl, rfl, rfl, rfl⟩
  | writes p => exact pseudoWrite_elim (fun _ _ => h) (fun _ => h)

/-- Settles O51: the host's acts write no float register but to clear it, and a micro-step only a converted value. -/
theorem stepKeepsFloatRegistersFinite : Obligations.StepKeepsFloatRegistersFinite := by
  intro s s' h hstep
  cases step_effect hstep with
  | idle => exact h
  | host i rest _ _ _ e => exact e.keeps_floats h
  | unasked => exact h
  | micro a rest _ _ _ o _ rule hr => exact (micro_effect hr a (s.takeHost rest)).keeps_floats h

end Sys2Proof.Machine
end

section
/-! The calls the core makes: each micro-step's call is one that 20_memory.md R79 lists, and the host's acts add
nothing to the history but `RST` (43_orchestrator.md R221, 70_reset_and_hazards.md R340). -/

namespace Sys2Proof.Machine

variable {s t : State}

/-- Every event of the history is a call R79 lists, under the parameters of the state, or `RST`. -/
abbrev CallsListed (s : State) : Prop := s.hist.all (listedEvent s.params) = true

/-- A command R79 lists without a payload. -/
theorem listedEvent_tx_command {c : Command} (hc : c ∈ [.tHold, .rhHold, .readUreg, .softReset]) (p : Params)
    (a : Answer) : listedEvent p (.tx (buildRequest p c) [] a) = true := by
  simp only [List.mem_cons, List.not_mem_nil, or_false] at hc
  obtain rfl | rfl | rfl | rfl := hc <;> simp [listedEvent]

theorem listedEvent_tx_writeUreg (p : Params) (b : Byte) (a : Answer) :
    listedEvent p (.tx (buildRequest p .writeUreg) [b] a) = true := by
  simp [listedEvent]

/-- The call of a micro-step is listed: the tables of R225 and R261 hold no other. -/
theorem microEvent_listed {o : HostOp} {n : Nat} {a : Answer} {e : Event} (h : microEvent o n a s = some e) :
    listedEvent s.params e = true := by
  unfold microEvent at h
  split at h
  -- the writes of the user register: WRITE_UREG's own, the heater write, the cleanup write
  case h_9 | h_19 | h_29 =>
    obtain ⟨b, -, rfl⟩ := Option.map_eq_some_iff.1 h
    exact listedEvent_tx_writeUreg s.params _ a
  -- the commands without a payload
  case h_1 | h_4 | h_7 | h_10 | h_11 | h_14 | h_17 | h_21 | h_24 | h_27 =>
    cases h
    exact listedEvent_tx_command (by decide) s.params a
  case h_30 => cases h
  -- the delays and the receives
  all_goals
    cases h
    rfl

/-- A micro-step adds its listed call to the history, or nothing. -/
theorem micro_keeps_listed {o : HostOp} {n : Nat} {rule : Micro} (hr : prog o n = some rule) (a : Answer)
    (h : CallsListed s) : CallsListed (rule a s) := by
  have keeps := micro_keeps hr a s
  have call : (microEvent o n a s).toList.all (listedEvent s.params) = true := by
    simpa using fun e he => microEvent_listed he
  rw [CallsListed, keeps.hist, keeps.params, List.all_append, h, call]
  rfl

theorem startWrites_listed (o : HostOp) (p : Byte) (h : CallsListed s) : CallsListed (startWrites o p s) := by
  cases o <;> exact h

/-- An act of the host adds nothing to the history but `RST`. -/
theorem HostEffect.keeps_listed {i : Input} (e : HostEffect i s t) (h : CallsListed s) : CallsListed t := by
  cases e with
  | shows | faults | refuses => exact h
  | starts o p => exact startWrites_listed o p h
  | resets => simpa [CallsListed, listedEvent] using h
  | writes p => exact pseudoWrite_elim (fun _ _ => h) (fun _ => h)

/-- Settles O55: the host's acts add `RST` alone, and a micro-step the one call its table lists. -/
theorem everyCallIsListed : Obligations.EveryCallIsListed := by
  intro s s' hstep h
  cases step_effect hstep with
  | idle => exact h
  | host i rest _ _ _ e => exact e.keeps_listed h
  | unasked => exact h
  | micro a rest _ _ _ o _ rule hr => exact micro_keeps_listed hr a h

end Sys2Proof.Machine
end

section
/-! The encodings both ways (30_encoding.md R100 to R118): an encoded instruction decodes to itself, and what decodes to
an instruction is its encoding. -/

namespace Sys2Proof.Machine

variable {p : Params} {i : Instr} {port : Port} {nbits v : Nat}

/-! ## From an instruction to its bits and back -/

/-- Settles O43: one lemma of `Laws.DecodeEncode` per row of the opcode table. -/
theorem decodeOfEncodeIsTheInstruction : Obligations.DecodeOfEncodeIsTheInstruction := by
  intro p i hp hi
  cases i with
  | cmdTHold => exact Laws.DecodeEncode.cmdTHold p hp hi
  | cmdRhHold => exact Laws.DecodeEncode.cmdRhHold p hp hi
  | cmdTNohold => exact Laws.DecodeEncode.cmdTNohold p hp hi
  | cmdRhNohold => exact Laws.DecodeEncode.cmdRhNohold p hp hi
  | cmdWriteUreg => exact Laws.DecodeEncode.cmdWriteUreg p hp hi
  | cmdReadUreg => exact Laws.DecodeEncode.cmdReadUreg p hp hi
  | cmdSoftReset => exact Laws.DecodeEncode.cmdSoftReset p hp hi
  | readT => exact Laws.DecodeEncode.readT p hp hi
  | readRh => exact Laws.DecodeEncode.readRh p hp hi
  | readUreg => exact Laws.DecodeEncode.readUreg p hp hi
  | writeUreg b => exact Laws.DecodeEncode.writeUreg b p hp hi
  | softReset => exact Laws.DecodeEncode.softReset p hp hi
  | selfTest => exact Laws.DecodeEncode.selfTest p hp hi
  | buildRequest c => exact Laws.DecodeEncode.buildRequest c p hp hi
  | parseUserRegister u => exact Laws.DecodeEncode.parseUserRegister u p hp hi
  | serializeUserRegister r => exact Laws.DecodeEncode.serializeUserRegister r p hp hi
  | setHeater u => exact Laws.DecodeEncode.setHeater u p hp hi
  | clearHeater u => exact Laws.DecodeEncode.clearHeater u p hp hi
  | setResolution u r => exact Laws.DecodeEncode.setResolution u r p hp hi
  | writeKeepsInvariant a b c => exact Laws.DecodeEncode.writeKeepsInvariant a b c p hp hi
  | crc8 l => exact Laws.DecodeEncode.crc8 l p hp hi
  | checkCrc l k => exact Laws.DecodeEncode.checkCrc l k p hp hi
  | toTemperature a b c => exact Laws.DecodeEncode.toTemperature a b c p hp hi
  | toHumidity a b c => exact Laws.DecodeEncode.toHumidity a b c p hp hi
  | judge a b c d => exact Laws.DecodeEncode.judge a b c d p hp hi

/-- The instruction is well formed and its bits at its port are `w`. -/
abbrev IsEncodedAs (p : Params) (i : Instr) (w : PortWord) : Prop := i.wf p ∧ encode p i = w

/-! ## What the decoder accepts -/

/-- What decodes to an instruction has the width of its port. -/
theorem decode_eq_instr {w : PortWord} (h : decode p w = .instr i) :
    widthOk p w = true ∧ decodeBits p w = .instr i := by
  unfold decode at h
  split at h
  case isTrue hw => exact ⟨hw, h⟩
  case isFalse => cases h

/-- A bit string at a port of `n` bits. -/
theorem widthOk_fixed {n : Nat} (hn : portWidth p port = some n) (h : widthOk p ⟨port, nbits, v⟩ = true) :
    nbits = n ∧ v < 2 ^ n := by
  simp only [widthOk, hn, Bool.and_eq_true, decide_eq_true_eq] at h
  obtain ⟨hv, rfl⟩ := h
  exact ⟨rfl, hv⟩

/-- A bit string at a port of bytes: whole bytes, at least the checksum byte at `crcOk`. -/
theorem widthOk_bytes (hn : portWidth p port = none) (h : widthOk p ⟨port, nbits, v⟩ = true) :
    v < 2 ^ nbits ∧ nbits % 8 = 0 ∧ (port = .crcValue ∨ 8 ≤ nbits) := by
  simpa [widthOk, hn] using h

/-! ## Fields put together -/

theorem word16_ofNat (hv : v < 2 ^ 16) : word16 port (BitVec.ofNat 16 v) = ⟨port, 16, v⟩ := by
  simpa [word16] using hv

theorem word8_ofNat (hv : v < 2 ^ 8) : word8 port (BitVec.ofNat 8 v) = ⟨port, 8, v⟩ := by
  simpa [word8] using hv

/-- A 24-bit word is its three bytes. -/
theorem word24_bitsAt (hv : v < 2 ^ 24) : word24 port (BitVec.ofNat 8 (bitsAt v 16 8)) (BitVec.ofNat 8 (bitsAt v 8 8))
    (BitVec.ofNat 8 (bitsAt v 0 8)) = ⟨port, 24, v⟩ := by
  simp only [word24, bitsAt, BitVec.toNat_ofNat, PortWord.mk.injEq, true_and]
  omega

/-- The number of a number's bytes is the number. -/
theorem numBE_bytesBE {n : Nat} (hv : v < 2 ^ (8 * n)) : numBE (bytesBE n v) = v := by
  induction n generalizing v with
  | zero =>
    have h0 : v = 0 := by simpa using hv
    simp [h0, bytesBE, numBE]
  | succ n ih =>
    have hdiv : v / 256 < 2 ^ (8 * n) := by
      rw [Nat.mul_succ, pow_add] at hv
      omega
    rw [bytesBE_snoc, numBE_append, ih hdiv, BitVec.toNat_ofNat]
    omega

/-- A field joins the bits above it. -/
theorem div_join_bitsAt (v m n : Nat) : v / 2 ^ (m + n) * 2 ^ n + bitsAt v m n = v / 2 ^ m := by
  rw [pow_add, ← Nat.div_div_eq_div_mul, bitsAt, Nat.div_add_mod']

/-- A number of four fields of `n` bits is its fields. -/
theorem join_fields4 {n : Nat} (hv : v < 2 ^ (4 * n)) :
    ((bitsAt v (3 * n) n * 2 ^ n + bitsAt v (2 * n) n) * 2 ^ n + bitsAt v n n) * 2 ^ n + bitsAt v 0 n = v := by
  have htop : bitsAt v (3 * n) n = v / 2 ^ (2 * n + n) := by
    have hlt : v / 2 ^ (3 * n) < 2 ^ n := by
      rw [Nat.div_lt_iff_lt_mul (by positivity), ← pow_add]
      convert hv using 2
      omega
    rw [bitsAt, Nat.mod_eq_of_lt hlt, ← Nat.succ_mul]
  have h0 := div_join_bitsAt v 0 n
  rw [zero_add, pow_zero, Nat.div_one] at h0
  rw [htop, div_join_bitsAt, Nat.two_mul, div_join_bitsAt, h0]

/-- A field as wide as a format is a pattern of the format. -/
theorem toNat_ofNat_bitsAt (f : Fmt) (v lo : Nat) :
    (BitVec.ofNat 64 (bitsAt v lo f.width)).toNat = bitsAt v lo f.width := by
  obtain ⟨-, -, -, hw, -⟩ := fmt_widths f
  have hlt : bitsAt v lo f.width < 2 ^ f.width := Nat.mod_lt _ (by positivity)
  rw [BitVec.toNat_ofNat, Nat.mod_eq_of_lt (hlt.trans_le (Nat.pow_le_pow_right two_pos hw))]

theorem fitsF_ofNat_bitsAt (f : Fmt) (v lo : Nat) : fitsF f (BitVec.ofNat 64 (bitsAt v lo f.width)) = true := by
  rw [fitsF, decide_eq_true_iff, toNat_ofNat_bitsAt]
  exact Nat.mod_lt _ (by positivity)

/-! ## Frames and host words -/

theorem instrOfCommand_isEncodedAs (p : Params) (c : Command) :
    IsEncodedAs p (instrOfCommand c) (word16 .frame (buildRequest p c)) := by
  cases c <;> exact ⟨trivial, rfl⟩

/-- A word taken for a command's frame is that frame. -/
theorem buildRequest_of_commandOfFrame {f : BitVec 16} {c : Command} (h : commandOfFrame p f = some c) :
    buildRequest p c = f := by
  simpa using List.find?_some h

/-- The fields of a host word, as numbers (R115). -/
theorem toNat_wordFields (w : BitVec 16) : (wordOpc w).toNat = w.toNat / 4096 ∧
    (wordZ w).toNat = w.toNat / 256 % 16 ∧ (wordImm8 w).toNat = w.toNat % 256 := by
  have hw := w.isLt
  refine ⟨?_, ?_, ?_⟩ <;>
    simp only [wordOpc, wordZ, wordImm8, BitVec.extractLsb'_toNat, Nat.shiftRight_eq_div_pow] <;> omega

/-- A host word is its fields. -/
theorem word_ext_fields {w w' : BitVec 16} (hc : wordOpc w = wordOpc w') (hz : wordZ w = wordZ w')
    (hb : wordImm8 w = wordImm8 w') : w = w' := by
  obtain ⟨c, z, b⟩ := toNat_wordFields w
  obtain ⟨c', z', b'⟩ := toNat_wordFields w'
  rw [hc] at c
  rw [hz] at z
  rw [hb] at b
  apply BitVec.eq_of_toNat_eq
  omega

/-- A host word with an assigned code and `Z = 0` is built from its operation and operand. -/
theorem eq_opWordOf {w : BitVec 16} {o : HostOp} (ho : wordOpc w = o.code) (hz : wordZ w = 0#4) :
    w = opWordOf o (wordImm8 w) := by
  obtain ⟨hc, hz', hb⟩ := wordFields_opWordOf o (wordImm8 w)
  exact word_ext_fields (ho.trans hc.symm) (hz.trans hz'.symm) hb.symm

/-- A host word built from an operation and an operand that the operation allows (R117). -/
def BuiltFrom (w : BitVec 16) (o : HostOp) (b : Byte) : Prop := (o = .writeUreg ∨ b = 0#8) ∧ w = opWordOf o b

theorem BuiltFrom.instr {w : BitVec 16} {o : HostOp} {b : Byte} (h : BuiltFrom w o b) :
    instrOfOpWord w = some (instrOfHostOp o b) := by
  obtain ⟨hb, rfl⟩ := h
  exact instrOfOpWord_opWordOf o b hb

theorem BuiltFrom.isEncodedAs {w : BitVec 16} {o : HostOp} {b : Byte} (h : BuiltFrom w o b) (p : Params) :
    IsEncodedAs p (instrOfHostOp o b) (word16 .opWord w) := by
  obtain ⟨hb, rfl⟩ := h
  cases o with
  | writeUreg => exact ⟨trivial, rfl⟩
  | _ =>
    obtain rfl := hb.resolve_left nofun
    exact ⟨trivial, rfl⟩

/-- Every word the decoder takes is built from an operation, and stands for it. -/
theorem instrOfOpWord_eq_some {w : BitVec 16} (h : instrOfOpWord w = some i) :
    ∃ o b, BuiltFrom w o b ∧ i = instrOfHostOp o b := by
  have built (o : HostOp) (ho : (wordOpc w).toNat = o.code.toNat) (hz : wordZ w = 0#4)
      (hb : o = .writeUreg ∨ wordImm8 w = 0#8) : ∃ o b, BuiltFrom w o b ∧ i = instrOfHostOp o b := by
    have hw : BuiltFrom w o (wordImm8 w) := ⟨hb, eq_opWordOf (BitVec.eq_of_toNat_eq ho) hz⟩
    exact ⟨o, _, hw, Option.some.inj (h.symm.trans hw.instr)⟩
  unfold instrOfOpWord at h
  split_ifs at h with hz hc hb
  · exact built .writeUreg (congrArg _ hc) (not_not.1 hz) (.inl rfl)
  · have plain (o : HostOp) (ho : (wordOpc w).toNat = o.code.toNat) := built o ho (not_not.1 hz) (.inr (not_not.1 hb))
    split at h
    case h_1 hc => exact plain .readT hc
    case h_2 hc => exact plain .readRh hc
    case h_3 hc => exact plain .readUreg hc
    case h_4 hc => exact plain .softReset hc
    case h_5 hc => exact plain .selfTest hc
    case h_6 => cases h

/-! ## From bits to an instruction and back -/

theorem decodeBits_frame_isEncodedAs {f : BitVec 16} (h : decodeBits p (word16 .frame f) = .instr i) :
    IsEncodedAs p i (word16 .frame f) := by
  simp only [decodeBits, word16, BitVec.ofNat_toNat, BitVec.setWidth_eq] at h
  split at h
  case h_1 c hc =>
    cases h
    rw [← buildRequest_of_commandOfFrame hc]
    exact instrOfCommand_isEncodedAs p c
  case h_2 => cases h

theorem decodeBits_opWord_isEncodedAs {w : BitVec 16} (h : decodeBits p (word16 .opWord w) = .instr i) :
    IsEncodedAs p i (word16 .opWord w) := by
  simp only [decodeBits, word16, BitVec.ofNat_toNat, BitVec.setWidth_eq] at h
  split at h
  case h_1 j hj =>
    cases h
    obtain ⟨o, b, hw, rfl⟩ := instrOfOpWord_eq_some hj
    exact hw.isEncodedAs p
  case h_2 => cases h

theorem decodeBits_cmdsel_isEncodedAs (hv : v < 8) (h : decodeBits p ⟨.bldCmdsel, 3, v⟩ = .instr i) :
    IsEncodedAs p i ⟨.bldCmdsel, 3, v⟩ := by
  simp only [decodeBits] at h
  split at h
  case isTrue => cases h
  case isFalse h7 =>
    cases h
    have hn : (BitVec.ofNat 3 v).toNat = v := by rw [BitVec.toNat_ofNat, Nat.mod_eq_of_lt hv]
    refine ⟨fun hc => h7 ?_, by rw [encode, hn]⟩
    rw [← hn, hc]
    rfl

theorem encode_crc8_bytesBE (p : Params) (h8 : nbits % 8 = 0) (hv : v < 2 ^ nbits) :
    encode p (.crc8 (bytesBE (nbits / 8) v)) = ⟨.crcValue, nbits, v⟩ := by
  have hn : 8 * (nbits / 8) = nbits := by omega
  rw [encode, bytesBE_length, numBE_bytesBE (by rwa [hn]), hn]

theorem encode_checkCrc_bytesBE (p : Params) (h8 : nbits % 8 = 0) (hle : 8 ≤ nbits) (hv : v < 2 ^ nbits) :
    encode p (.checkCrc (bytesBE (nbits / 8 - 1) (v / 256)) (BitVec.ofNat 8 v)) = ⟨.crcOk, nbits, v⟩ := by
  have hn : 8 * (nbits / 8 - 1) + 8 = nbits := by omega
  have hdiv : v / 256 < 2 ^ (8 * (nbits / 8 - 1)) := by
    rw [← hn, pow_add] at hv
    omega
  have hjoin : v / 256 * 256 + v % 2 ^ 8 = v := by omega
  rw [encode, bytesBE_length, numBE_bytesBE hdiv, hn, BitVec.toNat_ofNat, hjoin]

theorem encode_setResolution_bitsAt (p : Params) (hv : v < 2 ^ 10) :
    encode p (.setResolution (BitVec.ofNat 8 (bitsAt v 2 8)) (BitVec.ofNat 2 (bitsAt v 0 2))) =
      ⟨.setResolution, 10, v⟩ := by
  simp only [encode, bitsAt, BitVec.toNat_ofNat, PortWord.mk.injEq, true_and]
  omega

theorem decodeBits_judge_isEncodedAs (hv : v < 2 ^ (4 * p.fmt.width))
    (h : decodeBits p ⟨.judge, 4 * p.fmt.width, v⟩ = .instr i) :
    IsEncodedAs p i ⟨.judge, 4 * p.fmt.width, v⟩ := by
  cases h
  refine ⟨⟨fitsF_ofNat_bitsAt .., fitsF_ofNat_bitsAt .., fitsF_ofNat_bitsAt .., fitsF_ofNat_bitsAt ..⟩, ?_⟩
  simp only [encode, toNat_ofNat_bitsAt, join_fields4 hv]

/-- Settles O44: port by port, the fields the decoder reads put together are the word. -/
theorem encodeOfDecodeIsTheWord : Obligations.EncodeOfDecodeIsTheWord := by
  rintro p ⟨port, nbits, v⟩ i - h
  obtain ⟨hw, h⟩ := decode_eq_instr h
  cases port with
  | frame =>
    obtain ⟨rfl, hv⟩ := widthOk_fixed rfl hw
    rw [← word16_ofNat hv] at h ⊢
    exact decodeBits_frame_isEncodedAs h
  | opWord =>
    obtain ⟨rfl, hv⟩ := widthOk_fixed rfl hw
    rw [← word16_ofNat hv] at h ⊢
    exact decodeBits_opWord_isEncodedAs h
  | bldCmdsel =>
    obtain ⟨rfl, hv⟩ := widthOk_fixed rfl hw
    exact decodeBits_cmdsel_isEncodedAs hv h
  | purByte | serialize | setHeater | clearHeater =>
    obtain ⟨rfl, hv⟩ := widthOk_fixed rfl hw
    cases h
    exact ⟨by trivial, word8_ofNat hv⟩
  | setResolution =>
    obtain ⟨rfl, hv⟩ := widthOk_fixed rfl hw
    cases h
    exact ⟨trivial, encode_setResolution_bitsAt p hv⟩
  | writeKeepsInvariant | cvTemp | cvHum =>
    obtain ⟨rfl, hv⟩ := widthOk_fixed rfl hw
    cases h
    exact ⟨trivial, word24_bitsAt hv⟩
  | crcValue =>
    obtain ⟨hv, h8, -⟩ := widthOk_bytes rfl hw
    cases h
    exact ⟨trivial, encode_crc8_bytesBE p h8 hv⟩
  | crcOk =>
    obtain ⟨hv, h8, hle⟩ := widthOk_bytes rfl hw
    cases h
    exact ⟨trivial, encode_checkCrc_bytesBE p h8 (hle.resolve_left nofun) hv⟩
  | judge =>
    obtain ⟨rfl, hv⟩ := widthOk_fixed rfl hw
    exact decodeBits_judge_isEncodedAs hv h

/-! ## Words written out -/

/-- Settles O42: an accepted word is the encoding of its instruction; each rejection is a branch of the decoder. -/
theorem knownWordsDecode : Obligations.KnownWordsDecode := by
  have hp : Config.params.wf := by decide
  have accepts {i : Instr} {w : PortWord} (hi : i.wf Config.params) (hw : encode Config.params i = w) :
      decode Config.params w = .instr i := hw ▸ decodeOfEncodeIsTheInstruction Config.params i hp hi
  exact ⟨accepts trivial rfl, accepts trivial rfl, by decide, accepts trivial rfl, accepts trivial rfl,
    accepts trivial rfl, by decide, by decide, accepts (by decide) rfl, by decide, accepts trivial rfl,
    accepts trivial rfl, accepts trivial rfl⟩

end Sys2Proof.Machine
end

section
/-! The frames the commands show (30_encoding.md R101 to R105), the words that start an operation (R116, R117) and the
pseudo-instructions (R119). -/

namespace Sys2Proof.Machine

variable {s : State} {rest : List Input}

/-! ## Request frames -/

/-- A command's instruction shows its frame, and nothing else changes. -/
theorem exec_instrOfCommand (c : Command) (s : State) :
    exec (instrOfCommand c) s = .next (s.present (.bldFrame (buildRequest s.params c))) := by
  cases c <;> rfl

/-- A command's instruction under the codes `k`. -/
theorem exec_instrOfCommand_of_codes {k : CmdCodes} (hk : s.params.cmdCode = k) (c : Command) :
    exec (instrOfCommand c) s =
      .next (s.present (.bldFrame (frameWord Config.devAddr (dirBit c) (k.code c)))) := by
  rw [exec_instrOfCommand, buildRequest, hk]

/-- Settles O1: each row is its command's instruction, under any codes and under the default ones. -/
theorem commandsShowTheirFrames : Obligations.CommandsShowTheirFrames := fun s =>
  have shows := exec_instrOfCommand_of_codes (s := s) rfl
  ⟨shows .tHold, shows .rhHold, shows .tNohold, shows .rhNohold, shows .writeUreg, shows .readUreg, shows .softReset,
    fun hk =>
      have shows := exec_instrOfCommand_of_codes hk
      ⟨shows .tHold, shows .rhHold, shows .tNohold, shows .rhNohold, shows .writeUreg, shows .readUreg,
        shows .softReset⟩⟩

/-- A selector other than 7 is that of a command (R105). -/
theorem exists_sel {c : BitVec 3} (hc : c ≠ 7#3) : ∃ cmd : Command, c = cmd.sel := by
  obtain ⟨cmd, -, h⟩ := (by decide : ∀ c : BitVec 3, c ≠ 7#3 →
    ∃ cmd ∈ [Command.tHold, .rhHold, .tNohold, .rhNohold, .writeUreg, .readUreg, .softReset], c = cmd.sel) c hc
  exact ⟨cmd, h⟩

/-- `CMDSEL` is the place of a command's code in the listing order. -/
theorem toList_sel (k : CmdCodes) (c : Command) : k.toList[c.sel.toNat]? = some (k.code c) := by
  cases c <;> rfl

/-- The frame of a command from its selector: `DIR` is 0 at 4 alone (R103). -/
theorem buildRequest_eq_sel (p : Params) (c : Command) :
    buildRequest p c = 0x40#7 ++ (if c.sel = 4#3 then 0#1 else 1#1) ++ p.cmdCode.code c := by
  cases c <;> rfl

theorem exec_buildRequest_sel (c : Command) (s : State) :
    exec (.buildRequest c.sel) s = .next (s.present (.bldFrame (buildRequest s.params c))) := by
  cases c <;> rfl

/-- Settles O2: a selector is a command's, whose frame is shown, or is 7, which has no place in the listing. -/
theorem buildRequestOnASelector : Obligations.BuildRequestOnASelector := by
  intro s
  refine ⟨fun c code h => ?_, fun c hc => ?_, rfl⟩
  · by_cases hc : c = 7#3
    · subst hc
      cases h
    · obtain ⟨cmd, rfl⟩ := exists_sel hc
      rw [toList_sel, Option.some.injEq] at h
      rw [exec_buildRequest_sel, buildRequest_eq_sel, h]
      rfl
  · obtain ⟨cmd, rfl⟩ := exists_sel hc
    exact ⟨_, toList_sel s.params.cmdCode cmd⟩

/-! ## Legal and illegal host words -/

/-- The words R117 refuses: an unassigned code, a bit of `Z`, or an operand where none belongs. -/
abbrev IllegalWord (w : BitVec 16) : Prop :=
  w.toNat / 4096 = 0 ∨ 7 ≤ w.toNat / 4096 ∨ w.toNat / 256 % 16 ≠ 0 ∨ (w.toNat % 256 ≠ 0 ∧ w.toNat / 4096 ≠ 4)

/-- The operation of an assigned code (R116). -/
theorem exists_hostOp {c : BitVec 4} (h0 : c.toNat ≠ 0) (h7 : c.toNat < 7) : ∃ o : HostOp, c = o.code := by
  obtain ⟨o, -, h⟩ := (by decide : ∀ c : BitVec 4, c.toNat ≠ 0 → c.toNat < 7 →
    ∃ o ∈ [HostOp.readT, .readRh, .readUreg, .writeUreg, .softReset, .selfTest], c = o.code) c h0 h7
  exact ⟨o, h⟩

/-- The assigned codes; WRITE_UREG's is 4 (R116). -/
theorem hostOp_code_bounds (o : HostOp) :
    o.code.toNat ≠ 0 ∧ o.code.toNat < 7 ∧ (o = .writeUreg ↔ o.code.toNat = 4) := by
  cases o <;> decide

theorem BuiltFrom.not_illegal {w : BitVec 16} {o : HostOp} {b : Byte} (h : BuiltFrom w o b) : ¬ IllegalWord w := by
  obtain ⟨hb, rfl⟩ := h
  obtain ⟨hc, hz, hi⟩ := toNat_wordFields (opWordOf o b)
  obtain ⟨fc, fz, fi⟩ := wordFields_opWordOf o b
  obtain ⟨h0, h7, h4⟩ := hostOp_code_bounds o
  rw [fc] at hc
  rw [fz] at hz
  rw [fi] at hi
  rw [h4, ← BitVec.toNat_inj] at hb
  rintro (h | h | h | ⟨h, h'⟩)
  · exact h0 (hc.trans h)
  · omega
  · exact h hz.symm
  · exact hb.elim (fun e => h' (hc.symm.trans e)) (fun e => h (hi.symm.trans e))

/-- A word that is not illegal is built from an operation and an operand it allows. -/
theorem exists_builtFrom {w : BitVec 16} (h : ¬ IllegalWord w) : ∃ o b, BuiltFrom w o b := by
  obtain ⟨hc, hz, hi⟩ := toNat_wordFields w
  obtain ⟨o, ho⟩ := exists_hostOp (c := wordOpc w) (by omega) (by omega)
  obtain ⟨-, -, h4⟩ := hostOp_code_bounds o
  refine ⟨o, wordImm8 w, ?_, eq_opWordOf ho (BitVec.eq_of_toNat_eq (by rw [hz, BitVec.toNat_ofNat]; omega))⟩
  rw [h4, ← BitVec.toNat_inj, ← ho, BitVec.toNat_ofNat]
  omega

theorem instrOfOpWord_illegal {w : BitVec 16} (h : IllegalWord w) : instrOfOpWord w = none := by
  cases hw : instrOfOpWord w with
  | none => rfl
  | some i =>
    obtain ⟨o, b, hb, -⟩ := instrOfOpWord_eq_some hw
    exact absurd h hb.not_illegal

/-- An illegal word at the operation port is rejected by name. -/
theorem decode_illegalWord (p : Params) {w : BitVec 16} (h : IllegalWord w) :
    decode p (word16 .opWord w) = .reject .illegalOp := by
  simp [decode, widthOk, portWidth, word16, decodeBits, w.isLt, instrOfOpWord_illegal h]

/-! ## The host starts an operation -/

theorem step_drive {w : PortWord} (hi : s.inputs = .drive w :: rest) :
    step s = runDecoded (decode s.params w) (s.takeHost rest) := by
  simp [step, hi]

/-- A legal word makes the writes of its operation's start where a start is allowed. -/
theorem step_start {w : BitVec 16} {o : HostOp} {b : Byte} (hw : BuiltFrom w o b)
    (hi : s.inputs = startInput w :: rest) (hf : s.faultMark = none) (hb : s.busy = false) :
    step s = .next (startWrites o b (s.takeHost rest)) := by
  obtain ⟨hv, rfl⟩ := hw
  rw [step_drive hi, Laws.DecodeEncode.hostWord s.params o b hv]
  simp [runDecoded, exec_hostOp, hostOperation, startOp, hf, hb]

theorem step_illegalWord {w : BitVec 16} (hw : IllegalWord w) (hi : s.inputs = startInput w :: rest)
    (hf : s.faultMark = none) (hb : s.busy = false) : step s = .next ((s.takeHost rest).refuse .illegalOp) := by
  rw [step_drive hi, decode_illegalWord s.params hw]
  simp [runDecoded, rejectWord, startIllegal, hf, hb]

theorem startWrites_running (o : HostOp) (b : Byte) (s : State) :
    (startWrites o b s).busy = true ∧ (startWrites o b s).op = some o := by
  cases o <;> exact ⟨rfl, rfl⟩

/-- Settles O22: an illegal word is rejected by name, and any other is built from the operation it starts. -/
theorem illegalWordsAreRefused : Obligations.IllegalWordsAreRefused := by
  intro s w rest hi hf hb
  refine ⟨fun hw => step_illegalWord hw hi hf hb, fun hw => ?_⟩
  obtain ⟨o, b, hob⟩ := exists_builtFrom hw
  obtain ⟨hbusy, hop⟩ := startWrites_running o b (s.takeHost rest)
  have hcode : wordOpc w = o.code := by rw [hob.2, (wordFields_opWordOf o b).1]
  exact ⟨_, step_start hob hi hf hb, hbusy, startWrites_refusedMark .., by rw [hop, ← wordOpc, hcode]; rfl⟩

/-! ## The pseudo-instructions -/

/-- Replacing bits under a mask changes no bit outside it. -/
theorem writeKeepsInvariant_replace (u v m : Byte) : writeKeepsInvariant u ((u &&& ~~~m) ||| (v &&& m)) m = true := by
  simp only [writeKeepsInvariant, beq_iff_eq]
  ext i hi
  by_cases hm : m[i] = true <;> simp [hm]

/-- `setResolution` replaces bits 7 and 0. -/
theorem setResolution_eq_replace (u : Byte) (r : BitVec 2) :
    setResolution u r = (u &&& ~~~0x81#8) ||| (setResolution 0x00#8 r &&& 0x81#8) := by
  have hr : ∀ r : BitVec 2, setResolution 0x00#8 r &&& 0x81#8 =
      ((r.extractLsb' 1 1).setWidth 8 <<< 7) ||| (r.extractLsb' 0 1).setWidth 8 := by decide
  rw [hr, setResolution, BitVec.or_assoc]
  rfl

/-- The payload of a pseudo-instruction changes the fields it names alone. -/
theorem payload_keepsInvariant (p : Pseudo) (u : Byte) : writeKeepsInvariant u (p.payload u) p.changed = true := by
  cases p with
  | heaterOn => exact writeKeepsInvariant_or u 0x04#8
  | heaterOff => exact writeKeepsInvariant_and_not u 0x04#8
  | setRes r =>
    rw [Pseudo.payload, setResolution_eq_replace]
    exact writeKeepsInvariant_replace u _ 0x81#8

theorem opWordOf_writeUreg (b : Byte) : opWordOf .writeUreg b = 0x40#8 ++ b := rfl

/-- The host goes on with WRITE_UREG of the payload where the idle core shows a byte. -/
theorem pseudoWrite_some {u : Byte} (hb : s.busy = false) (hu : s.resUreg = some u) (p : Pseudo) :
    pseudoWrite p s = { s with inputs := startInput (0x40#8 ++ p.payload u) :: s.inputs } := by
  simp [pseudoWrite, State.visible, hb, hu, startInput, opWordOf_writeUreg]

theorem pseudoWrite_none (hu : s.resUreg = none) (p : Pseudo) : pseudoWrite p s = s := by
  simp [pseudoWrite, State.visible, hu]

theorem step_pseudoWrite {p : Pseudo} (hi : s.inputs = .pseudoWrite p :: rest) :
    step s = .next (pseudoWrite p (s.takeHost rest)) := by
  simp [step, hi]

/-- Settles O45: the payloads and masks are the definitions'; the write is issued where a byte was read. -/
theorem pseudoInstructionsKeepTheInvariant : Obligations.PseudoInstructionsKeepTheInvariant := by
  refine ⟨fun u => ⟨rfl, rfl, fun r => rfl⟩, ⟨rfl, rfl, fun r => rfl⟩, payload_keepsInvariant,
    fun s p rest hi hb => ⟨fun u hu => ?_, fun hu => ?_⟩⟩
  · rw [step_pseudoWrite hi, pseudoWrite_some (s := s.takeHost rest) hb hu]
    rfl
  · rw [step_pseudoWrite hi, pseudoWrite_none (s := s.takeHost rest) hu]
    rfl

end Sys2Proof.Machine
end

section
/-! The user-register byte (40_frame_codec.md R150 to R155), bit by bit. -/

namespace Sys2Proof.Machine

/-! ## The accessors -/

/-- `setHeater` sets bit 2 (R152). -/
theorem getLsbD_setHeater (u : Byte) (i : Nat) : (setHeater u).getLsbD i = (decide (i = 2) || u.getLsbD i) := by
  have hm : (0x04#8).getLsbD i = decide (i = 2) := by
    rw [show 0x04#8 = BitVec.twoPow 8 2 from rfl, BitVec.getLsbD_twoPow]
    simp [eq_comm]
  rw [setHeater, BitVec.getLsbD_or, hm, Bool.or_comm]

/-- `clearHeater` clears bit 2 (R153). -/
theorem getLsbD_clearHeater (u : Byte) (i : Nat) : (clearHeater u).getLsbD i = (decide (i ≠ 2) && u.getLsbD i) := by
  rw [clearHeater, BitVec.getLsbD_and]
  by_cases hi : i < 8
  · rw [(by decide : ∀ i < 8, (0xFB#8).getLsbD i = decide (i ≠ 2)) i hi, Bool.and_comm]
  · simp [BitVec.getLsbD_of_ge u i (by omega)]

/-- `setResolution` writes `r[1]` to bit 7 and `r[0]` to bit 0 (R154). -/
theorem getLsbD_setResolution (u : Byte) (r : BitVec 2) (i : Nat) :
    (setResolution u r).getLsbD i =
      if i = 7 then r.getLsbD 1 else if i = 0 then r.getLsbD 0 else u.getLsbD i := by
  by_cases hi : i < 8
  · have hm := (by decide : ∀ i < 8, (0x7E#8).getLsbD i = decide (i ≠ 7 ∧ i ≠ 0)) i hi
    simp only [setResolution, BitVec.getLsbD_or, BitVec.getLsbD_and, hm, BitVec.getLsbD_shiftLeft,
      BitVec.getLsbD_setWidth, BitVec.getLsbD_extractLsb']
    by_cases h7 : i = 7
    · simp [h7]
    by_cases h0 : i = 0
    · simp [h0]
    · simp [h7, h0, show i < 7 by omega]
  · simp [BitVec.getLsbD_of_ge _ i (show 8 ≤ i by omega), show i ≠ 7 by omega, show i ≠ 0 by omega]

theorem setHeater_eq_self {u : Byte} (h : u.getLsbD 2 = true) : setHeater u = u := by
  refine BitVec.eq_of_getLsbD_eq fun i _ => ?_
  rw [getLsbD_setHeater]
  by_cases hi : i = 2
  · rw [hi, h, Bool.or_true]
  · simp [hi]

theorem clearHeater_eq_self {u : Byte} (h : u.getLsbD 2 = false) : clearHeater u = u := by
  refine BitVec.eq_of_getLsbD_eq fun i _ => ?_
  rw [getLsbD_clearHeater]
  by_cases hi : i = 2
  · rw [hi, h, Bool.and_false]
  · simp [hi]

/-- Settles O4: each port shows its accessor's byte, whose bits are given one by one. -/
theorem fieldAccessorsTouchTheirBitsAlone : Obligations.FieldAccessorsTouchTheirBitsAlone := fun u r _ =>
  ⟨rfl, rfl, rfl,
    fun i hi => ⟨by simp [getLsbD_setHeater, hi], by simp [getLsbD_clearHeater, hi]⟩,
    getLsbD_setHeater u 2, getLsbD_clearHeater u 2, setHeater_eq_self, clearHeater_eq_self,
    getLsbD_setResolution u r 7, getLsbD_setResolution u r 0,
    fun i h7 h0 => by rw [getLsbD_setResolution, if_neg h7, if_neg h0]⟩

/-! ## The write invariant -/

/-- The masked difference is zero when every bit outside the mask agrees (R155). -/
theorem writeKeepsInvariant_iff (read written changed : Byte) :
    writeKeepsInvariant read written changed = true ↔
      ∀ i, i < 8 → changed.getLsbD i = false → written.getLsbD i = read.getLsbD i := by
  have bit (i : Nat) (hi : i < 8) : ((read ^^^ written) &&& ~~~changed).getLsbD i = false ↔
      (changed.getLsbD i = false → written.getLsbD i = read.getLsbD i) := by
    rw [BitVec.getLsbD_and, BitVec.getLsbD_xor, BitVec.getLsbD_not, decide_eq_true hi, Bool.true_and]
    exact (by decide : ∀ r w c : Bool, ((r ^^ w) && !c) = false ↔ (c = false → w = r)) _ _ _
  rw [writeKeepsInvariant, beq_iff_eq, BitVec.eq_of_getLsbD_eq_iff]
  simp only [BitVec.getLsbD_zero]
  exact forall₂_congr bit

/-- Settles O5: the flag shown is `writeKeepsInvariant`. -/
theorem writeKeepsInvariantComparesOutsideTheMask : Obligations.WriteKeepsInvariantComparesOutsideTheMask :=
  fun read written changed _ => ⟨_, rfl, writeKeepsInvariant_iff read written changed⟩

/-! ## The fields of the byte -/

/-- A one-bit field holds the bit it starts at. -/
theorem getLsbD_extractLsb'_one (u : Byte) (n : Nat) : (u.extractLsb' n 1).getLsbD 0 = u.getLsbD n := by
  simp

/-- `RES` is `{u[7], u[0]}` (R150). -/
theorem getLsbD_parseUserRegister_res (u : Byte) :
    (parseUserRegister u).res.getLsbD 1 = u.getLsbD 7 ∧ (parseUserRegister u).res.getLsbD 0 = u.getLsbD 0 := by
  rw [parseUserRegister, BitVec.getLsbD_append, BitVec.getLsbD_append]
  exact ⟨getLsbD_extractLsb'_one u 7, getLsbD_extractLsb'_one u 0⟩

/-- Settles O3: the record shown is the byte's, and the serializer keeps its raw byte alone. -/
theorem userRegisterParsesAndSerializes : Obligations.UserRegisterParsesAndSerializes := by
  refine ⟨fun u _ => ?_, fun _ _ => rfl, fun _ => rfl⟩
  obtain ⟨h1, h0⟩ := getLsbD_parseUserRegister_res u
  exact ⟨parseUserRegister u, rfl, rfl, h1, h0, getLsbD_extractLsb'_one u 6, getLsbD_extractLsb'_one u 2,
    getLsbD_extractLsb'_one u 1⟩

end Sys2Proof.Machine
end

section
/-! The checksum (41_checksum.md R171 to R173): `crc8` is linear over XOR and injective in each byte. -/

namespace Sys2Proof.Machine

/-! ## What the CRC functions compute -/

/-- The polynomial's low byte is 0x31. -/
theorem crcBit_eq (acc : Byte) :
    crcBit acc = if acc.getLsbD 7 = true then (acc <<< 1) ^^^ 0x31#8 else acc <<< 1 := rfl

theorem crcBits_eq_iterate (n : Nat) : crcBits n = crcBit^[n] := by
  induction n with
  | zero => rfl
  | succ n ih => rw [Function.iterate_succ, ← ih]; rfl

theorem crcFrom_append (acc : Byte) (m m' : List Byte) : crcFrom acc (m ++ m') = crcFrom (crcFrom acc m) m' :=
  List.foldl_append

theorem crc8_append (m m' : List Byte) : crc8 (m ++ m') = crcFrom (crc8 m) m' := crcFrom_append ..

theorem crc8_concat (m : List Byte) (b : Byte) : crc8 (m ++ [b]) = crcByte (crc8 m) b := crc8_append ..

theorem checkCrc_iff {m : List Byte} {k : Byte} : checkCrc m k = true ↔ crc8 m = k := beq_iff_eq

/-- Settles O6: one byte more is one `crcByte` more, which is eight steps of `crcBit`. -/
theorem crcFollowsTheBitRule : Obligations.CrcFollowsTheBitRule := by
  refine ⟨fun data check s => ⟨rfl, rfl, crc8 data, checkCrc_iff.2 rfl, fun k hk => (checkCrc_iff.1 hk).symm⟩, rfl,
    fun m b => ?_⟩
  rw [crc8_concat, crcByte, crcBits_eq_iterate, funext crcBit_eq]

/-! ## Linearity -/

theorem crcBit_xor (a b : Byte) : crcBit (a ^^^ b) = crcBit a ^^^ crcBit b := by
  simp only [crcBit_eq, BitVec.getLsbD_xor, BitVec.shiftLeft_xor_distrib]
  cases a.getLsbD 7 <;> cases b.getLsbD 7
  · rfl
  · exact BitVec.xor_assoc ..
  · change a <<< 1 ^^^ b <<< 1 ^^^ 0x31#8 = a <<< 1 ^^^ 0x31#8 ^^^ b <<< 1
    ac_rfl
  · change a <<< 1 ^^^ b <<< 1 = a <<< 1 ^^^ 0x31#8 ^^^ (b <<< 1 ^^^ 0x31#8)
    rw [BitVec.xor_assoc, xor_xor_cancel_comm_assoc]

theorem crcBits_xor (n : Nat) (a b : Byte) : crcBits n (a ^^^ b) = crcBits n a ^^^ crcBits n b := by
  rw [crcBits_eq_iterate]
  exact Function.Semiconj₂.iterate crcBit_xor n a b

theorem crcByte_xor (a a' b b' : Byte) : crcByte (a ^^^ a') (b ^^^ b') = crcByte a b ^^^ crcByte a' b' := by
  rw [crcByte, crcByte, crcByte, ← crcBits_xor]
  congr 1
  ac_rfl

theorem crcFrom_zipWith_xor (m : List Byte) : ∀ (m' : List Byte) (a a' : Byte), m.length = m'.length →
    crcFrom (a ^^^ a') (List.zipWith (· ^^^ ·) m m') = crcFrom a m ^^^ crcFrom a' m' := by
  induction m with
  | nil =>
    rintro (_ | _) a a' h
    · rfl
    · cases h
  | cons b m ih =>
    rintro (_ | ⟨b', m'⟩) a a' h
    · cases h
    · have step := ih m' (crcByte a b) (crcByte a' b') (Nat.succ.inj h)
      rwa [← crcByte_xor] at step

theorem crcByte_self (a : Byte) : crcByte a a = 0#8 := by
  rw [crcByte, BitVec.xor_self]
  rfl

theorem crc8_replicate_zero (n : Nat) : crc8 (List.replicate n 0x00#8) = 0x00#8 := by
  induction n with
  | zero => rfl
  | succ n ih => rw [List.replicate_succ', crc8_concat, ih, crcByte_self]

/-- Settles O7, from the linearity of one bit position and `crcByte_self`. -/
theorem crcIsLinear : Obligations.CrcIsLinear := by
  refine ⟨fun m1 m2 h => crcFrom_zipWith_xor m1 m2 0 0 h, fun m => ?_, fun n m => ?_⟩
  · rw [crc8_concat, crcByte_self]
  · rw [crc8_append, crc8_replicate_zero]
    rfl

/-! ## An error in one byte is detected -/

/-- The generator has the term 1, so no accumulator but 0 is shifted to 0. -/
theorem crcBit_injective : Function.Injective crcBit := by
  intro a b h
  rw [← BitVec.xor_eq_zero_iff, ← crcBit_xor] at h
  exact BitVec.xor_eq_zero_iff.1 ((by decide : ∀ d : Byte, crcBit d = 0#8 → d = 0#8) _ h)

theorem crcBits_injective (n : Nat) : Function.Injective (crcBits n) := by
  rw [crcBits_eq_iterate]
  exact crcBit_injective.iterate n

theorem crcByte_injective_left (b : Byte) : Function.Injective (crcByte · b) := fun _ _ h =>
  (BitVec.xor_left_inj b).1 (crcBits_injective 8 h)

theorem crcByte_injective_right (acc : Byte) : Function.Injective (crcByte acc) := fun _ _ h =>
  (BitVec.xor_right_inj acc).1 (crcBits_injective 8 h)

theorem crcFrom_injective (m : List Byte) : Function.Injective (crcFrom · m) := by
  induction m with
  | nil => exact Function.injective_id
  | cons b m ih => exact ih.comp (crcByte_injective_left b)

/-- Messages that differ in one byte alone have different checksums. -/
theorem crc8_inj_at_byte {m m' : List Byte} {b c : Byte} : crc8 (m ++ b :: m') = crc8 (m ++ c :: m') ↔ b = c := by
  refine ⟨fun h => ?_, fun h => by rw [h]⟩
  rw [crc8_append, crc8_append] at h
  exact crcByte_injective_right _ (crcFrom_injective m' h)

theorem checkCrc_of_data_error {m m' : List Byte} {b c k : Byte} (h : checkCrc (m ++ b :: m') k = true) (hc : c ≠ b) :
    checkCrc (m ++ c :: m') k = false := by
  rw [checkCrc_iff] at h
  rw [← Bool.not_eq_true, checkCrc_iff, ← h]
  exact mt crc8_inj_at_byte.1 hc

theorem checkCrc_of_checksum_error {m : List Byte} {k c : Byte} (h : checkCrc m k = true) (hc : c ≠ k) :
    checkCrc m c = false := by
  rw [checkCrc_iff] at h
  rw [← Bool.not_eq_true, checkCrc_iff, h]
  exact hc.symm

theorem toTemperature_eq_none {ne : NumEval} {b0 b1 b2 : Byte} (h : checkCrc [b0, b1] b2 = false) :
    toTemperature ne b0 b1 b2 = none := by
  simp [toTemperature, h]

theorem toHumidity_eq_none {ne : NumEval} {b0 b1 b2 : Byte} (h : checkCrc [b0, b1] b2 = false) :
    toHumidity ne b0 b1 b2 = none := by
  simp [toHumidity, h]

theorem xor_bit_ne (b : Byte) {i : Nat} (hi : i < 8) : b ^^^ (1#8 <<< i) ≠ b := by
  rw [Ne, xor_left_eq_self_iff]
  exact (by decide : ∀ i < 8, 1#8 <<< i ≠ 0#8) i hi

/-- Settles O8: a flip changes one byte, and an error in one byte is detected. -/
theorem singleBitErrorsAreDetected : Obligations.SingleBitErrorsAreDetected := by
  intro b0 b1 b2 i ne hi h
  have h0 := checkCrc_of_data_error (m := []) (m' := [b1]) h (xor_bit_ne b0 hi)
  have h1 := checkCrc_of_data_error (m := [b0]) (m' := []) h (xor_bit_ne b1 hi)
  have h2 := checkCrc_of_checksum_error h (xor_bit_ne b2 hi)
  exact ⟨h0, h1, h2, toTemperature_eq_none h0, toTemperature_eq_none h1, toTemperature_eq_none h2,
    toHumidity_eq_none h0, toHumidity_eq_none h1, toHumidity_eq_none h2⟩

end Sys2Proof.Machine
end

section
/-! The checksum as a polynomial remainder over GF(2) (41_checksum.md R173 item 1): modulo the generator, one bit
position multiplies the accumulator by `X`. -/

namespace Sys2Proof.Machine

open Polynomial

/-- `x^8 + x^5 + x^4 + 1` (R170). -/
noncomputable def crcGenerator : (ZMod 2)[X] := X ^ 8 + X ^ 5 + X ^ 4 + 1

/-- A byte as a polynomial: bit `i` is the coefficient of `X^i`. -/
noncomputable def bytePoly (b : Byte) : (ZMod 2)[X] := ∑ i ∈ Finset.range 8, if b.getLsbD i = true then X ^ i else 0

/-- A message as a polynomial: bit 7 of the first byte is the highest power. -/
noncomputable def messagePoly (m : List Byte) : (ZMod 2)[X] := m.foldl (fun acc b => acc * X ^ 8 + bytePoly b) 0

theorem messagePoly_concat (m : List Byte) (b : Byte) : messagePoly (m ++ [b]) = messagePoly m * X ^ 8 + bytePoly b :=
  List.foldl_concat ..

theorem bytePoly_zero : bytePoly 0#8 = 0 := by simp [bytePoly]

theorem bytePoly_xor (a b : Byte) : bytePoly (a ^^^ b) = bytePoly a + bytePoly b := by
  rw [bytePoly, bytePoly, bytePoly, ← Finset.sum_add_distrib]
  refine Finset.sum_congr rfl fun i _ => ?_
  rw [BitVec.getLsbD_xor]
  cases a.getLsbD i <;> cases b.getLsbD i <;> simp [CharTwo.add_self_eq_zero]

/-- Shifting left multiplies by `X` and drops the `X^8` of bit 7. -/
theorem bytePoly_shiftLeft (a : Byte) :
    bytePoly (a <<< 1) + (if a.getLsbD 7 = true then X ^ 8 else 0) = bytePoly a * X := by
  have hshift (i : Nat) (hi : i < 7) : (a <<< 1).getLsbD (i + 1) = a.getLsbD i := by
    rw [BitVec.getLsbD_shiftLeft, decide_eq_true (by omega)]
    simp
  have hsum : ∑ i ∈ Finset.range 7, (if (a <<< 1).getLsbD (i + 1) = true then X ^ (i + 1) else 0) =
      (∑ i ∈ Finset.range 7, if a.getLsbD i = true then X ^ i else 0) * (X : (ZMod 2)[X]) := by
    rw [Finset.sum_mul]
    refine Finset.sum_congr rfl fun i hi => ?_
    rw [hshift i (Finset.mem_range.1 hi), ite_mul, zero_mul, pow_succ]
  rw [bytePoly, bytePoly, Finset.sum_range_succ', hsum, Finset.sum_range_succ _ 7, add_mul, ite_mul, zero_mul,
    ← pow_succ]
  simp

/-- The polynomial's low byte is the generator without `X^8`. -/
theorem bytePoly_lowByte : bytePoly 0x31#8 = crcGenerator + X ^ 8 := by
  have hbits : bytePoly 0x31#8 = 1 + X ^ 4 + X ^ 5 := by simp [bytePoly, Finset.sum_range_succ]
  rw [hbits, crcGenerator]
  linear_combination (-X ^ 8 : (ZMod 2)[X]) * CharTwo.two_eq_zero (R := (ZMod 2)[X])

/-- One bit position multiplies by `X` modulo the generator, which is 0 there. -/
theorem mk_bytePoly_crcBit (a : Byte) :
    AdjoinRoot.mk crcGenerator (bytePoly (crcBit a)) = AdjoinRoot.mk crcGenerator (bytePoly a * X) := by
  rw [← bytePoly_shiftLeft, crcBit_eq]
  split
  · rw [bytePoly_xor, bytePoly_lowByte, map_add, map_add, map_add, AdjoinRoot.mk_self, zero_add]
  · rw [add_zero]

theorem mk_bytePoly_crcBits (n : Nat) (a : Byte) :
    AdjoinRoot.mk crcGenerator (bytePoly (crcBits n a)) = AdjoinRoot.mk crcGenerator (bytePoly a * X ^ n) := by
  induction n generalizing a with
  | zero => simp [crcBits]
  | succ n ih => rw [crcBits, ih, map_mul, mk_bytePoly_crcBit, ← map_mul, mul_assoc, ← pow_succ']

theorem mk_bytePoly_crc8 (m : List Byte) :
    AdjoinRoot.mk crcGenerator (bytePoly (crc8 m)) = AdjoinRoot.mk crcGenerator (messagePoly m * X ^ 8) := by
  induction m using List.reverseRecOn with
  | nil => simp [messagePoly, crc8, crcFrom, Config.crcInit, bytePoly_zero]
  | append_singleton m b ih =>
    rw [crc8_concat, crcByte, mk_bytePoly_crcBits, bytePoly_xor, messagePoly_concat, map_mul, map_add, ih, ← map_add,
      ← map_mul]

/-- Settles O9: the message and its checksum are equal modulo the generator. -/
theorem crcIsThePolynomialRemainder : Obligations.CrcIsThePolynomialRemainder := by
  intro m
  obtain ⟨q, hq⟩ := AdjoinRoot.mk_eq_mk.1 (mk_bytePoly_crc8 m).symm
  exact ⟨q, by rw [mul_comm q]; exact sub_eq_iff_eq_add.1 hq⟩

end Sys2Proof.Machine
end

section
/-! The converters (42_converter.md R190 to R197): the checksum is tested first, the status bits are masked off, and
both formats hold every small multiple of a power of two down to 2^-149. So humidity, whose steps stay among these
values, is exact, and temperature is nearer to the real formula than two readings are apart. -/

namespace Sys2Proof.Machine

/-! ## The checksum, then the formula -/

theorem toTemperature_eq (ne : NumEval) (b0 b1 b2 : Byte) : toTemperature ne b0 b1 b2 =
    if crc8 [b0, b1] = b2 then some (temperatureOf ne (masked b0 b1)) else none := by
  simp only [toTemperature, checkCrc_iff]

theorem toHumidity_eq (ne : NumEval) (b0 b1 b2 : Byte) : toHumidity ne b0 b1 b2 =
    if crc8 [b0, b1] = b2 then some (humidityOf ne (masked b0 b1)) else none := by
  simp only [toHumidity, checkCrc_iff]

/-- Settles O10: each port shows its converter's answer. -/
theorem convertersCheckThenEvaluate : Obligations.ConvertersCheckThenEvaluate := by
  intro b0 b1 b2 s
  constructor
  · exact congrArg (fun v => Host.Outcome.next (s.present (.cv v))) (toTemperature_eq s.params.numEval b0 b1 b2)
  · exact congrArg (fun v => Host.Outcome.next (s.present (.cv v))) (toHumidity_eq s.params.numEval b0 b1 b2)

/-- Settles O11: the schemes and formats are the definitions'; the constants' patterns are computed. -/
theorem evaluationSchemes : Obligations.EvaluationSchemes := by
  refine ⟨fun _ _ _ => ⟨rfl, rfl, rfl⟩, rfl, rfl, rfl, ?_⟩
  decide

/-! ## The status bits -/

/-- The mask clears the status bits of the second byte alone. -/
theorem masked_eq_append (b0 b1 : Byte) : masked b0 b1 = b0 ++ (b1 &&& 0xFC#8) := by
  have hmask : 0xFFFC#16 = BitVec.allOnes 8 ++ 0xFC#8 := by decide
  rw [masked, raw16, hmask, BitVec.and_append, BitVec.and_allOnes]

/-- Settles O12: a converter that accepts the checksum sees only the masked reading. -/
theorem statusBitsDoNotReachTheArithmetic : Obligations.StatusBitsDoNotReachTheArithmetic := by
  intro k ne b0 b1 b1' c c' hb hc hc'
  have hm : masked b0 b1' = masked b0 b1 := by rw [masked_eq_append, masked_eq_append, hb]
  rw [checkCrc_iff] at hc hc'
  cases k with
  | temp =>
    have h := (toTemperature_eq ne b0 b1 c).trans (if_pos hc)
    have h' := (toTemperature_eq ne b0 b1' c').trans (if_pos hc')
    exact ⟨h.trans (hm ▸ h').symm, h⟩
  | hum =>
    have h := (toHumidity_eq ne b0 b1 c).trans (if_pos hc)
    have h' := (toHumidity_eq ne b0 b1' c').trans (if_pos hc')
    exact ⟨h.trans (hm ▸ h').symm, h⟩

/-! ## The values both formats hold -/

/-- A significand within the format's width, at an exponent the format has, is rounded to itself. -/
theorem magVal_roundMag_exact {f : Fmt} {n : Nat} {e : ℤ} (hn : n < 2 ^ (f.fracBits + 1)) (he : f.minExp ≤ e)
    (hr : roundMag f n 1 e < f.infPat) : magVal f (roundMag f n 1 e) = n * 2 ^ e := by
  rcases Nat.eq_zero_or_pos n with rfl | hpos
  · simp [roundMag_zero, magVal_zero]
  obtain ⟨t, m, y, -, hv, hx, hm, -, ht⟩ := roundMag_finite hpos one_pos hr
  rw [Nat.cast_one, div_one] at hx
  have hQ := two_zpow_pos (f.minExp + t)
  -- a coarser quantum comes with a full significand, which is more bits than `n` has
  have hte : f.minExp + t ≤ e := by
    by_contra hlt
    have hy := ht.resolve_left (by omega)
    have hn' : (n : ℚ) < 2 ^ (f.fracBits + 1) := by exact_mod_cast hn
    have : (n : ℚ) * 2 ^ e < y * 2 ^ (f.minExp + t) :=
      calc (n : ℚ) * 2 ^ e < 2 ^ (f.fracBits + 1) * 2 ^ e := by have := two_zpow_pos e; gcongr
        _ = 2 ^ f.fracBits * 2 ^ (e + 1) := by rw [two_zpow_add, pow_succ]; ring
        _ ≤ 2 ^ f.fracBits * 2 ^ (f.minExp + t) := by
          have := zpow_le_zpow_right₀ (a := (2 : ℚ)) one_le_two (show e + 1 ≤ f.minExp + t by omega)
          gcongr
        _ ≤ y * 2 ^ (f.minExp + t) := by gcongr
    exact this.ne hx
  obtain ⟨j, hj⟩ := Int.eq_ofNat_of_zero_le (sub_nonneg.2 hte)
  have hy : y = (n * 2 ^ j : Nat) := by
    rw [show e = j + (f.minExp + t) by omega, two_zpow_add, ← mul_assoc, zpow_natCast] at hx
    push_cast
    exact (mul_right_cancel₀ hQ.ne' hx).symm
  have hmy := (nearest_of_half (k := n * 2 ^ j) hm).1
  rw [← hy, sub_self, abs_zero, abs_nonpos_iff, sub_eq_zero] at hmy
  rw [hv, hx, hmy]

theorem mul_two_zpow_le {x : ℚ} {e : ℤ} (hx0 : 0 ≤ x) (hx : x ≤ 2 ^ 23) (he0 : e ≤ 0) :
    x * 2 ^ e ≤ 10000000 :=
  calc x * 2 ^ e ≤ x := mul_le_of_le_one_right hx0 (zpow_le_one_of_nonpos₀ one_le_two he0)
    _ ≤ 10000000 := hx.trans (by norm_num)

/-- Both formats hold the multiples of 2^e up to 2^23 of them. -/
theorem exists_realOf_dyadic (f : Fmt) {k e : ℤ} (hk : |k| ≤ 2 ^ 23) (he : -149 ≤ e) (he0 : e ≤ 0) :
    ∃ w, realOf f w = some ((k : ℚ) * 2 ^ e) := by
  have hn : k.natAbs ≤ 2 ^ 23 := by rw [Int.abs_eq_natAbs] at hk; exact_mod_cast hk
  have hnq : (k.natAbs : ℚ) ≤ 2 ^ 23 := by exact_mod_cast hn
  have hwidth : k.natAbs < 2 ^ (f.fracBits + 1) := hn.trans_lt (by cases f <;> decide)
  have hexp : f.minExp ≤ e := le_trans (by cases f <;> decide) he
  have hlt : roundMag f k.natAbs 1 e < f.infPat := by
    rw [roundMag_lt_infPat f e one_pos, Nat.cast_one, div_one]
    exact (mul_two_zpow_le (Nat.cast_nonneg _) hnq he0).trans_lt (lt_overflowAt f)
  refine ⟨_, ((realOf_signed f (decide (k < 0)) hlt.le).2.1 hlt).trans (congrArg some ?_)⟩
  rw [magVal_roundMag_exact hwidth hexp hlt, Nat.cast_natAbs]
  rcases lt_or_ge k 0 with h | h
  · simp [h, abs_of_neg h]
  · simp [h.not_gt, abs_of_nonneg h]

/-- A rounded value is no further off than any value both formats hold. -/
theorem IsRounded.dyadic_nearest {f : Fmt} {r : FBits} {z : ℚ} (h : IsRounded f r z) (hz : |z| ≤ 10000000) :
    ∃ v, realOf f r = some v ∧
      ∀ k e : ℤ, |k| ≤ 2 ^ 23 → -149 ≤ e → e ≤ 0 → |v - z| ≤ |(k : ℚ) * 2 ^ e - z| := by
  obtain ⟨-, hov⟩ | ⟨v, hv, -, hnear⟩ := h
  · exact absurd hov ((hz.trans_lt (lt_overflowAt f)).not_ge)
  · refine ⟨v, hv, fun k e hk he he0 => ?_⟩
    obtain ⟨w, hw⟩ := exists_realOf_dyadic f hk he he0
    exact (hnear w _ hw).1

/-- A value both formats hold is rounded to itself. -/
theorem IsRounded.realOf_exact {f : Fmt} {r : FBits} {z : ℚ} (h : IsRounded f r z) {k e : ℤ} (hz : z = k * 2 ^ e)
    (hk : |k| ≤ 2 ^ 23) (he : -149 ≤ e) (he0 : e ≤ 0) : realOf f r = some z := by
  have hbound : |z| ≤ 10000000 := by
    have hkq : |(k : ℚ)| ≤ 2 ^ 23 := by exact_mod_cast hk
    rw [hz, abs_mul, abs_of_pos (two_zpow_pos e)]
    exact mul_two_zpow_le (abs_nonneg _) hkq he0
  obtain ⟨v, hv, hnear⟩ := h.dyadic_nearest hbound
  have h0 := hnear k e hk he he0
  rw [← hz, sub_self, abs_zero, abs_nonpos_iff, sub_eq_zero] at h0
  rw [hv, h0]

/-- A value of at most 256 is rounded by at most 2^-15: a multiple of 2^-14 is as near as that. -/
theorem IsRounded.realOf_near {f : Fmt} {r : FBits} {z : ℚ} (h : IsRounded f r z) (hz : |z| ≤ 256) :
    ∃ v, realOf f r = some v ∧ |v - z| ≤ 1 / 2 ^ 15 := by
  obtain ⟨v, hv, hnear⟩ := h.dyadic_nearest (hz.trans (by norm_num))
  obtain ⟨hlo, hhi⟩ := abs_le.1 (abs_sub_round (z * 2 ^ 14))
  obtain ⟨hz1, hz2⟩ := abs_le.1 hz
  have hk : |round (z * 2 ^ 14)| ≤ 2 ^ 23 := by
    have : |(round (z * 2 ^ 14) : ℚ)| ≤ 2 ^ 23 := by
      norm_num at hlo hhi ⊢
      exact abs_le.2 ⟨by linarith, by linarith⟩
    exact_mod_cast this
  refine ⟨v, hv, (hnear _ (-14) hk (by norm_num) (by norm_num)).trans ?_⟩
  norm_num at hlo hhi ⊢
  exact abs_le.2 ⟨by linarith, by linarith⟩

/-! ## The steps of the evaluation -/

theorem toNat_reading {k : Nat} (hk : k < 16384) : (BitVec.ofNat 16 (4 * k)).toNat = 4 * k := by
  rw [BitVec.toNat_ofNat]
  omega

theorem reading_le_one {k : Nat} (hk : k < 16384) : (k : ℚ) / 16384 ≤ 1 := by
  rw [div_le_one (by norm_num)]
  exact_mod_cast hk.le

/-- The division is exact: the masked reading 4k over 65536. -/
theorem realOf_fdiv_reading (f : Fmt) {k : Nat} (hk : k < 16384) :
    realOf f (fdiv f (ofNatF f (BitVec.ofNat 16 (4 * k)).toNat) (ofNatF f 65536)) = some ((k : ℚ) / 16384) := by
  have hnum := (isRounded_ofNatF f (4 * k)).realOf_exact (k := 4 * k) (e := 0) (by push_cast; ring)
    (abs_le.2 ⟨by omega, by omega⟩) (by norm_num) le_rfl
  have hval : ((4 * k : Nat) : ℚ) / 65536 = k / 16384 := by push_cast; ring
  have hdiv := isRounded_fdiv hnum (realOf_ofNatF_65536 f) (by norm_num)
  rw [hval] at hdiv
  rw [toNat_reading hk]
  exact hdiv.realOf_exact (k := k) (e := -14) (by norm_num [div_eq_mul_inv]) (abs_le.2 ⟨by omega, by omega⟩)
    (by norm_num) (by norm_num)

/-! ## Humidity -/

/-- Both literals, the product and the sum are multiples of 2^-14 that both formats hold. -/
theorem realOf_evalIn_humidity (f : Fmt) {k : Nat} (hk : k < 16384) :
    realOf f (evalIn f Config.rhC0 Config.rhC1 (BitVec.ofNat 16 (4 * k))) =
      some ((125 * (k : ℚ) - 98304) / 16384) := by
  have hc1 := (isRounded_literal f Config.rhC1).realOf_exact (k := 125) (e := 0) (by norm_num [Config.rhC1])
    (by norm_num) (by norm_num) le_rfl
  have hc0 := (isRounded_literal f Config.rhC0).realOf_exact (k := -6) (e := 0) (by norm_num [Config.rhC0])
    (by norm_num) (by norm_num) le_rfl
  have hp := (isRounded_fmul hc1 (realOf_fdiv_reading f hk)).realOf_exact (k := 125 * k) (e := -14)
    (by norm_num [Config.rhC1]; ring) (abs_le.2 ⟨by omega, by omega⟩) (by norm_num) (by norm_num)
  have hs := (isRounded_fadd hc0 hp).realOf_exact (k := 125 * k - 98304) (e := -14)
    (by norm_num [Config.rhC0, Config.rhC1]; ring) (abs_le.2 ⟨by omega, by omega⟩) (by norm_num) (by norm_num)
  refine hs.trans (congrArg some ?_)
  norm_num [Config.rhC0, Config.rhC1]
  ring

theorem realOf_humidityOf (ne : NumEval) {k : Nat} (hk : k < 16384) :
    realOf ne.fmt (humidityOf ne (BitVec.ofNat 16 (4 * k))) = some ((125 * (k : ℚ) - 98304) / 16384) := by
  cases ne with
  | e64 => exact realOf_evalIn_humidity .b64 hk
  | e64To32 =>
    exact (isRounded_toB32 (realOf_evalIn_humidity .b64 hk)).realOf_exact (k := 125 * k - 98304) (e := -14)
      (by norm_num [div_eq_mul_inv]) (abs_le.2 ⟨by omega, by omega⟩) (by norm_num) (by norm_num)
  | e32 => exact realOf_evalIn_humidity .b32 hk

/-- Settles O13: every step's exact result is one the format holds. -/
theorem humidityIsExact : Obligations.HumidityIsExact := by
  intro ne k hk
  obtain ⟨a, m, e, hx, hv⟩ := realOf_eq_some (realOf_humidityOf ne hk)
  exact ⟨a, m, e, hx, hv.symm⟩

/-! ## Temperature -/

/-- The temperature of the masked reading 4k, without rounding (R193). -/
def exactTemperature (k : Nat) : ℚ := -(4685 / 100) + 17572 / 100 * (k / 16384)

theorem abs_exactTemperature_le {k : Nat} (hk : k < 16384) : |exactTemperature k| ≤ 130 := by
  have hq := reading_le_one hk
  have hq0 : (0 : ℚ) ≤ k / 16384 := by positivity
  unfold exactTemperature
  exact abs_le.2 ⟨by linarith, by linarith⟩

/-- Two literals, a product and a sum, each rounded once. -/
theorem realOf_evalIn_temperature (f : Fmt) {k : Nat} (hk : k < 16384) :
    ∃ v, realOf f (evalIn f Config.tC0 Config.tC1 (BitVec.ofNat 16 (4 * k))) = some v ∧
      |v - exactTemperature k| ≤ 4 / 2 ^ 15 := by
  have hq := reading_le_one hk
  have hq0 : (0 : ℚ) ≤ k / 16384 := by positivity
  have hquot := realOf_fdiv_reading f hk
  unfold exactTemperature
  generalize (k : ℚ) / 16384 = q at hq hq0 hquot ⊢
  obtain ⟨c1, hc1, e1⟩ := (isRounded_literal f Config.tC1).realOf_near (by norm_num [Config.tC1, abs_le])
  obtain ⟨c0, hc0, e0⟩ := (isRounded_literal f Config.tC0).realOf_near (by norm_num [Config.tC0, abs_le])
  norm_num [Config.tC0, Config.tC1, abs_le] at e0 e1
  have hlo : (17572 / 100 - 1 / 2 ^ 15) * q ≤ c1 * q := by gcongr; linarith
  have hhi : c1 * q ≤ (17572 / 100 + 1 / 2 ^ 15) * q := by gcongr; linarith
  obtain ⟨p, hp, ep⟩ := (isRounded_fmul hc1 hquot).realOf_near (abs_le.2 ⟨by linarith, by linarith⟩)
  rw [abs_le] at ep
  obtain ⟨v, hv, ev⟩ := (isRounded_fadd hc0 hp).realOf_near (abs_le.2 ⟨by linarith, by linarith⟩)
  rw [abs_le] at ev
  exact ⟨v, hv, abs_le.2 ⟨by linarith, by linarith⟩⟩

theorem realOf_temperatureOf (ne : NumEval) {k : Nat} (hk : k < 16384) :
    ∃ v, realOf ne.fmt (temperatureOf ne (BitVec.ofNat 16 (4 * k))) = some v ∧
      |v - exactTemperature k| ≤ 5 / 2 ^ 15 := by
  cases ne with
  | e64 =>
    obtain ⟨v, hv, h⟩ := realOf_evalIn_temperature .b64 hk
    exact ⟨v, hv, h.trans (by norm_num)⟩
  | e64To32 =>
    obtain ⟨v, hv, h⟩ := realOf_evalIn_temperature .b64 hk
    have htri := abs_sub_abs_le_abs_sub v (exactTemperature k)
    have hbound := abs_exactTemperature_le hk
    obtain ⟨w, hw, h'⟩ := (isRounded_toB32 hv).realOf_near (by linarith)
    have := abs_sub_le w v (exactTemperature k)
    exact ⟨w, hw, by linarith⟩
  | e32 =>
    obtain ⟨v, hv, h⟩ := realOf_evalIn_temperature .b32 hk
    exact ⟨v, hv, h.trans (by norm_num)⟩

/-- Readings one step apart are a hundredth of a degree apart, far more than the rounding moves them. -/
theorem exactTemperature_gap {j k : Nat} (h : j < k) : exactTemperature j + 1 / 100 ≤ exactTemperature k := by
  have hjk : (j : ℚ) + 1 ≤ k := by exact_mod_cast h
  unfold exactTemperature
  linarith

/-- `>_F` on two finite values. -/
theorem fgt_of_realOf {f : Fmt} {x y : FBits} {u v : ℚ} (hx : realOf f x = some u) (hy : realOf f y = some v)
    (h : v < u) : fgt f x y = true := by
  obtain ⟨a, m, e, hx', rfl⟩ := realOf_eq_some hx
  obtain ⟨b, n, k, hy', rfl⟩ := realOf_eq_some hy
  exact ((greaterThanIsOrdered f x y).2 a b m n e k hx' hy').2 h

/-- Settles O14: the rounding moves a temperature by less than half the gap of two readings. -/
theorem temperatureRisesWithTheReading : Obligations.TemperatureRisesWithTheReading := by
  intro ne j k hjk hk
  obtain ⟨u, hu, hk'⟩ := realOf_temperatureOf ne hk
  obtain ⟨v, hv, hj'⟩ := realOf_temperatureOf ne (hjk.trans hk)
  have hgap := exactTemperature_gap hjk
  have hku := (abs_le.1 hk').1
  have hjv := (abs_le.1 hj').2
  exact fgt_of_realOf hu hv (by linarith)

end Sys2Proof.Machine
end

section
/-! The micro-programs of READ_T, READ_RH, READ_UREG, WRITE_UREG and SOFT_RESET (43_orchestrator.md R222 to R238): a
step of an operation is the rule of its micro-step, and each rule says what it does with each answer. -/

namespace Sys2Proof.Machine

variable {s : State} {a : Answer} {k : MeasKind} {b0 b1 b2 : Byte} {kErr : ErrorKind → State → State}

/-! ## Start and finish -/

/-- Where a start is allowed, an operation's instruction makes the writes of its start. -/
theorem exec_start (h : IdleForHost s) (o : HostOp) (b : Byte) :
    exec (instrOfHostOp o b) s = .next (startWrites o b s) := by
  obtain ⟨hx, hf, hb⟩ := h
  simp [exec_hostOp, hostOperation, startOp, hx, hf, hb]

/-- Settles O20: each operation's writes are those of `startWrites`. -/
theorem allowedStartLatchesTheOperation : Obligations.AllowedStartLatchesTheOperation := by
  intro s imm8 h
  have starts (o : HostOp) := exec_start h o imm8
  exact ⟨starts .readT, starts .readRh, starts .readUreg, starts .writeUreg, starts .softReset, starts .selfTest⟩

/-- Settles O23: the writes and the codes are the definitions'. -/
theorem finishWritesTheResultCode : Obligations.FinishWritesTheResultCode := fun _ _ => ⟨rfl, rfl⟩

/-! ## One micro-step -/

/-- With XPORT's answer on the port, the running operation's instruction applies the rule of its micro-step. -/
theorem exec_micro {o : HostOp} {n : BitVec 5} {rule : Micro} (h : AtMicroStep o n a s)
    (hr : prog o n.toNat = some rule) (b : Byte) : exec (instrOfHostOp o b) s = .next (rule a s.clearAnswer) := by
  obtain ⟨hf, hb, ho, hn, hx⟩ := h
  simp [exec_hostOp, hostOperation, runMicro, hx, hf, hb, ho, hn, hr]

/-! ## What a rule does with an answer -/

theorem measRx_converted {v : FBits} {kVal : FBits → State → State}
    (hv : convert k s.params.numEval b0 b1 b2 = some v) :
    measRx k (.bytes [b0, b1, b2]) kVal kErr s = kVal v (s.record (.rx Config.devAddr 3 (.bytes [b0, b1, b2]))) := by
  simp [measRx, receive, onReading, Config.measRxBytes, hv]

theorem measRx_mismatch {kVal : FBits → State → State} (hv : convert k s.params.numEval b0 b1 b2 = none) :
    measRx k (.bytes [b0, b1, b2]) kVal kErr s =
      kErr .checksumMismatch (s.record (.rx Config.devAddr 3 (.bytes [b0, b1, b2]))) := by
  simp [measRx, receive, onReading, Config.measRxBytes, hv]

theorem convert_temp_of_crc (ne : NumEval) (h : crc8 [b0, b1] = b2) :
    convert .temp ne b0 b1 b2 = some (temperatureOf ne ((b0 ++ b1) &&& 0xFFFC#16)) :=
  (toTemperature_eq ne b0 b1 b2).trans (if_pos h)

theorem convert_hum_of_crc (ne : NumEval) (h : crc8 [b0, b1] = b2) :
    convert .hum ne b0 b1 b2 = some (humidityOf ne ((b0 ++ b1) &&& 0xFFFC#16)) :=
  (toHumidity_eq ne b0 b1 b2).trans (if_pos h)

/-- Both converters test the checksum. -/
theorem convert_eq_none (k : MeasKind) (ne : NumEval) (h : crc8 [b0, b1] ≠ b2) : convert k ne b0 b1 b2 = none := by
  cases k with
  | temp => exact (toTemperature_eq ne b0 b1 b2).trans (if_neg h)
  | hum => exact (toHumidity_eq ne b0 b1 b2).trans (if_neg h)

section
variable {e : TransportError} {err : ErrorKind} (he : e.kind = some err)
include he

theorem transmit_err {f : BitVec 16} {p : List Byte} {kOk : State → State} :
    transmit f p (.err e) kOk kErr s = kErr err (s.record (.tx f p (.err e))) := by
  simp [transmit, onTransportErr, he]

theorem receive_err {n : Nat} {kOk : List Byte → State → State} :
    receive n (.err e) kOk kErr s = kErr err (s.record (.rx Config.devAddr n (.err e))) := by
  simp [receive, onTransportErr, he]

end

/-! ## READ_T and READ_RH -/

/-- The operation of a measurement (R230, R231). -/
def measOp : MeasKind → HostOp
  | .temp => .readT
  | .hum => .readRh

/-- Both measurements run the sequence of R226. -/
theorem prog_measOp (k : MeasKind) :
    prog (measOp k) 0 = some (fun a => measTx k a 1#5 State.finish) ∧
    prog (measOp k) 1 = some (fun a => measDelay k a 2#5) ∧
    prog (measOp k) 2 = some (fun a => measRx k a storeValue State.finish) := by
  cases k <;> exact ⟨rfl, rfl, rfl⟩

theorem exec_measRx_converted {v : FBits} (h : AtMicroStep (measOp k) 2#5 (.bytes [b0, b1, b2]) s)
    (hv : convert k s.params.numEval b0 b1 b2 = some v) (b : Byte) :
    exec (instrOfHostOp (measOp k) b) s =
      .next ({ AfterCall (.rx 0x40#7 3 (.bytes [b0, b1, b2])) s with resVal := some v }.finish .noneErr) := by
  obtain ⟨-, -, receives⟩ := prog_measOp k
  rw [exec_micro h receives, measRx_converted (s := s.clearAnswer) hv]
  rfl

theorem exec_measRx_mismatch (h : AtMicroStep (measOp k) 2#5 (.bytes [b0, b1, b2]) s) (hc : crc8 [b0, b1] ≠ b2)
    (b : Byte) : exec (instrOfHostOp (measOp k) b) s =
      .next ((AfterCall (.rx 0x40#7 3 (.bytes [b0, b1, b2])) s).finish .checksumMismatch) := by
  obtain ⟨-, -, receives⟩ := prog_measOp k
  rw [exec_micro h receives, measRx_mismatch (s := s.clearAnswer) (convert_eq_none k _ hc)]
  rfl

/-- Settles O24: the transmit and the delay go on to the next micro-step, and the receive converts. -/
theorem measurementMicroPrograms : Obligations.MeasurementMicroPrograms := by
  intro s a b0 b1 b2
  refine ⟨?_, ?_, ?_, ?_, ?_, ?_⟩ <;> rintro h rfl
  · exact exec_micro h rfl 0
  · exact exec_micro h rfl 0
  · exact ⟨fun hc => exec_measRx_converted (k := .temp) h (convert_temp_of_crc _ hc) 0,
      fun hc => exec_measRx_mismatch (k := .temp) h hc 0⟩
  · exact exec_micro h rfl 0
  · exact exec_micro h rfl 0
  · exact ⟨fun hc => exec_measRx_converted (k := .hum) h (convert_hum_of_crc _ hc) 0,
      fun hc => exec_measRx_mismatch (k := .hum) h hc 0⟩

/-! ## READ_UREG, WRITE_UREG and SOFT_RESET -/

/-- The micro-step of WRITE_UREG sends the latched byte, whatever the operand (R236). -/
theorem exec_writeUreg_micro {p : Byte} (h : AtMicroStep .writeUreg 0#5 a s) (hp : s.wpayload = some p) (b : Byte) :
    exec (.writeUreg b) s = .next (uwrite p a (State.finish .noneErr) State.finish s.clearAnswer) := by
  have hp' : s.clearAnswer.wpayload = some p := hp
  have hexec := exec_micro h rfl b
  rwa [hp'] at hexec

/-- Settles O25: one rule each for the request, the byte, the write and the reset. -/
theorem registerAndResetMicroPrograms : Obligations.RegisterAndResetMicroPrograms := by
  intro s a b
  refine ⟨?_, ?_, ?_, ?_⟩ <;> rintro h rfl
  · exact exec_micro h rfl 0
  · exact exec_micro h rfl 0
  · exact fun hp imm8 => exec_writeUreg_micro h hp imm8
  · exact exec_micro h rfl 0

/-! ## Transport errors -/

/-- The operations that begin with a command without a payload (R225). -/
theorem prog_transmits {o : HostOp} {c : Command}
    (h : (o, c) ∈ [(HostOp.readT, Command.tHold), (.readRh, .rhHold), (.readUreg, .readUreg),
      (.softReset, .softReset)]) :
    ∃ kOk, prog o (0#5).toNat = some (fun a => txCommand c a kOk State.finish) := by
  simp only [List.mem_cons, Prod.mk.injEq, List.not_mem_nil, or_false] at h
  obtain ⟨rfl, rfl⟩ | ⟨rfl, rfl⟩ | ⟨rfl, rfl⟩ | ⟨rfl, rfl⟩ := h <;> exact ⟨_, rfl⟩

/-- The micro-steps that receive (R225). -/
theorem prog_receives {o : HostOp} {i : BitVec 5} {n : Nat}
    (h : (o, i, n) ∈ [(HostOp.readT, 2#5, 3), (.readRh, 2#5, 3), (.readUreg, 1#5, 1)]) :
    ∃ kOk, prog o i.toNat = some (fun a => receive n a kOk State.finish) := by
  simp only [List.mem_cons, Prod.mk.injEq, List.not_mem_nil, or_false] at h
  obtain ⟨rfl, rfl, rfl⟩ | ⟨rfl, rfl, rfl⟩ | ⟨rfl, rfl, rfl⟩ := h <;> exact ⟨_, rfl⟩

/-- Settles O26: every rule of the five operations answers `Err` by `finish`. -/
theorem transportErrorsEndTheOperationUnchanged : Obligations.TransportErrorsEndTheOperationUnchanged := by
  intro s e k b hek
  have he : e.kind = some k := by obtain ⟨rfl, rfl⟩ | ⟨rfl, rfl⟩ := hek <;> rfl
  refine ⟨fun o c hoc h => ?_, fun p h hp => ?_, fun o i n hon h => ?_⟩
  · obtain ⟨kOk, hr⟩ := prog_transmits hoc
    rw [exec_micro h hr, txCommand, transmit_err he]
    rfl
  · rw [exec_writeUreg_micro h hp, uwrite, transmit_err he]
    rfl
  · obtain ⟨kOk, hr⟩ := prog_receives hon
    rw [exec_micro h hr, receive_err he]
    rfl

end Sys2Proof.Machine
end

section
/-! Whole operations (43_orchestrator.md R225 to R238): from the start on an idle core to the result. -/

namespace Sys2Proof.Machine

variable {s t : State} {rest : List Input} {n : Nat}

/-! ## A run, step by step -/

theorem run_next (h : step s = .next t) : Host.Core.run core (n + 1) s = Host.Core.run core n t := by
  have h' : core.step s = .next t := h
  simp [Host.Core.run, h']

/-- The first step of a run that begins with a legal word on an idle core. -/
theorem run_start {w : BitVec 16} {o : HostOp} {b : Byte} (hw : BuiltFrom w o b)
    (hi : s.inputs = startInput w :: rest) (hf : s.faultMark = none) (hb : s.busy = false) :
    Host.Core.run core (n + 1) s = Host.Core.run core n (startWrites o b (s.takeHost rest)) :=
  run_next (step_start hw hi hf hb)

/-- A step of a run in which CORE makes a micro-step. -/
theorem run_micro {a : Answer} {o : HostOp} {rule : Micro} (hr : prog o s.stepIx.toNat = some rule)
    (hi : s.inputs = .answer a :: rest) (hf : s.faultMark = none) (hb : s.busy = true) (ho : s.op = some o) :
    Host.Core.run core (n + 1) s = Host.Core.run core n (rule a (s.takeHost rest)) :=
  run_next (step_micro hi hf hb ho hr)

/-! ## Measurements -/

theorem startWrites_measOp (k : MeasKind) (b : Byte) : startWrites (measOp k) b = State.begin (measOp k) none := by
  cases k <;> rfl

/-- A measurement runs from its word to its value. -/
theorem run_measurement {k : MeasKind} {w : BitVec 16} {b b0 b1 b2 : Byte} {v : FBits} (hw : BuiltFrom w (measOp k) b)
    (hv : convert k s.params.numEval b0 b1 b2 = some v) (hf : s.faultMark = none) (hb : s.busy = false)
    (hi : s.inputs = startInput w :: .answer .ok :: .answer .delayed :: .answer (.bytes [b0, b1, b2]) :: rest) :
    Host.Core.run core 4 s = .next { s with
      op := none, stepIx := 0#5, busy := false, done := true, resErr := some .noneErr, resVal := some v,
      resUreg := none, wpayload := none, inputs := rest, xans := none,
      hist := s.hist ++ [.tx (buildRequest s.params (measCommand k)) [] .ok, .dly (settleMs k),
        .rx 0x40#7 3 (.bytes [b0, b1, b2])] } := by
  obtain ⟨transmits, waits, receives⟩ := prog_measOp k
  rw [List.append_cons, List.append_cons]
  calc Host.Core.run core 4 s
    _ = Host.Core.run core 3 (State.begin (measOp k) none (s.takeHost _)) := by
      rw [run_start hw hi hf hb, startWrites_measOp]
    _ = Host.Core.run core 2 _ := run_micro (a := .ok) transmits rfl hf rfl rfl
    _ = Host.Core.run core 1 _ := run_micro (a := .delayed) waits rfl hf rfl rfl
    _ = Host.Core.run core 0 _ := run_micro (a := .bytes [b0, b1, b2]) receives rfl hf rfl rfl
    _ = .next _ := congrArg Host.Outcome.next (measRx_converted ?_)
  exact hv

/-- Settles O27: both words run the one measurement sequence, each with its converter. -/
theorem measurementsRunToTheirValue : Obligations.MeasurementsRunToTheirValue := by
  intro s b0 b1 b2 rest hf hb hc
  exact ⟨run_measurement (k := .temp) (b := 0#8) ⟨.inr rfl, rfl⟩ (convert_temp_of_crc _ hc) hf hb,
    run_measurement (k := .hum) (b := 0#8) ⟨.inr rfl, rfl⟩ (convert_hum_of_crc _ hc) hf hb⟩

/-! ## Register operations -/

theorem run_readUreg {b : Byte} (hf : s.faultMark = none) (hb : s.busy = false)
    (hi : s.inputs = startInput 0x3000#16 :: .answer .ok :: .answer (.bytes [b]) :: rest) :
    Host.Core.run core 3 s = .next { s with
      op := none, stepIx := 0#5, busy := false, done := true, resErr := some .noneErr, resVal := none,
      resUreg := some b, wpayload := none, inputs := rest, xans := none,
      hist := s.hist ++ [.tx (buildRequest s.params .readUreg) [] .ok, .rx 0x40#7 1 (.bytes [b])] } := by
  have hw : BuiltFrom 0x3000#16 .readUreg 0#8 := ⟨.inr rfl, rfl⟩
  rw [List.append_cons]
  calc Host.Core.run core 3 s
    _ = Host.Core.run core 2 _ := run_start hw hi hf hb
    _ = Host.Core.run core 1 _ := run_micro (a := .ok) rfl rfl hf rfl rfl
    _ = Host.Core.run core 0 _ := run_micro (a := .bytes [b]) rfl rfl hf rfl rfl

theorem run_writeUreg {b : Byte} (hf : s.faultMark = none) (hb : s.busy = false)
    (hi : s.inputs = startInput (0x40#8 ++ b) :: .answer .ok :: rest) :
    Host.Core.run core 2 s = .next { s with
      op := none, stepIx := 0#5, busy := false, done := true, resErr := some .noneErr, resVal := none,
      resUreg := none, wpayload := some b, inputs := rest, xans := none,
      hist := s.hist ++ [.tx (buildRequest s.params .writeUreg) [b] .ok] } :=
  have hw : BuiltFrom (0x40#8 ++ b) .writeUreg b := ⟨.inl rfl, (opWordOf_writeUreg b).symm⟩
  calc Host.Core.run core 2 s
    _ = Host.Core.run core 1 _ := run_start hw hi hf hb
    _ = Host.Core.run core 0 _ := run_micro (a := .ok) rfl rfl hf rfl rfl

theorem run_softReset (hf : s.faultMark = none) (hb : s.busy = false)
    (hi : s.inputs = startInput 0x5000#16 :: .answer .ok :: rest) :
    Host.Core.run core 2 s = .next { s with
      op := none, stepIx := 0#5, busy := false, done := true, resErr := some .noneErr, resVal := none,
      resUreg := none, wpayload := none, inputs := rest, xans := none,
      hist := s.hist ++ [.tx (buildRequest s.params .softReset) [] .ok] } :=
  have hw : BuiltFrom 0x5000#16 .softReset 0#8 := ⟨.inr rfl, rfl⟩
  calc Host.Core.run core 2 s
    _ = Host.Core.run core 1 _ := run_start hw hi hf hb
    _ = Host.Core.run core 0 _ := run_micro (a := .ok) rfl rfl hf rfl rfl

/-- Settles O28: each operation's run, from its word on. -/
theorem registerOperationsRunToTheirEnd : Obligations.RegisterOperationsRunToTheirEnd := fun _ _ _ hf hb =>
  ⟨run_readUreg hf hb, run_writeUreg hf hb, run_softReset hf hb⟩

end Sys2Proof.Machine
end

section
/-! What a step runs (43_orchestrator.md R221, R223; 30_encoding.md R105, R109, R118), what the host reads (10_state.md
R59; 43_orchestrator.md R241) and what joins the history (43_orchestrator.md R221). -/

namespace Sys2Proof.Machine

variable {s s' t : State} {rest : List Input}

/-! ## The decoded instruction -/

/-- An answer of XPORT goes to the instruction of the running operation. -/
theorem step_answer {a : Answer} {o : HostOp} (hi : s.inputs = .answer a :: rest) (ho : s.op = some o) :
    step s = exec (instrOfHostOp o (s.wpayload.getD 0#8)) (s.takeAnswer a rest) := by
  simp [step, hi, runningInstr, ho]

/-- A step in which the host drives bits runs what the decoder reads. -/
theorem step_drive_decoded {w : PortWord} {d : Decoded} (hi : s.inputs = .drive w :: rest)
    (hd : decode s.params w = d) : step s = runDecoded d (s.takeHost rest) := hd ▸ step_drive hi

/-- Settles O41: a step at a port runs what the decoder answers, and one with an answer the running instruction. -/
theorem stepRunsTheDecodedInstruction : Obligations.StepRunsTheDecodedInstruction :=
  ⟨fun _ _ _ _ hi hd => step_drive_decoded hi hd, fun _ _ _ _ hi ho => step_answer hi ho, fun _ _ _ hi =>
    ⟨fun hd => step_drive_decoded hi hd, fun hd => step_drive_decoded hi hd, fun hd => step_drive_decoded hi hd⟩⟩

/-! ## The host's reads -/

theorem step_read {p : OutPort} (hi : s.inputs = .read p :: rest) :
    step s = .next (readPort p (s.takeHost rest)) := by
  simp [step, hi]

/-- The port of the result register `r` shows its value while the core is idle; while an operation runs, and where the
register is unwritten, the read faults (R241). -/
theorem step_read_register {α : Type} {p : OutPort} {r : Option α} {k : α → State}
    (hi : s.inputs = .read p :: rest) (hp : readPort p (s.takeHost rest) =
      readReg ((s.takeHost rest).visible r) k (s.takeHost rest)) :
    (∀ v, s.busy = false → r = some v → step s = .next (k v)) ∧
    (s.busy = true ∨ r = none → step s = .next ((s.takeHost rest).setFault .readUnwritten)) := by
  rw [step_read hi, hp]
  refine ⟨fun v hb hr => ?_, ?_⟩
  · simp [State.visible, hb, hr]
  · rintro (hb | hr)
    · simp [State.visible, hb]
    · simp [State.visible, hr]

/-- Settles O39: `busy` and `done` are shown as they are, and each result register as its port shows it. -/
theorem hostReadsOfResultPorts : Obligations.HostReadsOfResultPorts := fun _ _ =>
  ⟨fun hi => step_read hi, fun hi => step_read hi, fun hi => step_read_register hi rfl,
    fun hi => step_read_register hi rfl, fun hi => step_read_register hi rfl⟩

/-! ## The history -/

theorem startWrites_hist (o : HostOp) (p : Byte) (s : State) : (startWrites o p s).hist = s.hist := by
  cases o <;> rfl

/-- An act of the host adds nothing to the history, or is `rst` and adds `RST`. -/
theorem HostEffect.hist {i : Input} (h : HostEffect i s t) :
    t.hist = s.hist ∨ i = .rst ∧ t.hist = s.hist ++ [.rst] := by
  cases h with
  | shows | faults | refuses => exact .inl rfl
  | starts o p => exact .inl (startWrites_hist o p s)
  | resets hi => exact .inr ⟨hi, rfl⟩
  | writes p => exact .inl (pseudoWrite_elim (P := fun t => t.hist = s.hist) (fun _ _ => rfl) (fun _ => rfl))

/-- A step adds at most one event. -/
theorem step_hist_grows (h : step s = .next s') : ∃ ev, s'.hist = s.hist ++ ev ∧ ev.length ≤ 1 := by
  have none_added {t : State} (ht : t.hist = s.hist) : ∃ ev, t.hist = s.hist ++ ev ∧ ev.length ≤ 1 :=
    ⟨[], by simpa using ht, Nat.zero_le 1⟩
  cases step_effect h with
  | idle | unasked => exact none_added rfl
  | host _ rest _ _ _ e =>
    obtain he | ⟨-, he⟩ := e.hist
    · exact none_added he
    · exact ⟨_, he, le_rfl⟩
  | micro a rest _ _ _ o _ rule hr =>
    exact ⟨_, (micro_keeps hr a (s.takeHost rest)).hist, Option.length_toList_le⟩

/-- Only a payload that is not written leaves a micro-step without its call. -/
theorem exists_microEvent {o : HostOp} {n : Nat} (hn : n < progLen (some o)) (hw : ¬ ReadsUnwritten o n s)
    (a : Answer) : ∃ e, microEvent o n a s = some e := by
  have called {r : Option Byte} (f : Byte → Event) (hr : r ≠ none) : ∃ e, r.map f = some e := by
    obtain ⟨p, rfl⟩ := Option.ne_none_iff_exists'.1 hr
    exact ⟨f p, rfl⟩
  unfold microEvent
  split
  -- the writes of the user register: WRITE_UREG's own, the heater write, the cleanup write
  case h_9 => exact called _ fun h => hw (.inl ⟨rfl, h⟩)
  case h_19 => exact called _ fun h => hw (.inr ⟨rfl, .inl ⟨.inl rfl, h⟩⟩)
  case h_29 => exact called _ fun h => hw (.inr ⟨rfl, .inl ⟨.inr rfl, h⟩⟩)
  -- no entry of the tables has the index `n`, which is below the length of the micro-program
  case h_30 => cases o <;> grind [progLen]
  -- every other call needs no register
  all_goals exact ⟨_, rfl⟩

/-- Under the invariant a step of CORE adds its one call. -/
theorem Inv.step_answer_hist {a : Answer} (h : Inv s) (hb : s.busy = true) (hi : s.inputs = .answer a :: rest)
    (hs : step s = .next s') : ∃ e, s'.hist = s.hist ++ [e] := by
  obtain ⟨o, ho⟩ := Option.isSome_iff_exists.1 (h.op ▸ hb)
  have hn : s.stepIx.toNat < progLen (some o) := ho ▸ h.stepIx
  obtain ⟨hf, -⟩ := step_answer_effect hi hs
  obtain ⟨rule, hr⟩ := exists_micro hn
  obtain ⟨e, he⟩ := exists_microEvent hn ((h.takeHost rest).reads_written ho) a
  rw [step_micro hi hf hb ho hr] at hs
  cases hs
  have hist := (micro_keeps hr a (s.takeHost rest)).hist
  rw [he] at hist
  exact ⟨e, hist⟩

/-- An act of the host other than `rst` adds nothing. -/
theorem step_host_hist (ha : ∀ a rest, s.inputs ≠ .answer a :: rest) (hrst : ∀ rest, s.inputs ≠ .rst :: rest)
    (h : step s = .next s') : s'.hist = s.hist := by
  cases step_effect h with
  | idle => rfl
  | host i rest hi _ _ e => exact e.hist.resolve_right fun ⟨hr, _⟩ => hrst rest (hr ▸ hi)
  | unasked a rest hi => exact absurd hi (ha a rest)
  | micro a rest hi => exact absurd hi (ha a rest)

/-- Settles O54: the host's acts add `RST` alone, and a micro-step its one call. -/
theorem historyOnlyGrows : Obligations.HistoryOnlyGrows := fun _ _ h =>
  ⟨step_hist_grows h, fun hinv hb _ _ hi => hinv.step_answer_hist hb hi h, fun ha hrst => step_host_hist ha hrst h⟩

end Sys2Proof.Machine
end

section
/-! SELF_TEST micro-step by micro-step (44_self_test.md R261 to R274): the judge, the rule for each answer, the abort,
the cleanup and what the transport history says of the heater. -/

namespace Sys2Proof.Machine

variable {s s' : State} {n : BitVec 5} {a : Answer} {k : MeasKind} {b0 b1 b2 : Byte} {e : TransportError}
  {err : ErrorKind} {ev : Event}

/-! ## The judge -/

/-- A NaN threshold fails its comparison, and with it the verdict (R266). -/
theorem judge_of_nan_threshold {p : Params} (t0 h0 t1 h1 : FBits)
    (h : unpack p.fmt p.tempThr = .nan ∨ unpack p.fmt p.humThr = .nan) : judge p t0 h0 t1 h1 = false := by
  unfold judge
  obtain h | h := h
  · rw [fgt_nan_right _ h, Bool.false_and]
  · rw [fgt_nan_right _ h, Bool.and_false]

/-- Settles O19: the port shows the judge's two comparisons, each false beside a NaN. -/
theorem judgeComparesBothDeltas : Obligations.JudgeComparesBothDeltas := fun t0 h0 t1 h1 _ =>
  ⟨rfl, judge_of_nan_threshold t0 h0 t1 h1⟩

/-! ## The answer `Ok` -/

/-- A measurement's receive with a valid checksum goes on with the converted value. -/
theorem exec_measRx_value {o : HostOp} {v : FBits} {kVal : FBits → State → State} {kErr : ErrorKind → State → State}
    (h : AtMicroStep o n (.bytes [b0, b1, b2]) s) (hr : prog o n.toNat = some fun a => measRx k a kVal kErr)
    (hv : convert k s.params.numEval b0 b1 b2 = some v) (b : Byte) :
    exec (instrOfHostOp o b) s = .next (kVal v (AfterCall (.rx 0x40#7 3 (.bytes [b0, b1, b2])) s)) :=
  (exec_micro h hr b).trans (congrArg Host.Outcome.next (measRx_converted (s := s.clearAnswer) hv))

theorem readReg_eq_of_some {α : Type} {r : Option α} {v : α} {k : α → State} (h : r = some v) :
    readReg r k s = k v := by
  rw [h, readReg_some]

/-- A user-register write of SELF_TEST sends its payload computed from `UREG_BASE`. -/
theorem exec_selfTest_write {u : Byte} {w : Byte → Byte} {kOk : State → State} {kErr : ErrorKind → State → State}
    (h : AtMicroStep .selfTest n a s)
    (hr : prog .selfTest n.toNat = some fun a s => readReg s.uregBase (fun u => uwrite (w u) a kOk kErr s) s)
    (hu : s.uregBase = some u) : exec .selfTest s = .next (uwrite (w u) a kOk kErr s.clearAnswer) :=
  (exec_micro h hr 0).trans (congrArg Host.Outcome.next (readReg_eq_of_some hu))

/-- The verdict is the judge's on the three readings kept and the last one (R266, R267). -/
theorem storeHAfter_of_readings {v t0 h0 t1 : FBits} (ht : s.tStart = some t0) (hh : s.hStart = some h0)
    (ht' : s.tAfter = some t1) :
    storeHAfter v s = takeVerdict (judge s.params t0 h0 t1 v) { s with hAfter := some v } := by
  simp only [storeHAfter, ht, hh, ht', readReg_some]

/-- Settles O29: each call goes on to the next micro-step, and each reading and the byte to its register. -/
theorem selfTestBaselineAndHeaterOn : Obligations.SelfTestBaselineAndHeaterOn := by
  intro s a b0 b1 b2 u
  refine ⟨?_, ?_, ?_, ?_, ?_, ?_, ?_, ?_, ?_, ?_⟩ <;> rintro h rfl
  · exact exec_micro h rfl 0
  · exact exec_micro h rfl 0
  · exact fun hc => exec_measRx_value h rfl (convert_temp_of_crc _ hc) 0
  · exact exec_micro h rfl 0
  · exact exec_micro h rfl 0
  · exact fun hc => exec_measRx_value h rfl (convert_hum_of_crc _ hc) 0
  · exact exec_micro h rfl 0
  · exact exec_micro h rfl 0
  · exact fun hu => exec_selfTest_write h rfl hu
  · exact exec_micro h rfl 0

/-- Settles O30: as in Baseline, and the last reading gives the verdict. -/
theorem selfTestRecheckAndVerdict : Obligations.SelfTestRecheckAndVerdict := by
  intro s a b0 b1 b2 t0 h0 t1
  refine ⟨?_, ?_, ?_, ?_, ?_, ?_⟩ <;> rintro h rfl
  · exact exec_micro h rfl 0
  · exact exec_micro h rfl 0
  · exact fun hc => exec_measRx_value h rfl (convert_temp_of_crc _ hc) 0
  · exact exec_micro h rfl 0
  · exact exec_micro h rfl 0
  · exact fun hc ht hh ht' => (exec_measRx_value h rfl (convert_hum_of_crc _ hc) 0).trans
      (congrArg Host.Outcome.next (storeHAfter_of_readings ht hh ht'))

/-- Settles O31: the byte is read anew, and the cleanup write ends the operation with `PEND_ERR`. -/
theorem selfTestCleanup : Obligations.SelfTestCleanup := by
  intro s a u e
  refine ⟨?_, ?_, ?_⟩ <;> rintro h rfl
  · exact exec_micro h rfl 0
  · exact exec_micro h rfl 0
  · exact fun hu hp => (exec_selfTest_write h rfl hu).trans (congrArg Host.Outcome.next (readReg_eq_of_some hp))

/-! ## Errors -/

/-- The rule for `Err` at micro-step `n`: an abort before cleanup (R270), a cleanup error in it (R271). -/
def selfTestErr (n : Nat) : ErrorKind → State → State := if n ≤ 15 then abort else cleanupErr

/-- A failed Transmit or Receive of SELF_TEST is answered by the micro-step's rule for `Err`. -/
theorem selfTest_err {n : Nat} {rule : Micro} (hr : progSelfTest n = some rule) (he : e.kind = some err)
    (hev : microEvent .selfTest n (.err e) s = some ev) (hd : ∀ ms, ev ≠ .dly ms) :
    rule (.err e) s = selfTestErr n err (s.record ev) := by
  match n, hr with
  | 0, rfl | 3, rfl | 6, rfl | 10, rfl | 13, rfl | 16, rfl =>
    cases hev
    simp only [measTx, ureadTx, txCommand, transmit_err he]
    rfl
  | 2, rfl | 5, rfl | 7, rfl | 12, rfl | 15, rfl | 17, rfl =>
    cases hev
    exact receive_err he
  | 8, rfl | 18, rfl =>
    obtain ⟨u, hu, rfl⟩ := Option.map_eq_some_iff.1 hev
    simp only [hu, readReg_some]
    exact transmit_err he
  | 1, rfl | 4, rfl | 9, rfl | 11, rfl | 14, rfl =>
    cases hev
    exact absurd rfl (hd _)

theorem exec_selfTest_err (h : AtMicroStep .selfTest n (.err e) s) (hn : n.toNat < 19) (he : e.kind = some err)
    (hev : microEvent .selfTest n.toNat (.err e) s = some ev) (hd : ∀ ms, ev ≠ .dly ms) :
    exec .selfTest s = .next (selfTestErr n.toNat err (AfterCall ev s)) := by
  obtain ⟨rule, hr⟩ := exists_micro (o := .selfTest) hn
  exact (exec_micro h hr 0).trans (congrArg Host.Outcome.next (selfTest_err (s := s.clearAnswer) hr he hev hd))

/-- `abort` after a call: to cleanup from micro-step 8 on where `CLEANUP_ON_ABORT` holds, else to the end. -/
theorem abort_afterCall {o : HostOp} (h : AtMicroStep o n a s) : Host.Outcome.next (abort err (AfterCall ev s)) =
    if s.params.cleanupOnAbort = true ∧ 8 ≤ n.toNat then
      (.next { AfterCall ev s with pendErr := some err, stepIx := 16#5 } : Outcome)
    else .next ((AfterCall ev s).finish err) := by
  obtain ⟨-, -, -, rfl, -⟩ := h
  exact apply_ite Host.Outcome.next ..

/-- The receives of SELF_TEST that convert a reading. -/
theorem selfTest_converts (hn : n ∈ [2#5, 5#5, 12#5, 15#5]) :
    ∃ k kVal, prog .selfTest n.toNat = some fun a => measRx k a kVal abort := by
  simp only [List.mem_cons, List.not_mem_nil, or_false] at hn
  obtain rfl | rfl | rfl | rfl := hn <;> exact ⟨_, _, rfl⟩

/-- A reading with a wrong checksum aborts SELF_TEST (R270). -/
theorem exec_selfTest_mismatch (h : AtMicroStep .selfTest n (.bytes [b0, b1, b2]) s) (hn : n ∈ [2#5, 5#5, 12#5, 15#5])
    (hc : crc8 [b0, b1] ≠ b2) :
    exec .selfTest s = .next (abort .checksumMismatch (AfterCall (.rx 0x40#7 3 (.bytes [b0, b1, b2])) s)) := by
  obtain ⟨k, kVal, hr⟩ := selfTest_converts hn
  exact (exec_micro h hr 0).trans
    (congrArg Host.Outcome.next (measRx_mismatch (s := s.clearAnswer) (convert_eq_none k _ hc)))

/-- Settles O32: the rule for `Err` and for a checksum mismatch at these micro-steps is `abort`. -/
theorem selfTestAborts : Obligations.SelfTestAborts := by
  rintro s n a k ev u b0 b1 b2 h (⟨herr, hcall⟩ | ⟨rfl, hc, rfl, hn, rfl⟩)
  · obtain ⟨e, rfl, he⟩ : ∃ e, a = .err e ∧ e.kind = some k := by
      obtain ⟨rfl, rfl⟩ | ⟨rfl, rfl⟩ := herr <;> exact ⟨_, rfl, rfl⟩
    obtain ⟨hn, hev, hd⟩ : n.toNat ≤ 15 ∧ microEvent .selfTest n.toNat (.err e) s = some ev ∧ ∀ ms, ev ≠ .dly ms := by
      obtain hcall | ⟨rfl, hu, rfl⟩ := hcall
      · simp only [List.mem_cons, Prod.mk.injEq, List.not_mem_nil, or_false] at hcall
        obtain ⟨rfl, rfl⟩ | ⟨rfl, rfl⟩ | ⟨rfl, rfl⟩ | ⟨rfl, rfl⟩ | ⟨rfl, rfl⟩ | ⟨rfl, rfl⟩ | ⟨rfl, rfl⟩ |
          ⟨rfl, rfl⟩ | ⟨rfl, rfl⟩ | ⟨rfl, rfl⟩ := hcall <;> exact ⟨by decide, rfl, nofun⟩
      · exact ⟨by decide, by simp [microEvent, hu, setHeater], nofun⟩
    rw [exec_selfTest_err h (by omega) he hev hd, selfTestErr, if_pos hn]
    exact abort_afterCall h
  · exact (exec_selfTest_mismatch h hn hc).trans (abort_afterCall h)

/-- With an error pending, a cleanup error ends the operation: with itself only where it is reported and the pending one
is `NONE_ERR`. -/
theorem cleanupErr_of_pending {p : ErrorKind} (hp : s.pendErr = some p) : cleanupErr err s =
    s.finish (if s.params.cleanupErrorReported = true ∧ p = .noneErr then err else p) :=
  (readReg_eq_of_some hp).trans (apply_ite s.finish ..).symm

/-- Settles O33: the rule for `Err` in cleanup is `cleanupErr`. -/
theorem selfTestCleanupErrors : Obligations.SelfTestCleanupErrors := by
  intro s n e k p ev u h herr hp hcall
  have he : e.kind = some k := by obtain ⟨rfl, rfl⟩ | ⟨rfl, rfl⟩ := herr <;> rfl
  obtain ⟨hn, hn', hev, hd⟩ : n.toNat < 19 ∧ ¬ n.toNat ≤ 15 ∧
      microEvent .selfTest n.toNat (.err e) s = some ev ∧ ∀ ms, ev ≠ .dly ms := by
    obtain ⟨rfl, rfl⟩ | ⟨rfl, rfl⟩ | ⟨rfl, hu, rfl⟩ := hcall
    · exact ⟨by decide, by decide, rfl, nofun⟩
    · exact ⟨by decide, by decide, rfl, nofun⟩
    · exact ⟨by decide, by decide, by simp [microEvent, hu, clearHeater], nofun⟩
  rw [exec_selfTest_err h hn he hev hd, selfTestErr, if_neg hn',
    cleanupErr_of_pending (s := AfterCall ev s) hp]

/-! ## The heater observation -/

theorem frameDir_buildRequest (p : Params) (c : Command) : frameDir (buildRequest p c) = dirBit c := by
  rw [frameDir, buildRequest, frameWord, BitVec.extractLsb'_append_eq_of_le (by decide)]
  exact BitVec.extractLsb'_append_eq_right

/-- `DIR` tells the user-register write from every other command, whatever the codes. -/
theorem buildRequest_ne_writeUreg {c : Command} (hc : c ≠ .writeUreg) (p : Params) :
    buildRequest p c ≠ buildRequest p .writeUreg := by
  intro h
  have hdir := congrArg frameDir h
  rw [frameDir_buildRequest, frameDir_buildRequest] at hdir
  cases c with
  | writeUreg => exact hc rfl
  | _ => cases hdir

section
variable (p : Params) (known : Option Bool)

theorem heaterAfter_command {c : Command} (hc : c ≠ .writeUreg) (l : List Byte) (a : Answer) :
    heaterAfter p known (.tx (buildRequest p c) l a) = known := if_neg (buildRequest_ne_writeUreg hc p)

theorem heaterAfter_write_ok (b : Byte) :
    heaterAfter p known (.tx (buildRequest p .writeUreg) [b] .ok) = some (b.getLsbD 2) := if_pos rfl

theorem heaterAfter_write_failed (b : Byte) (ha : a ≠ .ok) :
    heaterAfter p known (.tx (buildRequest p .writeUreg) [b] a) = none := by
  cases a with
  | ok => exact absurd rfl ha
  | _ => exact if_pos rfl

theorem heaterObserved_concat (hist : List Event) (ev : Event) :
    heaterObserved p (hist ++ [ev]) = heaterAfter p (heaterObserved p hist) ev := by simp [heaterObserved]

end

/-- A call of SELF_TEST other than the heater write and the cleanup write says nothing of the heater. -/
theorem heaterAfter_selfTest_other {n : Nat} (hn : n ≠ 8) (hn' : n ≠ 18)
    (h : microEvent .selfTest n a s = some ev) (known : Option Bool) : heaterAfter s.params known ev = known := by
  unfold microEvent at h
  split at h
  case h_19 => exact absurd rfl hn
  case h_29 => exact absurd rfl hn'
  -- the commands without a payload
  case h_1 | h_4 | h_7 | h_10 | h_11 | h_14 | h_17 | h_21 | h_24 | h_27 =>
    cases h
    exact heaterAfter_command s.params known (by decide) [] a
  case h_9 heq => cases heq
  case h_30 => cases h
  -- the delays and the receives
  all_goals
    cases h
    rfl

/-- A micro-step adds its call to the history. -/
theorem exec_micro_hist {o : HostOp} (h : AtMicroStep o n a s) {b : Byte}
    (hs : exec (instrOfHostOp o b) s = .next s') : s'.hist = s.hist ++ (microEvent o n.toNat a s).toList := by
  cases hr : prog o n.toNat with
  | none =>
    obtain ⟨hf, hb, ho, hn, hx⟩ := h
    simp [exec_hostOp, hostOperation, runMicro, hx, hf, hb, ho, hn, hr] at hs
  | some rule =>
    rw [exec_micro h hr] at hs
    cases hs
    exact (micro_keeps hr a s.clearAnswer).hist

/-- A user-register write whose payload is `w` of `UREG_BASE` shows bit 2 of that payload if it answers `Ok`, and leaves
the heater unknown if not (R274). -/
theorem heaterObserved_write {u : Byte} {w : Byte → Byte} (h : AtMicroStep .selfTest n a s)
    (hs : exec .selfTest s = .next s') (hu : s.uregBase = some u)
    (hev : microEvent .selfTest n.toNat a s = s.uregBase.map fun u => .tx (buildRequest s.params .writeUreg) [w u] a) :
    (a = .ok → heaterObserved s.params s'.hist = some ((w u).getLsbD 2)) ∧
    (a ≠ .ok → heaterObserved s.params s'.hist = none) := by
  rw [exec_micro_hist h (b := 0) hs, hev, hu, Option.map_some, Option.toList_some, heaterObserved_concat]
  refine ⟨?_, fun ha => heaterAfter_write_failed _ _ _ ha⟩
  rintro rfl
  exact heaterAfter_write_ok ..

/-- Settles O36: the heater write sends bit 2 set, the cleanup write bit 2 clear, and no other call is a write. -/
theorem selfTestHeaterObservation : Obligations.SelfTestHeaterObservation := by
  intro s s' n a h hs
  refine ⟨fun h8 h18 => ?_, ?_, ?_, ?_⟩
  · have hne {m : BitVec 5} (hm : n ≠ m) : n.toNat ≠ m.toNat := fun e => hm (BitVec.eq_of_toNat_eq e)
    rw [exec_micro_hist h (b := 0) hs]
    cases hev : microEvent .selfTest n.toNat a s with
    | none => rw [Option.toList_none, List.append_nil]
    | some ev =>
      rw [Option.toList_some, heaterObserved_concat]
      exact heaterAfter_selfTest_other (hne h8) (hne h18) hev _
  · rintro rfl ha hu
    obtain ⟨u, hu⟩ := Option.isSome_iff_exists.1 hu
    obtain ⟨hok, -⟩ := heaterObserved_write h hs hu rfl
    rw [hok ha, getLsbD_setHeater, decide_eq_true rfl, Bool.true_or]
  · rintro rfl ha hu
    obtain ⟨u, hu⟩ := Option.isSome_iff_exists.1 hu
    obtain ⟨hok, -⟩ := heaterObserved_write h hs hu rfl
    rw [hok ha, getLsbD_clearHeater, decide_eq_false (not_not_intro rfl), Bool.false_and]
  · rintro hn ha hu
    obtain ⟨u, hu⟩ := Option.isSome_iff_exists.1 hu
    obtain rfl | rfl := hn <;> exact (heaterObserved_write h hs hu rfl).2 ha

end Sys2Proof.Machine
end

section
/-! A whole SELF_TEST (44_self_test.md R261 to R269, R273), source state by source state (R272): each runs from its first
micro-step to the first one of the next. -/

namespace Sys2Proof.Machine

variable {s : State} {rest : List Input} {n : BitVec 5} {m : Nat} {b0 b1 b2 c0 c1 c2 u : Byte} {t h : FBits}

/-! ## Calls -/

/-- SELF_TEST runs and is at micro-step `n`, and no fault stands. -/
structure SelfTestAt (n : BitVec 5) (s : State) : Prop where
  noFault : s.faultMark = none
  busy : s.busy = true
  op : s.op = some .selfTest
  stepIx : s.stepIx = n

/-- The state at micro-step `n` once `calls` have joined the history, with the inputs `rest` still to come. -/
abbrev State.afterCalls (calls : List Event) (rest : List Input) (n : BitVec 5) (s : State) : State :=
  { s with stepIx := n, inputs := rest, xans := none, hist := s.hist ++ calls }

/-- The calls of a measurement whose reading is `[b0, b1, b2]` (R226). -/
abbrev measCalls (p : Params) (k : MeasKind) (b0 b1 b2 : Byte) : List Event :=
  [.tx (buildRequest p (measCommand k)) [] .ok, .dly (settleMs k), .rx 0x40#7 3 (.bytes [b0, b1, b2])]

/-- The calls that read the user register's byte `u` and write `w` (R226). -/
abbrev rewriteCalls (p : Params) (u w : Byte) : List Event :=
  [.tx (buildRequest p .readUreg) [] .ok, .rx 0x40#7 1 (.bytes [u]), .tx (buildRequest p .writeUreg) [w] .ok]

namespace SelfTestAt

/-- What SELF_TEST writes on its way leaves it running. -/
theorem next {i : BitVec 5} {t : State} (at_n : SelfTestAt n s) (hf : t.faultMark = s.faultMark)
    (hb : t.busy = s.busy) (ho : t.op = s.op) (hi : t.stepIx = i) : SelfTestAt i t :=
  ⟨hf.trans at_n.noFault, hb.trans at_n.busy, ho.trans at_n.op, hi⟩

/-- A step of a run in which SELF_TEST makes a micro-step. -/
theorem run {a : Answer} {rule : Micro} (at_n : SelfTestAt n s) (hr : prog .selfTest n.toNat = some rule)
    (hi : s.inputs = .answer a :: rest) :
    Host.Core.run core (m + 1) s = Host.Core.run core m (rule a (s.takeHost rest)) := by
  obtain ⟨hf, hb, ho, rfl⟩ := at_n
  exact run_micro hr hi hf hb ho

/-- A measurement's three calls, from the transmit to the converted value. -/
theorem run_measures {k : MeasKind} {i j : BitVec 5} {v : FBits} {kVal : FBits → State → State}
    (at_n : SelfTestAt n s) (transmits : prog .selfTest n.toNat = some fun a => measTx k a i abort)
    (waits : prog .selfTest i.toNat = some fun a => measDelay k a j)
    (receives : prog .selfTest j.toNat = some fun a => measRx k a kVal abort)
    (hv : convert k s.params.numEval b0 b1 b2 = some v)
    (hi : s.inputs = .answer .ok :: .answer .delayed :: .answer (.bytes [b0, b1, b2]) :: rest) :
    Host.Core.run core (m + 3) s =
      Host.Core.run core m (kVal v (s.afterCalls (measCalls s.params k b0 b1 b2) rest j)) := by
  rw [State.afterCalls, List.append_cons, List.append_cons]
  calc Host.Core.run core (m + 3) s
    _ = Host.Core.run core (m + 2) _ := at_n.run (a := .ok) transmits hi
    _ = Host.Core.run core (m + 1) _ := run (n := i) (a := .delayed) (at_n.next rfl rfl rfl rfl) waits rfl
    _ = Host.Core.run core m _ :=
      run (n := j) (a := .bytes [b0, b1, b2]) (at_n.next rfl rfl rfl rfl) receives rfl
    _ = Host.Core.run core m _ := congrArg (Host.Core.run core m) (measRx_converted ?_)
  exact hv

/-! ## The source states -/

/-- Baseline: both readings are kept (R262). -/
theorem run_baseline (at0 : SelfTestAt 0#5 s) (ht : convert .temp s.params.numEval b0 b1 b2 = some t)
    (hh : convert .hum s.params.numEval c0 c1 c2 = some h)
    (hi : s.inputs = .answer .ok :: .answer .delayed :: .answer (.bytes [b0, b1, b2]) ::
      .answer .ok :: .answer .delayed :: .answer (.bytes [c0, c1, c2]) :: rest) :
    Host.Core.run core (m + 6) s = Host.Core.run core m
      { s.afterCalls (measCalls s.params .temp b0 b1 b2 ++ measCalls s.params .hum c0 c1 c2) rest 6#5 with
        tStart := some t, hStart := some h } := by
  rw [State.afterCalls, ← List.append_assoc]
  calc Host.Core.run core (m + 6) s
    _ = Host.Core.run core (m + 3) _ := at0.run_measures rfl rfl rfl ht hi
    _ = Host.Core.run core m _ := run_measures (n := 3#5) (at0.next rfl rfl rfl rfl) rfl rfl rfl hh rfl

/-- HeaterOn: the byte is read and sent back with bit 2 set (R263, R264). -/
theorem run_heaterOn (at6 : SelfTestAt 6#5 s)
    (hi : s.inputs = .answer .ok :: .answer (.bytes [u]) :: .answer .ok :: rest) :
    Host.Core.run core (m + 3) s = Host.Core.run core m
      { s.afterCalls (rewriteCalls s.params u (setHeater u)) rest 9#5 with uregBase := some u } := by
  rw [State.afterCalls, List.append_cons, List.append_cons]
  calc Host.Core.run core (m + 3) s
    _ = Host.Core.run core (m + 2) _ := at6.run (a := .ok) rfl hi
    _ = Host.Core.run core (m + 1) _ := run (n := 7#5) (a := .bytes [u]) (at6.next rfl rfl rfl rfl) rfl rfl
    _ = Host.Core.run core m _ := run (n := 8#5) (a := .ok) (at6.next rfl rfl rfl rfl) rfl rfl

/-- Settling: one delay (R265). -/
theorem run_settling (at9 : SelfTestAt 9#5 s) (hi : s.inputs = .answer .delayed :: rest) :
    Host.Core.run core (m + 1) s = Host.Core.run core m (s.afterCalls [.dly 10000] rest 10#5) :=
  at9.run (a := .delayed) rfl hi

/-- Recheck: both readings are kept, and the judge compares them with Baseline's (R266, R267). -/
theorem run_recheck {t0 h0 : FBits} (at10 : SelfTestAt 10#5 s) (ht0 : s.tStart = some t0) (hh0 : s.hStart = some h0)
    (ht : convert .temp s.params.numEval b0 b1 b2 = some t)
    (hh : convert .hum s.params.numEval c0 c1 c2 = some h)
    (hi : s.inputs = .answer .ok :: .answer .delayed :: .answer (.bytes [b0, b1, b2]) ::
      .answer .ok :: .answer .delayed :: .answer (.bytes [c0, c1, c2]) :: rest) :
    Host.Core.run core (m + 6) s = Host.Core.run core m (takeVerdict (judge s.params t0 h0 t h)
      { s.afterCalls (measCalls s.params .temp b0 b1 b2 ++ measCalls s.params .hum c0 c1 c2) rest 15#5 with
        tAfter := some t, hAfter := some h }) := by
  rw [State.afterCalls, ← List.append_assoc]
  calc Host.Core.run core (m + 6) s
    _ = Host.Core.run core (m + 3) _ := at10.run_measures rfl rfl rfl ht hi
    _ = Host.Core.run core m _ := run_measures (n := 13#5) (at10.next rfl rfl rfl rfl) rfl rfl rfl hh rfl
    _ = Host.Core.run core m _ := congrArg (Host.Core.run core m) (storeHAfter_of_readings ht0 hh0 rfl)

/-- The cleanup write ends the operation with the pending error (R269). -/
theorem run_cleanupWrite {e : ErrorKind} (at18 : SelfTestAt 18#5 s) (hu : s.uregBase = some u)
    (hp : s.pendErr = some e) (hi : s.inputs = .answer .ok :: rest) :
    Host.Core.run core (m + 1) s = Host.Core.run core m
      ((s.afterCalls [.tx (buildRequest s.params .writeUreg) [clearHeater u] .ok] rest 18#5).finish e) :=
  (at18.run rfl hi).trans
    (congrArg (Host.Core.run core m) ((readReg_eq_of_some hu).trans (readReg_eq_of_some hp)))

/-- Cleanup: the byte is read anew and sent back with bit 2 clear, and the operation ends with the pending error (R268,
R269). -/
theorem run_cleanup {e : ErrorKind} (at16 : SelfTestAt 16#5 s) (hp : s.pendErr = some e)
    (hi : s.inputs = .answer .ok :: .answer (.bytes [u]) :: .answer .ok :: rest) :
    Host.Core.run core (m + 3) s = Host.Core.run core m
      ({ s.afterCalls (rewriteCalls s.params u (clearHeater u)) rest 18#5 with uregBase := some u }.finish e) := by
  rw [State.afterCalls, List.append_cons, List.append_cons]
  calc Host.Core.run core (m + 3) s
    _ = Host.Core.run core (m + 2) _ := at16.run (a := .ok) rfl hi
    _ = Host.Core.run core (m + 1) _ := run (n := 17#5) (a := .bytes [u]) (at16.next rfl rfl rfl rfl) rfl rfl
    _ = Host.Core.run core m _ := run_cleanupWrite (at16.next rfl rfl rfl rfl) rfl hp rfl

end SelfTestAt

/-- Settles O34: the start, then the five source states in order. -/
theorem selfTestRunsToItsVerdict : Obligations.SelfTestRunsToItsVerdict := by
  intro s t00 t01 t02 h00 h01 h02 t10 t11 t12 h10 h11 h12 u v rest hf hb ht0 hh0 ht1 hh1 hi T H pass req
  have hw : BuiltFrom 0x6000#16 .selfTest 0#8 := ⟨.inr rfl, rfl⟩
  have running {i : BitVec 5} {t : State} (h1 : t.faultMark = s.faultMark) (h2 : t.busy = true)
    (h3 : t.op = some .selfTest) (h4 : t.stepIx = i) : SelfTestAt i t := ⟨h1.trans hf, h2, h3, h4⟩
  calc Host.Core.run core 20 s
    _ = Host.Core.run core 19 _ := run_start hw hi hf hb
    _ = Host.Core.run core 13 _ := SelfTestAt.run_baseline (running rfl rfl rfl rfl)
      (convert_temp_of_crc _ ht0) (convert_hum_of_crc _ hh0) rfl
    _ = Host.Core.run core 10 _ := SelfTestAt.run_heaterOn (running rfl rfl rfl rfl) rfl
    _ = Host.Core.run core 9 _ := SelfTestAt.run_settling (running rfl rfl rfl rfl) rfl
    _ = Host.Core.run core 3 _ := SelfTestAt.run_recheck (running rfl rfl rfl rfl) rfl rfl
      (convert_temp_of_crc _ ht1) (convert_hum_of_crc _ hh1) rfl
    _ = Host.Core.run core 0 _ := SelfTestAt.run_cleanup (running rfl rfl rfl rfl) rfl rfl
    _ = .next _ := by
      simp only [Host.Core.run, State.finish, takeVerdict, State.goto, startWrites, State.begin, State.clearScratch,
        State.takeHost, List.append_assoc]
      rfl

end Sys2Proof.Machine
end

section
/-! Faults (60_exceptions.md R310, R313, R314): a start while an operation runs, a receive of the wrong length, and an
answer outside the contract. -/

namespace Sys2Proof.Machine

variable {s t : State} {a : Answer} {ev : Event} {rest : List Input}

/-! ## A start while an operation runs -/

/-- Any word at the operation port is tested as a start; an illegal one would be refused (R223, R117). -/
theorem step_startInput {w : BitVec 16} (hi : s.inputs = startInput w :: rest) :
    ∃ wr, step s = startOp wr (s.takeHost rest) := by
  rw [step_drive hi]
  by_cases hw : IllegalWord w
  · rw [decode_illegalWord s.params hw]
    exact ⟨State.refuse .illegalOp, rfl⟩
  · obtain ⟨o, b, hv, rfl⟩ := exists_builtFrom hw
    rw [Laws.DecodeEncode.hostWord s.params o b hv, runDecoded, exec_hostOp]
    exact ⟨startWrites o b, rfl⟩

theorem startOp_of_busy {wr : State → State} (hf : s.faultMark = none) (hb : s.busy = true) :
    startOp wr s = .next (s.setFault .startWhileBusy) := by
  simp [startOp, hf, hb]

theorem startOp_of_fault {wr : State → State} {r : FaultReason} (hf : s.faultMark = some r) :
    startOp wr s = .fault (.halted r) := by
  simp [startOp, hf]

/-- Settles O21: `FAULT` and `BUSY` are tested before anything is made of the word. -/
theorem startWhileBusyFaults : Obligations.StartWhileBusyFaults := by
  intro s w rest hi
  obtain ⟨wr, h⟩ := step_startInput hi
  exact ⟨fun hf hb => h.trans (startOp_of_busy hf hb), fun r hf => h.trans (startOp_of_fault hf)⟩

/-! ## The call of a micro-step -/

/-- From `s`, with XPORT's answer `a`, the one call of event `ev` is made, and the result is its rule's (R221). -/
inductive CallResult (a : Answer) (s : State) : Event → State → Prop where
  | transmits (f : BitVec 16) (p : List Byte) (kOk : State → State) (kErr : ErrorKind → State → State) :
    CallResult a s (.tx f p a) (transmit f p a kOk kErr s)
  | receives (n : Nat) (kOk : List Byte → State → State) (kErr : ErrorKind → State → State) :
    CallResult a s (.rx Config.devAddr n a) (receive n a kOk kErr s)
  | waits (ms : Nat) (kOk : State → State) : CallResult a s (.dly ms) (delay ms a kOk s)

theorem callResult_selfTest {n : Nat} {rule : Micro} (hr : progSelfTest n = some rule)
    (hev : microEvent .selfTest n a s = some ev) : CallResult a s ev (rule a s) := by
  match n, hr with
  | 0, rfl | 3, rfl | 6, rfl | 10, rfl | 13, rfl | 16, rfl => cases hev; exact .transmits ..
  | 1, rfl | 4, rfl | 9, rfl | 11, rfl | 14, rfl => cases hev; exact .waits ..
  | 2, rfl | 5, rfl | 7, rfl | 12, rfl | 15, rfl | 17, rfl => cases hev; exact .receives ..
  | 8, rfl | 18, rfl =>
    obtain ⟨u, hu, rfl⟩ := Option.map_eq_some_iff.1 hev
    simp only [hu, readReg_some]
    exact .transmits ..

/-- A micro-step is the one call its table lists. -/
theorem micro_callResult {o : HostOp} {n : Nat} {rule : Micro} (hr : prog o n = some rule)
    (hev : microEvent o n a s = some ev) : CallResult a s ev (rule a s) := by
  match o, n, hr with
  | .readT, 0, rfl | .readRh, 0, rfl | .readUreg, 0, rfl | .softReset, 0, rfl => cases hev; exact .transmits ..
  | .readT, 1, rfl | .readRh, 1, rfl => cases hev; exact .waits ..
  | .readT, 2, rfl | .readRh, 2, rfl | .readUreg, 1, rfl => cases hev; exact .receives ..
  | .writeUreg, 0, rfl =>
    obtain ⟨p, hp, rfl⟩ := Option.map_eq_some_iff.1 hev
    simp only [hp, readReg_some]
    exact .transmits ..
  | .selfTest, n, hr => exact callResult_selfTest hr hev

/-! ## Answers that fault -/

/-- A receive that answers another count of bytes faults `SHORT_RX` (R78, R314). -/
theorem CallResult.shortRx {addr : BitVec 7} {n : Nat} {l : List Byte}
    (h : CallResult (.bytes l) s (.rx addr n (.bytes l)) t) (hl : l.length ≠ n) :
    t = (s.record (.rx addr n (.bytes l))).setFault .shortRx := by
  cases h
  exact if_neg hl

/-- An answer outside the contract faults `XPORT_CONTRACT` (R310). -/
theorem CallResult.xportContract (h : CallResult a s ev t) (ha : outsideContract ev a) :
    t = (s.record ev).setFault .xportContract := by
  cases h with
  | transmits => obtain ⟨n, rfl⟩ | rfl | ⟨l, rfl⟩ := ha <;> rfl
  | receives => obtain ⟨n, rfl⟩ | rfl | rfl := ha <;> rfl
  | waits =>
    cases a with
    | delayed =>
      obtain ⟨n, hn⟩ | hd := ha
      · cases hn
      · exact absurd rfl hd
    | ok | bytes | err => rfl

/-- A call of the tables belongs to a micro-step (R225, R261). -/
theorem exists_micro_of_event {o : HostOp} {n : Nat} (hev : microEvent o n a s = some ev) :
    ∃ rule, prog o n = some rule := by
  unfold microEvent at hev
  split at hev
  case h_30 => cases hev
  all_goals exact ⟨_, rfl⟩

/-- With XPORT's answer on the port, the running operation makes the call of its micro-step. -/
theorem exec_callResult {o : HostOp} {n : BitVec 5} (h : AtMicroStep o n a s)
    (hev : microEvent o n.toNat a s = some ev) (b : Byte) :
    ∃ t, exec (instrOfHostOp o b) s = .next t ∧ CallResult a s.clearAnswer ev t := by
  obtain ⟨rule, hr⟩ := exists_micro_of_event hev
  exact ⟨_, exec_micro h hr b, micro_callResult (s := s.clearAnswer) hr hev⟩

/-- The receives of the micro-programs, with the count of bytes each asks for (R225, R261). -/
theorem microEvent_receives {o : HostOp} {i : BitVec 5} {n : Nat}
    (h : (o, i, n) ∈ [(HostOp.readT, 2#5, 3), (.readRh, 2#5, 3), (.readUreg, 1#5, 1), (.selfTest, 2#5, 3),
      (.selfTest, 5#5, 3), (.selfTest, 7#5, 1), (.selfTest, 12#5, 3), (.selfTest, 15#5, 3), (.selfTest, 17#5, 1)])
    (a : Answer) (s : State) : microEvent o i.toNat a s = some (.rx 0x40#7 n a) := by
  simp only [List.mem_cons, Prod.mk.injEq, List.not_mem_nil, or_false] at h
  obtain ⟨rfl, rfl, rfl⟩ | ⟨rfl, rfl, rfl⟩ | ⟨rfl, rfl, rfl⟩ | ⟨rfl, rfl, rfl⟩ | ⟨rfl, rfl, rfl⟩ | ⟨rfl, rfl, rfl⟩ |
    ⟨rfl, rfl, rfl⟩ | ⟨rfl, rfl, rfl⟩ | ⟨rfl, rfl, rfl⟩ := h <;> rfl

/-- Settles O37: each of these micro-steps is a receive. -/
theorem wrongReceiveLengthFaults : Obligations.WrongReceiveLengthFaults := by
  intro s l o i n b hon h hl
  obtain ⟨t, ht, call⟩ := exec_callResult h (microEvent_receives hon _ s) b
  rw [ht, call.shortRx hl]
  rfl

/-- Under the invariant a step of CORE makes the call of its micro-step. -/
theorem Inv.step_callResult {o : HostOp} (h : Inv s) (hi : s.inputs = .answer a :: rest) (hf : s.faultMark = none)
    (ho : s.op = some o) : ∃ ev t, microEvent o s.stepIx.toNat a s = some ev ∧ step s = .next t ∧
      CallResult a (s.takeHost rest) ev t := by
  have hn : s.stepIx.toNat < progLen (some o) := ho ▸ h.stepIx
  have hb : s.busy = true := by rw [h.op, ho]; rfl
  obtain ⟨ev, hev⟩ := exists_microEvent hn (h.reads_written ho) a
  obtain ⟨rule, hr⟩ := exists_micro hn
  exact ⟨ev, _, hev, step_micro hi hf hb ho hr, micro_callResult (s := s.takeHost rest) hr hev⟩

/-- Settles O38: a call made faults on such an answer, and an answer to a call not made faults as well. -/
theorem answersOutsideTheContractFault : Obligations.AnswersOutsideTheContractFault := by
  refine ⟨fun s a b o n ev h hev ha => ?_, fun s a o rest h hi hf ho => ?_, fun s a rest hi hf ho => ?_⟩
  · obtain ⟨t, ht, call⟩ := exec_callResult h hev b
    rw [ht, call.xportContract ha]
    rfl
  · obtain ⟨ev, t, hev, ht, call⟩ := h.step_callResult hi hf ho
    refine ⟨ev, hev, fun ha => ?_⟩
    rw [ht, call.xportContract ha]
    rfl
  · exact step_unasked hi hf ho

end Sys2Proof.Machine
end

section
/-! How an operation ends (60_exceptions.md R302, R312): every answered micro-step faults, ends the operation with one of
its errors or moves `STEP` on, so no operation outlasts its micro-program. -/

namespace Sys2Proof.Machine

variable {s t : State} {a : Answer} {rest : List Input} {o : HostOp} {n : Nat}

/-! ## The errors an operation ends with -/

/-- The row of R302's table for operation `o`. -/
abbrev EndError (o : HostOp) (e : ErrorKind) : Prop :=
  e = .noneErr ∨ isTransport e ∨
  (e = .checksumMismatch ∧ (o = .readT ∨ o = .readRh ∨ o = .selfTest)) ∨
  (e = .selfTestFailed ∧ o = .selfTest)

/-- In cleanup the pending error is the verdict's or an abort's (R267, R270). -/
theorem Inv.endError_of_pending {e : ErrorKind} (h : Inv s) (ho : s.op = some .selfTest) (hn : 16 ≤ s.stepIx.toNat)
    (hp : s.pendErr = some e) : EndError .selfTest e := by
  have hv := (h.verdict ho).2 hn
  rw [hp] at hv
  simp only [Option.some.injEq] at hv
  obtain ⟨-, rfl⟩ | ⟨-, rfl⟩ | ⟨-, -, rfl | rfl | rfl⟩ := hv <;> decide

theorem Inv.endError {e : ErrorKind} (h : Inv s) (ho : s.op = some o) (he : CanEndWith o s.stepIx.toNat s e) :
    EndError o e := by
  obtain he | ⟨he, hm⟩ | ⟨he, -⟩ | ⟨rfl, hn, hp⟩ := he
  · exact .inr (.inl he)
  · exact .inr (.inr (.inl ⟨he, hm.imp_right (Or.imp_right And.left)⟩))
  · exact .inl he
  · exact h.endError_of_pending ho hn hp

/-- A micro-step that sets `DONE` writes an error of its operation's row. -/
theorem MicroEffect.endError (h : MicroEffect o n s t) (hinv : Inv s) (hb : s.busy = true) (ho : s.op = some o)
    (hn : s.stepIx.toNat = n) (hd : t.done = true) : ∃ e, t.resErr = some e ∧ EndError o e := by
  subst hn
  cases h with
  | ends e he => exact ⟨e, rfl, hinv.endError ho he⟩
  | measured | uregRead => exact ⟨.noneErr, rfl, .inl rfl⟩
  | _ => exact absurd ((hinv.no_result hb).1.symm.trans hd) nofun

/-- Settles O58: only a micro-step that ends the operation sets `DONE`. -/
theorem errorsEachOperationCanEndWith : Obligations.ErrorsEachOperationCanEndWith := by
  intro s s' o a rest h ho hi hs hd
  have hb : s.busy = true := by rw [h.op, ho]; rfl
  obtain ⟨-, rfl | ⟨o', rule, -, ho', hr, rfl⟩⟩ := step_answer_effect hi hs
  · exact absurd ((h.no_result hb).1.symm.trans hd) nofun
  · obtain rfl : o = o' := Option.some.inj (ho.symm.trans ho')
    have call : Inv ((s.takeHost rest).called o s.stepIx.toNat a) := (h.takeHost rest).called ..
    obtain ⟨e, hres, he⟩ := (micro_effect hr a (s.takeHost rest)).endError call hb ho rfl hd
    rw [hres]
    cases o <;> simpa [EndError, isTransport, or_assoc] using he

/-! ## Progress -/

/-- From micro-step `n` the state `t` has faulted, has ended the operation, or has gone on with it. -/
abbrev Progress (n : Nat) (s t : State) : Prop :=
  t.faultMark.isSome = true ∨ (t.busy = false ∧ t.done = true) ∨ (n < t.stepIx.toNat ∧ t.op = s.op)

theorem progress_goto {m : BitVec 5} (hm : n < m.toNat) (ho : t.op = s.op) : Progress n s (t.goto m) :=
  .inr (.inr ⟨hm, ho⟩)

theorem MicroEffect.progress (h : MicroEffect o n s t) : Progress n s t := by
  cases h with
  | faults | unwritten | unjudged => exact .inl rfl
  | ends | measured | uregRead => exact .inr (.inl ⟨rfl, rfl⟩)
  | advances m hm => exact progress_goto (hm.1 ▸ Nat.lt_succ_self n) rfl
  | tStart _ _ hn | hStart _ _ hn | tAfter _ _ hn | judged _ _ _ _ _ hn =>
    exact progress_goto (by rw [hn]; decide) rfl
  | base m u _ hn => exact progress_goto (by obtain ⟨rfl, rfl⟩ | ⟨rfl, rfl⟩ := hn <;> decide) rfl
  | aborts _ _ hn => exact progress_goto (Nat.lt_succ_of_le hn) rfl

theorem step_answer_progress (hi : s.inputs = .answer a :: rest) (hs : step s = .next t) :
    Progress s.stepIx.toNat s t := by
  obtain ⟨-, rfl | ⟨o, rule, -, -, hr, rfl⟩⟩ := step_answer_effect hi hs
  · exact .inl rfl
  · exact (micro_effect hr a (s.takeHost rest)).progress

/-- Settles O59: every effect of a micro-step is progress. -/
theorem everyMicroStepAdvancesOrEnds : Obligations.EveryMicroStepAdvancesOrEnds :=
  fun _ _ _ _ _ _ hi hs => (step_answer_progress hi hs).imp_right (Or.imp_left And.left)

/-- Every micro-program has at most 19 micro-steps (R225, R261). -/
theorem progLen_le (o : Option HostOp) : progLen o ≤ 19 := by
  cases o with
  | none => decide
  | some o => cases o <;> decide

/-- A running operation has ended or faulted once the answers outnumber the micro-steps left. -/
theorem Inv.ends_or_faults (as : List Answer) (h : Inv s) (hf : s.faultMark = none) (hb : s.busy = true)
    (hlen : 19 ≤ s.stepIx.toNat + as.length) (hi : s.inputs = as.map Input.answer ++ rest) :
    ∃ n t, n ≤ as.length ∧ Host.Core.run core n s = .next t ∧
      (t.busy = false ∧ t.done = true ∨ t.faultMark.isSome = true) := by
  induction as generalizing s with
  | nil =>
    have hlt : s.stepIx.toNat < 19 := h.stepIx.trans_le (progLen_le s.op)
    exact absurd hlen (Nat.not_le.2 hlt)
  | cons a as ih =>
    obtain ⟨t, hs, -⟩ := coreStepsReadNoUnwrittenRegister s a _ h hf hi
    have ht : Inv t := stepKeepsTheInvariant s t h hs
    obtain ⟨-, -, -, hrest, -⟩ := coreStepsKeepTheOtherRegisters s t a _ hi hs
    by_cases hend : t.busy = false ∧ t.done = true ∨ t.faultMark.isSome = true
    · exact ⟨1, t, Nat.le_add_left 1 _, run_next hs, hend⟩
    · obtain ⟨hnend, hnf⟩ := not_or.1 hend
      obtain ⟨hlt, hop⟩ := ((step_answer_progress hi hs).resolve_left hnf).resolve_left hnend
      have hbt : t.busy = true := by rw [ht.op, hop, ← h.op, hb]
      rw [List.length_cons] at hlen
      obtain ⟨n, u, hn, hrun, hu⟩ := ih ht (Option.not_isSome_iff_eq_none.1 hnf) hbt (by omega) hrest
      exact ⟨n + 1, u, Nat.succ_le_succ hn, (run_next hs).trans hrun, hu⟩

/-- Settles O60: 19 answers outnumber the micro-steps of any operation. -/
theorem operationEndsOrFaultsWithinNineteenAnswers : Obligations.OperationEndsOrFaultsWithinNineteenAnswers := by
  intro s as rest h hf hb hlen hi
  obtain ⟨n, t, hn, hrun, ht⟩ := h.ends_or_faults as hf hb (by omega) hi
  exact ⟨n, t, hlen ▸ hn, hrun, ht⟩

end Sys2Proof.Machine
end

section
/-! Reset (70_reset_and_hazards.md R340) and the parameters, which no step writes (R344). -/

namespace Sys2Proof.Machine

variable {s t : State} {rest : List Input}

/-! ## The parameters -/

theorem startWrites_params (o : HostOp) (p : Byte) (s : State) : (startWrites o p s).params = s.params := by
  cases o <;> rfl

theorem pseudoWrite_params (p : Pseudo) (s : State) : (pseudoWrite p s).params = s.params :=
  pseudoWrite_elim (P := fun t => t.params = s.params) (fun _ _ => rfl) (fun _ => rfl)

/-- No act of the host writes a parameter: a reset takes them over from the state it resets. -/
theorem HostEffect.params {i : Input} (h : HostEffect i s t) : t.params = s.params := by
  cases h with
  | shows | faults | refuses => rfl
  | starts o p => exact startWrites_params o p s
  | resets => exact s.rstEvent_params
  | writes p => exact pseudoWrite_params p s

/-- Settles O52: neither an act of the host nor a micro-step writes the parameters. -/
theorem noStepChangesAParameter : Obligations.NoStepChangesAParameter := by
  intro s s' h
  cases step_effect h with
  | idle | unasked => rfl
  | host i rest _ _ _ e => exact e.params
  | micro a rest _ _ _ o _ rule hr => exact (micro_keeps hr a (s.takeHost rest)).params

/-! ## Reset -/

/-- Settles O46: each register's reset value is the one `State.reset` writes. -/
theorem resetValues : Obligations.ResetValues := by
  unfold Obligations.ResetValues
  and_intros <;> rfl

theorem step_rst (hi : s.inputs = .rst :: rest) : step s = .next (s.takeHost rest).rstEvent := by
  simp [step, hi]

/-- Settles O47: the step is `rstEvent`, which takes every register from `State.reset` but the history. -/
theorem rstEventResetsTheCore : Obligations.RstEventResetsTheCore := by
  unfold Obligations.RstEventResetsTheCore
  intro clean
  have power_on : clean State.reset := by and_intros <;> rfl
  have later (u : State) : clean u.rstEvent := power_on
  exact ⟨⟨power_on, rfl⟩, fun s rest hi =>
    ⟨_, step_rst hi, later _, State.rstEvent_hist _, State.rstEvent_params _⟩⟩

end Sys2Proof.Machine
end
